-- ==== Sys2Proof/Word.lean ====
section
/-! DEFINITION. Word.lean: the byte and the closed sets of names the spec uses. A byte is 8 bits (00_scope section 7.1);
every index, length and offset of this hardware is a natural number (40_ring_pool R110). -/

namespace Sys2Proof

/-- One byte (00_scope section 7.1). -/
abbrev Byte := BitVec 8

/-- The two RingPool instances, in the order RandomSource checks them (00_scope R2). -/
inductive PoolId where
  | high
  | low
  deriving DecidableEq, Repr

/-- The four receive states (10_state R28), listed in the order of their numbers 0 to 3 (decision D10). -/
inductive RxState where
  | awaitingType
  | awaitingAclHeader
  | awaitingCmdHeader
  | awaitingPayload
  deriving DecidableEq, Repr

/-- The four execution contexts (60_exceptions R210). -/
inductive Ctx where
  | main
  | irqRx
  | irqTx
  | irqRng
  deriving DecidableEq, Repr

/-- The four byte spaces of the block (20_memory R50). -/
inductive Space where
  | slotHigh
  | slotLow
  | rxbuf
  | txbuf
  deriving DecidableEq, Repr

end Sys2Proof
end

