-- ==== Sys2Proof/Config.lean ====
section
/-! DEFINITION. Config.lean: what is fixed for the life of the block (00_scope section 5). The numbers the spec settles are
definitions; the parameters it leaves OPEN (`RXBUF_SIZE`, `TXBUF_SIZE`, the four priorities) are a record that carries
their constraints, and the machine's own choice of them is built from opaque constants (log 4). -/

namespace Sys2Proof

/-- Ring capacity `C` (00_scope R1). -/
abbrev ringC : Nat := 64

/-- Slots of a ring's backing array, `S = C + 1` (00_scope R1). -/
abbrev ringS : Nat := ringC + 1

/-- Command header bytes after the type byte, `CMD_HDR` (00_scope R3). -/
abbrev cmdHdr : Nat := 3

/-- ACL-Data header bytes after the type byte, `ACL_HDR` (00_scope R3). -/
abbrev aclHdr : Nat := 4

/-- `CMD_PAYLOAD_OFF` (30_encoding R84). -/
abbrev cmdPayloadOff : Nat := 1 + cmdHdr

/-- `ACL_PAYLOAD_OFF` (30_encoding R86). -/
abbrev aclPayloadOff : Nat := 1 + aclHdr

/-- Packet-type code of a Command frame (00_scope R4). -/
abbrev tCmd : Byte := 0x01#8

/-- Packet-type code of an ACL-Data frame (00_scope R4). -/
abbrev tAcl : Byte := 0x02#8

/-- Packet-type code of a Synchronous-Data frame: a code and nothing else (00_scope R4, 30_encoding R88). -/
abbrev tSync : Byte := 0x03#8

/-- Packet-type code of an Event frame (00_scope R4). -/
abbrev tEvt : Byte := 0x04#8

/-- The OPEN parameters with the constraints the spec puts on them: `RXBUF_SIZE ≥ 5`, `TXBUF_SIZE ≥ 2` (00_scope R5);
three pairwise distinct interrupt priorities, each numerically less than `PRIO_MAIN` (00_scope R6). -/
structure Config where
  rxbufSize : Nat
  txbufSize : Nat
  prioRx : Nat
  prioTx : Nat
  prioRng : Nat
  prioMain : Nat
  admissible : 5 ≤ rxbufSize ∧ 2 ≤ txbufSize ∧ prioRx ≠ prioTx ∧ prioRx ≠ prioRng ∧ prioTx ≠ prioRng ∧
    prioRx < prioMain ∧ prioTx < prioMain ∧ prioRng < prioMain
  deriving DecidableEq, Repr

/-- Bytes of `RXBUF` beyond the least admissible size. OPEN (D5): no body, nothing is known of it. -/
opaque openRxSpare : Nat

/-- Bytes of `TXBUF` beyond the least admissible size. OPEN (D7). -/
opaque openTxSpare : Nat

/-- The most urgent interrupt priority number. OPEN (D14). -/
opaque openPrioBase : Nat

/-- Gap between the most urgent and the middle interrupt priority. OPEN (D14). -/
opaque openPrioGap1 : Nat

/-- Gap between the middle and the least urgent interrupt priority. OPEN (D14). -/
opaque openPrioGap2 : Nat

/-- Gap between the least urgent interrupt priority and the main loop's. OPEN (D14). -/
opaque openPrioGap3 : Nat

/-- Which of the six orders the three interrupts have. OPEN (D14). -/
opaque openPrioOrder : Fin 6

/-- The three interrupt numbers `(RX, TX, RNG)` for an order and three rising numbers. -/
def prioTriple (o : Fin 6) (a b c : Nat) : Nat × Nat × Nat :=
  match o with
  | 0 => (a, b, c)
  | 1 => (a, c, b)
  | 2 => (b, a, c)
  | 3 => (c, a, b)
  | 4 => (b, c, a)
  | 5 => (c, b, a)

theorem prioTriple_spec (o : Fin 6) (a b c m : Nat) (hab : a < b) (hbc : b < c) (hcm : c < m) :
    (prioTriple o a b c).1 ≠ (prioTriple o a b c).2.1 ∧ (prioTriple o a b c).1 ≠ (prioTriple o a b c).2.2 ∧
    (prioTriple o a b c).2.1 ≠ (prioTriple o a b c).2.2 ∧ (prioTriple o a b c).1 < m ∧
    (prioTriple o a b c).2.1 < m ∧ (prioTriple o a b c).2.2 < m := by
  unfold prioTriple
  split <;> refine ⟨?_, ?_, ?_, ?_, ?_, ?_⟩ <;> simp only [] <;> omega

/-- The machine's own parameters: every admissible choice is some value of the opaque constants, and none can be told
from another (log 4). -/
def openConfig : Config :=
  let a := openPrioBase
  let b := a + openPrioGap1 + 1
  let c := b + openPrioGap2 + 1
  let m := c + openPrioGap3 + 1
  let p := prioTriple openPrioOrder a b c
  { rxbufSize := openRxSpare + 5
    txbufSize := openTxSpare + 2
    prioRx := p.1
    prioTx := p.2.1
    prioRng := p.2.2
    prioMain := m
    admissible := ⟨by omega, by omega,
      prioTriple_spec openPrioOrder a b c m (by omega) (by omega) (by omega)⟩ }

end Sys2Proof
end

