-- ==== Sys2Proof/Syntax.lean ====
section
/-! DEFINITION. Syntax.lean: one constructor for each row of spec/opcode_table.json: eight framer transitions (format
`H4RX`) and sixteen port operations (format `OPSEL`, 30_encoding R96). An operand is what the row's pattern or its
operand list gives. -/

namespace Sys2Proof

/-- The operations of the block. -/
inductive Instr where
  /-- `RX.TYPE.CMD` (42 R154). -/
  | rxTypeCmd
  /-- `RX.TYPE.ACL` (42 R155). -/
  | rxTypeAcl
  /-- `RX.TYPE.BAD` with the offending type byte (42 R156). -/
  | rxTypeBad (t : Byte)
  /-- `RX.CMDHDR.Z` with the two opaque header bytes (42 R157). -/
  | rxCmdhdrZ (g o : Byte)
  /-- `RX.CMDHDR.NZ` with the two opaque header bytes and the length byte (42 R158). -/
  | rxCmdhdrNz (g o l : Byte)
  /-- `RX.ACLHDR.Z` with the two connection/flags bytes (42 R159). -/
  | rxAclhdrZ (h0 h1 : Byte)
  /-- `RX.ACLHDR.NZ` with the two connection/flags bytes and the two length bytes, low byte first (42 R160). -/
  | rxAclhdrNz (h0 h1 l m : Byte)
  /-- `RX.PAYLOAD` (42 R161). -/
  | rxPayload
  /-- `RING.INIT p` (40 R111). -/
  | ringInit (p : PoolId)
  /-- `RING.ISFULL p` (40 R112). -/
  | ringIsfull (p : PoolId)
  /-- `RING.COUNT p` (40 R113). -/
  | ringCount (p : PoolId)
  /-- `RING.ENQ p, b` (40 R114). -/
  | ringEnq (p : PoolId) (b : Byte)
  /-- `RING.DEQ p` (40 R116). -/
  | ringDeq (p : PoolId)
  /-- `RING.TAKEV p, n` (40 R118); `n` is a natural number with no bound of its own (D23). -/
  | ringTakev (p : PoolId) (n : Nat)
  /-- `RS.INIT` (41 R131). -/
  | rsInit
  /-- `RS.PRODUCE b` (41 R132). -/
  | rsProduce (b : Byte)
  /-- `RS.GETHI n` (41 R134). -/
  | rsGethi (n : Nat)
  /-- `RS.GETLO n` (41 R135). -/
  | rsGetlo (n : Nat)
  /-- `RS.GETLOB n` (41 R138). -/
  | rsGetlob (n : Nat)
  /-- `RX.START` (42 R150). -/
  | rxStart
  /-- `RX.COMPLETE` with the bytes of the request (42 R153, 30_encoding R96). -/
  | rxComplete (bs : List Byte)
  /-- `RX.BYTE b` (42 R165). -/
  | rxByte (b : Byte)
  /-- `TX.POLL` (43 R181). -/
  | txPoll
  /-- `TX.COMPLETE` (43 R186). -/
  | txComplete
  deriving DecidableEq, Repr

end Sys2Proof
end

