-- ==== Sys2Proof/WellFormed.lean ====
section
/-! DEFINITION. WellFormed.lean: which terms of `Instr` stand for an encoding. The catch-all rows exclude what the
row of smaller priority number takes (30_encoding R95), and a count operand of the script is one byte (30_encoding R96). -/

namespace Sys2Proof

/-- The instruction has an encoding: `RX.TYPE.BAD` is any type byte but 0x01 and 0x02 (42 R156), the `NZ` rows have a
length that is not zero (42 R158, R160), and a count fits the script's one byte (30_encoding R96). -/
def Instr.wellFormed : Instr → Bool
  | .rxTypeCmd => true
  | .rxTypeAcl => true
  | .rxTypeBad t => t != tCmd && t != tAcl
  | .rxCmdhdrZ _ _ => true
  | .rxCmdhdrNz _ _ l => l != 0#8
  | .rxAclhdrZ _ _ => true
  | .rxAclhdrNz _ _ l m => l != 0#8 || m != 0#8
  | .rxPayload => true
  | .ringInit _ => true
  | .ringIsfull _ => true
  | .ringCount _ => true
  | .ringEnq _ _ => true
  | .ringDeq _ => true
  | .ringTakev _ n => n < 256
  | .rsInit => true
  | .rsProduce _ => true
  | .rsGethi n => n < 256
  | .rsGetlo n => n < 256
  | .rsGetlob n => n < 256
  | .rxStart => true
  | .rxComplete _ => true
  | .rxByte _ => true
  | .txPoll => true
  | .txComplete => true

end Sys2Proof
end

