-- ==== Sys2Proof/Decode.lean ====
section
/-! DEFINITION. Decode.lean: from bytes to an instruction or a rejection by name, and back. Operations are read from a
byte script (30_encoding R96, R97); framer transitions are read from the bytes of `RXBUF` under `rx_state`
(30_encoding section 4, 42 R153). The table's words (30_encoding R95) are laid out for that decoder by
`decodeTableWord`. -/

namespace Sys2Proof

/-- Why bytes are no instruction. -/
inductive DecodeError where
  /-- An op-select code other than the sixteen of 30_encoding R96 (93 section 2: refuse). Safe. -/
  | unknownOpSelect (code : Byte)
  /-- A pool operand other than 0x00 and 0x01 (93 section 2: refuse). Safe. -/
  | unknownPool (code : Byte)
  /-- The bytes end before the operands do. Safe. -/
  | missingOperand
  deriving DecidableEq, Repr

/-- Where an instruction is read from: the script, in which `RX.COMPLETE` is followed by exactly `rx_req_len` bytes
(30_encoding R96), or the framer's buffer under a receive state (30_encoding section 4). -/
inductive Source where
  | script (reqLen : Nat)
  | framer (st : RxState)
  deriving DecidableEq, Repr

/-- What a decoder answers: the instruction and the bytes after it. -/
abbrev Decoded := Except DecodeError (Instr × List Byte)

/-- The coding of the pool operand (30_encoding R96). -/
def PoolId.code : PoolId → Byte
  | .high => 0x00#8
  | .low => 0x01#8

/-- The pool a code names. -/
def poolOfCode (b : Byte) : Option PoolId :=
  if b = 0x00#8 then some .high else if b = 0x01#8 then some .low else none

/-- The numbers of the receive states (10_state R28, decision D10). -/
def RxState.code : RxState → Nat
  | .awaitingType => 0
  | .awaitingAclHeader => 1
  | .awaitingCmdHeader => 2
  | .awaitingPayload => 3

/-- An operation with a pool operand. -/
def readPool (f : PoolId → Instr) : List Byte → Decoded
  | [] => .error .missingOperand
  | b :: rest =>
    match poolOfCode b with
    | some p => .ok (f p, rest)
    | none => .error (.unknownPool b)

/-- An operation with a byte operand. -/
def readByte (f : Byte → Instr) : List Byte → Decoded
  | [] => .error .missingOperand
  | b :: rest => .ok (f b, rest)

/-- An operation with a count operand, one byte in the script (30_encoding R96). -/
def readCount (f : Nat → Instr) : List Byte → Decoded
  | [] => .error .missingOperand
  | b :: rest => .ok (f b.toNat, rest)

/-- An operation with a pool operand and then a byte operand. -/
def readPoolByte (f : PoolId → Byte → Instr) : List Byte → Decoded
  | b :: c :: rest =>
    match poolOfCode b with
    | some p => .ok (f p c, rest)
    | none => .error (.unknownPool b)
  | _ => .error .missingOperand

/-- An operation followed by exactly `n` bytes. -/
def readBytes (n : Nat) (f : List Byte → Instr) (bytes : List Byte) : Decoded :=
  if n ≤ bytes.length then .ok (f (bytes.take n), bytes.drop n) else .error .missingOperand

/-- The operation whose op-select code is `op`, with the operands read from `rest` (table of 30_encoding R96). -/
def decodeOp (reqLen : Nat) (op : Byte) (rest : List Byte) : Decoded :=
  if op = 0x10#8 then readPool .ringInit rest
  else if op = 0x11#8 then readPool .ringIsfull rest
  else if op = 0x12#8 then readPool .ringCount rest
  else if op = 0x13#8 then readPoolByte .ringEnq rest
  else if op = 0x14#8 then readPool .ringDeq rest
  else if op = 0x15#8 then readPoolByte (fun p n => .ringTakev p n.toNat) rest
  else if op = 0x20#8 then .ok (.rsInit, rest)
  else if op = 0x21#8 then readByte .rsProduce rest
  else if op = 0x22#8 then readCount .rsGethi rest
  else if op = 0x23#8 then readCount .rsGetlo rest
  else if op = 0x24#8 then readCount .rsGetlob rest
  else if op = 0x30#8 then .ok (.rxStart, rest)
  else if op = 0x31#8 then readBytes reqLen .rxComplete rest
  else if op = 0x32#8 then readByte .rxByte rest
  else if op = 0x40#8 then .ok (.txPoll, rest)
  else if op = 0x41#8 then .ok (.txComplete, rest)
  else .error (.unknownOpSelect op)

/-- The transition the framer takes (42 R153): by `RXBUF[0]` in `AwaitingType`, by `RXBUF[3]` in `AwaitingCmdHeader`, by
`RXBUF[3]` and `RXBUF[4]` in `AwaitingAclHeader`, by nothing in `AwaitingPayload`. The bytes are those of the frame from
offset 0; a header state does not test byte 0 again (log 28). -/
def decodeFrame : RxState → List Byte → Decoded
  | .awaitingType, t :: rest =>
    .ok (if t = tCmd then .rxTypeCmd else if t = tAcl then .rxTypeAcl else .rxTypeBad t, rest)
  | .awaitingCmdHeader, _ :: g :: o :: l :: rest =>
    .ok (if l = 0#8 then .rxCmdhdrZ g o else .rxCmdhdrNz g o l, rest)
  | .awaitingAclHeader, _ :: h0 :: h1 :: l :: m :: rest =>
    .ok (if l = 0#8 ∧ m = 0#8 then .rxAclhdrZ h0 h1 else .rxAclhdrNz h0 h1 l m, rest)
  | .awaitingPayload, rest => .ok (.rxPayload, rest)
  | _, _ => .error .missingOperand

/-- The decoder, total on any bytes. -/
def decode : Source → List Byte → Decoded
  | .script _, [] => .error .missingOperand
  | .script reqLen, op :: rest => decodeOp reqLen op rest
  | .framer st, bytes => decodeFrame st bytes

/-- The bytes of an instruction: for a framer transition the frame's bytes from offset 0 (30_encoding section 4), for an
operation its script bytes (30_encoding R96). -/
def encode : Instr → List Byte
  | .rxTypeCmd => [0x01#8]
  | .rxTypeAcl => [0x02#8]
  | .rxTypeBad t => [t]
  | .rxCmdhdrZ g o => [0x01#8, g, o, 0x00#8]
  | .rxCmdhdrNz g o l => [0x01#8, g, o, l]
  | .rxAclhdrZ h0 h1 => [0x02#8, h0, h1, 0x00#8, 0x00#8]
  | .rxAclhdrNz h0 h1 l m => [0x02#8, h0, h1, l, m]
  | .rxPayload => []
  | .ringInit p => [0x10#8, p.code]
  | .ringIsfull p => [0x11#8, p.code]
  | .ringCount p => [0x12#8, p.code]
  | .ringEnq p b => [0x13#8, p.code, b]
  | .ringDeq p => [0x14#8, p.code]
  | .ringTakev p n => [0x15#8, p.code, BitVec.ofNat 8 n]
  | .rsInit => [0x20#8]
  | .rsProduce b => [0x21#8, b]
  | .rsGethi n => [0x22#8, BitVec.ofNat 8 n]
  | .rsGetlo n => [0x23#8, BitVec.ofNat 8 n]
  | .rsGetlob n => [0x24#8, BitVec.ofNat 8 n]
  | .rxStart => [0x30#8]
  | .rxComplete bs => 0x31#8 :: bs
  | .rxByte b => [0x32#8, b]
  | .txPoll => [0x40#8]
  | .txComplete => [0x41#8]

/-- Where an instruction's encoding is read from: the receive state of its row (spec/opcode_table.json), or the script
with the request length its operand bytes fill. -/
def Instr.source : Instr → Source
  | .rxTypeCmd => .framer .awaitingType
  | .rxTypeAcl => .framer .awaitingType
  | .rxTypeBad _ => .framer .awaitingType
  | .rxCmdhdrZ _ _ => .framer .awaitingCmdHeader
  | .rxCmdhdrNz _ _ _ => .framer .awaitingCmdHeader
  | .rxAclhdrZ _ _ => .framer .awaitingAclHeader
  | .rxAclhdrNz _ _ _ _ => .framer .awaitingAclHeader
  | .rxPayload => .framer .awaitingPayload
  | .ringInit _ => .script 0
  | .ringIsfull _ => .script 0
  | .ringCount _ => .script 0
  | .ringEnq _ _ => .script 0
  | .ringDeq _ => .script 0
  | .ringTakev _ _ => .script 0
  | .rsInit => .script 0
  | .rsProduce _ => .script 0
  | .rsGethi _ => .script 0
  | .rsGetlo _ => .script 0
  | .rsGetlob _ => .script 0
  | .rxStart => .script 0
  | .rxComplete bs => .script bs.length
  | .rxByte _ => .script 0
  | .txPoll => .script 0
  | .txComplete => .script 0

/-- The `n` bytes of a table word, most significant byte first: "the frame's byte 0 is the most significant byte of the
literal" (30_encoding R95). -/
def wordBytes : Nat → Nat → List Byte
  | 0, _ => []
  | n + 1, w => BitVec.ofNat 8 (w / 256 ^ n) :: wordBytes n w

/-- The sixteen op-select codes (30_encoding R96). -/
def isOpSelect (b : Byte) : Bool :=
  b ∈ ([0x10#8, 0x11#8, 0x12#8, 0x13#8, 0x14#8, 0x15#8, 0x20#8, 0x21#8, 0x22#8, 0x23#8, 0x24#8, 0x30#8, 0x31#8, 0x32#8, 0x40#8, 0x41#8] : List Byte)

/-- Where a table word of `nbits` bits belongs: 8 bits are an op-select code or else a type byte; 32 bits are a Command
header with its type byte, 40 bits an ACL-Data header with its type byte; no bits are `RX.PAYLOAD`. An `RX.COMPLETE` is
read with the request of one byte that starts every frame (log 27). -/
def tableSource (nbits : Nat) (bytes : List Byte) : Option Source :=
  match nbits, bytes with
  | 0, _ => some (.framer .awaitingPayload)
  | 8, b :: _ => if isOpSelect b then some (.script 1) else some (.framer .awaitingType)
  | 32, b :: _ => if b = tCmd then some (.framer .awaitingCmdHeader) else none
  | 40, b :: _ => if b = tAcl then some (.framer .awaitingAclHeader) else none
  | _, _ => none

/-- The instruction the decoder reads from a table word: its bytes in table order, then operand bytes of zero. -/
def decodeTableWord (nbits w : Nat) : Option Instr :=
  let bytes := wordBytes (nbits / 8) w
  match tableSource nbits bytes with
  | none => none
  | some src =>
    match decode src (bytes ++ [0#8, 0#8]) with
    | .ok (i, _) => some i
    | .error _ => none

end Sys2Proof
end

