-- ==== Sys2Proof/Machine/State.lean ====
section
/-! DEFINITION. Machine/State.lean: everything the spec gives the machine (10_state), the platform state it names (10_state
R42), the configuration, and the model's own inputs and observations (INVENTORY.md, State). Plain data throughout. -/

namespace Sys2Proof.Machine

/-- A byte space in canonical form: offsets strictly rising, no entry equal to 0x00, which is what an unlisted offset
reads as (10_state R25 for the slots, log 6 for the buffers). -/
abbrev Memory := List Host.Cell

/-- One RingPool: the write index, the read index (10_state R20; a natural number in `[0, C]`, log 31) and the slots
(10_state R21). -/
structure RingPool where
  w : Fin ringS
  r : Fin ringS
  slots : Memory
  deriving DecidableEq, Repr

/-- The fatal conditions (60_exceptions R201). -/
inductive FatalCode where
  | unsupportedType
  | controllerReject
  | rxOverlength
  | txOverlength
  | platformInit
  deriving DecidableEq, Repr

/-- What an operation returned to its caller (00_scope R8, 60_exceptions R202). -/
inductive Result where
  /-- Nothing is returned. -/
  | nothing
  /-- The answer of `RING.ISFULL`. -/
  | bool (b : Bool)
  /-- The answer of `RING.COUNT`. -/
  | count (n : Nat)
  /-- `RING.ENQ` accepted the byte. -/
  | ok
  /-- Status error `Capacity` of `RING.ENQ`. -/
  | capacity
  /-- Status error `Underflow` of `RING.DEQ`. -/
  | underflow
  /-- The byte of `RING.DEQ`. -/
  | byte (b : Byte)
  /-- `true` of a vector take, with the caller's buffer. -/
  | taken (bs : List Byte)
  /-- `false` of a vector take. -/
  | notTaken
  /-- The operation has not returned: a blocking getter that spins, an ingest call that has not returned (00_scope R8,
  outcome 4), or an operation cut between two micro-steps (20_memory R62). -/
  | unfinished
  deriving DecidableEq, Repr

/-- A getter the controller's ingest code calls (60_exceptions R210, R216). -/
inductive GetCall where
  | high (n : Nat)
  | low (n : Nat)
  | lowBlocking (n : Nat)
  deriving DecidableEq, Repr

/-- The controller's answer to one ingest call: the getters its code calls before it returns, and the status it
returns, 0 for success (00_scope R7, 60_exceptions R216). -/
structure IngestAnswer where
  calls : List GetCall
  status : Nat
  deriving DecidableEq, Repr

/-- The controller's answer to one pull (43 R183): nothing pending, with what it may have left in `TXBUF[1 ..)`; or a
frame of at least one byte. -/
inductive PullAnswer where
  | nothing (scratch : List Byte)
  | frame (b : Byte) (bs : List Byte)
  deriving DecidableEq, Repr

/-- The two ingest operations (60_exceptions R216). -/
inductive IngestKind where
  | command
  | data
  deriving DecidableEq, Repr

/-- One ingest call made: which operation, and the bytes passed. -/
structure Delivery where
  kind : IngestKind
  bytes : List Byte
  deriving DecidableEq, Repr

/-- What the platform does between two micro-steps (log 3). -/
inductive PlatEvent where
  /-- Nothing. -/
  | quiet
  /-- The UART stores the next byte of the receive line, if a request waits for one (42 R151, R165). -/
  | uartRx
  /-- The UART has sent the last byte of the transmission in flight, if there is one (60 R212). -/
  | uartTx
  /-- The RNG has produced its next byte, if it is started and none waits (60 R213, R218). -/
  | rngByte
  /-- Platform initialisation failed, with unspecified information (60 R208). -/
  | initFailure (info : Nat)
  deriving DecidableEq, Repr

/-- One entry of the schedule: the platform's events before a step, in order, and where what then runs is cut: after
`k + 1` micro-steps for `some k`, nowhere for `none` (20_memory R62; log 3). -/
structure Slot where
  events : List PlatEvent
  cut : Option Nat
  deriving DecidableEq, Repr

/-- What the bytes handed to the framer's request are to it (42 R153, R165). -/
inductive Receipt where
  /-- There is no such event (D22). -/
  | noEvent
  /-- Stored; the request waits for more. -/
  | stored
  /-- They filled the request: the RX-complete event has been taken. -/
  | filled
  deriving DecidableEq, Repr

/-- What one micro-step answers to the operation that makes it (20_memory R62). -/
inductive Val where
  | unit
  | flag (b : Bool)
  | byte (b : Byte)
  | index (i : Fin ringS)
  | rxState (x : RxState)
  | receipt (r : Receipt)
  | answer (a : Option IngestAnswer)
  | length (n : Nat)
  deriving DecidableEq, Repr

/-- What a context is performing. -/
inductive Call where
  /-- An operation. -/
  | op (i : Instr)
  /-- The rest of a transition whose ingest call, of a frame with this type byte, the controller has not answered
  (42 R152). -/
  | awaiting (ty : Byte)
  /-- The rest of a transition whose ingest code has these getters still to call before it returns `status` (42 R152,
  60 R210). -/
  | ingest (ty : Byte) (status : Nat) (calls : List GetCall)
  deriving DecidableEq, Repr

/-- A context in the middle of what it performs: the answers its micro-steps have had so far say where it is (20_memory
R62; log 34). -/
structure Activation where
  ctx : Ctx
  call : Call
  seen : List Val
  deriving DecidableEq, Repr

/-- Why the machine stops. -/
inductive Fault where
  /-- An access to an offset outside a byte space (20_memory R50, R72: nothing exists there). Raised by the loads and
  stores of every space; no run from reset raises it. Safe (log 19). -/
  | noSuchByte (sp : Space)
  deriving DecidableEq, Repr

/-- Why there is no meaning to give. -/
inductive Refusal where
  /-- An arm of `exec` that has no meaning yet. Safe. -/
  | notModelled (mnemonic : String)
  /-- An event that does not exist: RX-complete or a wire byte without its request, TX-complete with no transmission in
  flight (D22, U19). Raised by `RX.COMPLETE`, `RX.BYTE`, `TX.COMPLETE`. Safe (log 15). -/
  | noSuchEvent
  /-- A second consumer of a pool while an operation that consumes from it, or initialises it, is suspended below it (U6:
  refuse the second operation). Raised by getters the ingest code calls. Safe (log 24). -/
  | secondConsumer
  /-- A second producer while an operation that enqueues, or initialises a pool, is suspended below it (U6). Raised by
  `RS.PRODUCE` and by the pump of the blocking getter. Safe (log 24). -/
  | secondProducer
  /-- The script's bytes are no operation (93 section 2: refuse). Raised by the fetch. Safe. -/
  | badScript (e : DecodeError)
  deriving DecidableEq, Repr

/-- The machine. -/
structure State where
  -- configuration, fixed (00_scope R5, R6; log 4)
  cfg : Config
  -- RandomSource and its two pools (10_state R20, R21, R26)
  high : RingPool
  low : RingPool
  rsStarted : Bool
  -- H4 Framer (10_state R27 to R30)
  rxState : RxState
  rxReqValid : Bool
  rxReqOff : Nat
  rxReqLen : Nat
  rxGot : Nat
  rxbuf : Memory
  -- H4 Multiplexer (10_state R33 to R36)
  txLastEvt : Bool
  txIdle : Bool
  txLen : Nat
  txbuf : Memory
  -- fault latch (10_state R38)
  halted : Bool
  faultCode : Nat
  faultInfo : Nat
  -- platform state (10_state R42; logs 9, 20)
  rngReady : Bool
  rngData : Byte
  txFlight : Bool
  txDone : Bool
  -- contexts (60_exceptions R210; logs 10, 34): the one that calls the script's operations, and what is in progress, the
  -- running activation first and what it preempted below it
  ctx : Ctx
  stack : List Activation
  -- the model's inputs (logs 2, 3, 11, 12)
  script : List Byte
  sched : List Slot
  rxLine : List Byte
  rngLine : List Byte
  ctlIngest : List IngestAnswer
  ctlEvents : List PullAnswer
  ctlDatas : List PullAnswer
  -- the model's observations (log 26)
  result : Result
  delivered : List Delivery
  sent : List (List Byte)
  ctlGot : List Result
  deriving DecidableEq, Repr

/-- The three outcomes of this machine. -/
abbrev Out := Host.Outcome State Fault Refusal

/-- A pool after reset (10_state R25). -/
def RingPool.reset : RingPool := { w := 0, r := 0, slots := [] }

/-- Right after reset (10_state R43). The values the spec does not give: logs 4, 6 to 12, 26. -/
def State.reset : State where
  cfg := openConfig
  high := RingPool.reset
  low := RingPool.reset
  rsStarted := false
  rxState := .awaitingType
  rxReqValid := false
  rxReqOff := 0
  rxReqLen := 0
  rxGot := 0
  rxbuf := []
  txLastEvt := false
  txIdle := true
  txLen := 0
  txbuf := []
  halted := false
  faultCode := 0
  faultInfo := 0
  rngReady := false
  rngData := 0#8
  txFlight := false
  txDone := false
  ctx := .main
  stack := []
  script := []
  sched := []
  rxLine := []
  rngLine := []
  ctlIngest := []
  ctlEvents := []
  ctlDatas := []
  result := .nothing
  delivered := []
  sent := []
  ctlGot := []

end Sys2Proof.Machine
end

