-- ==== Sys2Proof/Machine/Operands.lean ====
section
/-! DEFINITION. Machine/Operands.lean: the operand forms: the pool operand, the length fields of the two headers, the
getter calls of the ingest code, and the priority of a context. -/

namespace Sys2Proof.Machine

/-- The pool an operand names. -/
def State.pool (s : State) : PoolId → RingPool
  | .high => s.high
  | .low => s.low

/-- The state with the named pool replaced. -/
def State.setPool (s : State) (p : PoolId) (q : RingPool) : State :=
  match p with
  | .high => { s with high := q }
  | .low => { s with low := q }

/-- Command length assembly, `L = zext(RXBUF[3])` (30_encoding R84). -/
def cmdLength (l : Byte) : Nat := l.toNat

/-- ACL-Data length assembly, little-endian: `L = zext(RXBUF[3]) + 256 * zext(RXBUF[4])` (30_encoding R86). -/
def aclLength (l m : Byte) : Nat := l.toNat + 256 * m.toNat

/-- The successor of a ring index, `(i + 1) mod S` (10_state R20). -/
def nextIndex (i : Fin ringS) : Fin ringS := ⟨(i.val + 1) % ringS, Nat.mod_lt _ (by decide)⟩

/-- The slot `i` places after `r`, `(r + i) mod S` (40 R110). -/
def slotAfter (r : Fin ringS) (i : Nat) : Fin ringS := ⟨(r.val + i) % ringS, Nat.mod_lt _ (by decide)⟩

/-- The priority number of a context (00_scope R6). -/
def Config.prio (c : Config) : Ctx → Nat
  | .main => c.prioMain
  | .irqRx => c.prioRx
  | .irqTx => c.prioTx
  | .irqRng => c.prioRng

/-- Interrupt `y` can preempt context `x` iff it is strictly more urgent (00_scope R6). Every interrupt is above the main
loop, whatever the numbers (00_scope R6). -/
def Config.canPreempt (c : Config) (y x : Ctx) : Bool :=
  x == .main || decide (Config.prio c y < Config.prio c x)

/-- The context that runs: that of the activation on top, or else the one that calls the script's operations. -/
def State.runningCtx (s : State) : Ctx :=
  match s.stack with
  | [] => s.ctx
  | a :: _ => a.ctx

/-- The context an operation runs in when `caller` calls it: the framer's events in `IRQ_RX`, TX-complete in `IRQ_TX`, a
delivered random byte in `IRQ_RNG`, every other operation in its caller's (60_exceptions R210). -/
def Instr.context (i : Instr) (caller : Ctx) : Ctx :=
  match i with
  | .rxTypeCmd | .rxTypeAcl | .rxTypeBad _ | .rxCmdhdrZ _ _ | .rxCmdhdrNz _ _ _ | .rxAclhdrZ _ _
  | .rxAclhdrNz _ _ _ _ | .rxPayload | .rxComplete _ | .rxByte _ => .irqRx
  | .txComplete => .irqTx
  | .rsProduce _ => .irqRng
  | .ringInit _ | .ringIsfull _ | .ringCount _ | .ringEnq _ _ | .ringDeq _ | .ringTakev _ _ | .rsInit | .rsGethi _
  | .rsGetlo _ | .rsGetlob _ | .rxStart | .txPoll => caller

/-- An operation that consumes from pool `p`, or writes its read index as `RING.INIT` does (20_memory R65). -/
def Instr.consumes (p : PoolId) (i : Instr) : Bool :=
  match i with
  | .ringDeq q | .ringTakev q _ | .ringInit q => q == p
  | .rsGethi _ => p == .high
  | .rsGetlo _ | .rsGetlob _ => p == .low
  | .rsInit => true
  | .rxTypeCmd | .rxTypeAcl | .rxTypeBad _ | .rxCmdhdrZ _ _ | .rxCmdhdrNz _ _ _ | .rxAclhdrZ _ _
  | .rxAclhdrNz _ _ _ _ | .rxPayload | .ringIsfull _ | .ringCount _ | .ringEnq _ _ | .rsProduce _ | .rxStart
  | .rxComplete _ | .rxByte _ | .txPoll | .txComplete => false

/-- An operation that enqueues to a pool, or writes a write index as `RING.INIT` does (20_memory R65). -/
def Instr.produces (i : Instr) : Bool :=
  match i with
  | .ringEnq _ _ | .ringInit _ | .rsInit | .rsProduce _ => true
  | .rxTypeCmd | .rxTypeAcl | .rxTypeBad _ | .rxCmdhdrZ _ _ | .rxCmdhdrNz _ _ _ | .rxAclhdrZ _ _
  | .rxAclhdrNz _ _ _ _ | .rxPayload | .ringIsfull _ | .ringCount _ | .ringDeq _ | .ringTakev _ _ | .rsGethi _
  | .rsGetlo _ | .rsGetlob _ | .rxStart | .rxComplete _ | .rxByte _ | .txPoll | .txComplete => false

/-- What an activation may depend on besides the registers and bytes it reads: the configuration, its context, and the
activations it has preempted, none of which changes while it lives. -/
structure Around where
  cfg : Config
  ctx : Ctx
  below : List Activation
  deriving DecidableEq, Repr

/-- The surroundings of what starts in context `c`. -/
def State.around (s : State) (c : Ctx) : Around := ⟨s.cfg, c, s.stack⟩

/-- The operation an activation performs satisfies `f`. -/
def Activation.performs (a : Activation) (f : Instr → Bool) : Bool :=
  match a.call with
  | .op i => f i
  | .awaiting _ | .ingest _ _ _ => false

/-- A consumer of `p` is suspended below (41 R136, 70 R240). Ingest code is none: no context that preempts it consumes
(60_exceptions R210). -/
def Around.consuming (a : Around) (p : PoolId) : Bool := a.below.any fun x => x.performs (Instr.consumes p)

/-- A producer is suspended below (70 R240). A pump is none: it consumes from `low`, which is checked first. -/
def Around.producing (a : Around) : Bool := a.below.any fun x => x.performs Instr.produces

/-- The RNG interrupt cannot preempt the context (41 R138, R139). -/
def Around.pumps (a : Around) : Bool := decide (Config.prio a.cfg a.ctx ≤ a.cfg.prioRng)

/-! What a micro-step answered -/

def Val.getFlag : Val → Bool
  | .flag b => b
  | _ => false

def Val.getByte : Val → Byte
  | .byte b => b
  | _ => 0#8

def Val.getIndex : Val → Fin ringS
  | .index i => i
  | _ => 0

def Val.getRxState : Val → RxState
  | .rxState x => x
  | _ => .awaitingType

def Val.getReceipt : Val → Receipt
  | .receipt r => r
  | _ => .noEvent

def Val.getAnswer : Val → Option IngestAnswer
  | .answer a => a
  | _ => none

def Val.getLength : Val → Nat
  | .length n => n
  | _ => 0

end Sys2Proof.Machine
end

