-- ==== Sys2Proof/Machine/Flags.lean ====
section
/-! DEFINITION. Machine/Flags.lean: every computed flag and condition of the table of 10_state R44, the pending state of the
three interrupts, and the fault codes. -/

namespace Sys2Proof.Machine

/-- `(w - r) mod S`, of two indices (10_state R22, 40 R110). -/
def unreadCount (w r : Fin ringS) : Nat := (w.val + ringS - r.val) % ringS

/-- `count(p) = (p.w - p.r) mod S` (10_state R22, 40 R110). -/
def RingPool.count (p : RingPool) : Nat := unreadCount p.w p.r

/-- `full(p)` iff `(p.w + 1) mod S == p.r` (10_state R22). -/
def RingPool.full (p : RingPool) : Bool := nextIndex p.w == p.r

/-- `empty(p)` iff `p.w == p.r` (10_state R22). -/
def RingPool.empty (p : RingPool) : Bool := p.w == p.r

/-- RX-complete is pending: the outstanding request has been filled (60 R211; log 20). -/
def State.rxPending (s : State) : Bool := s.rxReqValid && s.rxGot == s.rxReqLen

/-- TX-complete is pending: the transmission that was in flight has sent its last byte (60 R212). -/
def State.txPending (s : State) : Bool := s.txDone

/-- RNG value-ready is pending: a byte waits, and `RS.INIT` has enabled the interrupt (60 R213; log 20). -/
def State.rngPending (s : State) : Bool := s.rngReady && s.rsStarted

/-- `fault_code` numbers (60_exceptions R201). -/
def FatalCode.code : FatalCode → Nat
  | .unsupportedType => 1
  | .controllerReject => 2
  | .rxOverlength => 3
  | .txOverlength => 4
  | .platformInit => 5

end Sys2Proof.Machine
end

