-- ==== Sys2Proof/Machine/Ops.lean ====
section
/-! DEFINITION. Machine/Ops.lean: the named updates over byte spaces, pools, the receive request, the fault latch (taking a
fatal condition), the controller's interface and the transmit path, which the micro-steps make. -/

namespace Sys2Proof.Machine

/-! Byte spaces (20_memory R50, R59) -/

/-- `MemRead(space, a, 1)`: an unlisted offset reads as 0x00. -/
def Memory.read : Memory → Nat → Byte
  | [], _ => 0#8
  | (k, v) :: m, a => if k = a then v else Memory.read m a

/-- `MemWrite(space, a, 1, b)`, keeping the canonical form. -/
def Memory.write : Memory → Nat → Byte → Memory
  | [], a, b => if b = 0#8 then [] else [(a, b)]
  | (k, v) :: m, a, b =>
    if a < k then (if b = 0#8 then (k, v) :: m else (a, b) :: (k, v) :: m)
    else if a = k then (if b = 0#8 then m else (a, b) :: m)
    else (k, v) :: Memory.write m a b

/-- `MemRead(space, a, n)`: `n` single-byte reads, lowest offset first (00_scope section 7.2, 20_memory R59). -/
def Memory.readN (m : Memory) (a : Nat) : Nat → List Byte
  | 0 => []
  | n + 1 => Memory.read m a :: Memory.readN m (a + 1) n

/-- `MemWrite(space, a, n, v)`: `n` single-byte writes at successive offsets. -/
def Memory.writeN (m : Memory) (a : Nat) : List Byte → Memory
  | [] => m
  | b :: bs => Memory.writeN (Memory.write m a b) (a + 1) bs

/-- The canonical form: offsets strictly rising and no entry equal to what an unlisted offset reads as. -/
abbrev Memory.Wf (m : Memory) : Prop := m.Pairwise (fun c d => c.1 < d.1) ∧ ∀ c ∈ m, c.2 ≠ 0#8

/-- Every listed offset exists in a space of `n` bytes. -/
abbrev Memory.Within (m : Memory) (n : Nat) : Prop := ∀ c ∈ m, c.1 < n

/-! RingPool and RandomSource (10_state R20 to R26) -/

/-- `p.w <- i`. -/
def State.setW (s : State) (p : PoolId) (i : Fin ringS) : State :=
  s.setPool p { s.pool p with w := i }

/-- `p.r <- i`. -/
def State.setR (s : State) (p : PoolId) (i : Fin ringS) : State :=
  s.setPool p { s.pool p with r := i }

/-- `MemWrite(SLOT.p, a, 1, b)`. -/
def State.setSlot (s : State) (p : PoolId) (a : Nat) (b : Byte) : State :=
  s.setPool p { s.pool p with slots := Memory.write (s.pool p).slots a b }

/-- `rs_started <- true`: the generator is started (41 R131). -/
def State.startRng (s : State) : State := { s with rsStarted := true }

/-- The handler logic takes the waiting byte, which makes `rng_ready` false (60 R218). -/
def State.takeRngByte (s : State) : State := { s with rngReady := false }

/-! Halt, and taking a fatal condition (60_exceptions R203) -/

/-- The fault latch is written (60 R203). -/
def State.latch (s : State) (c : FatalCode) (info : Nat) : State :=
  { s with faultCode := c.code, faultInfo := info, halted := true }

/-- `raise Fatal(code, info)`: the latch is written once, the first fault is kept; nothing else changes (60 R203). There
is no return from it (60 R220). -/
def State.raiseFatal (s : State) (c : FatalCode) (info : Nat) : State :=
  if s.halted then s else s.latch c info

/-- The operation returns `r` to its caller (00_scope R8). -/
def State.returns (s : State) (r : Result) : State := { s with result := r }

/-- An activation stays in progress, on top of those it preempted (20_memory R62). -/
def State.suspend (s : State) (a : Activation) : State := { s with stack := a :: s.stack, result := .unfinished }

/-! H4 Framer (42_h4_rx_framer) -/

/-- `rx_state <- x`. -/
def State.enter (s : State) (x : RxState) : State := { s with rxState := x }

/-- `Request(off, n)`, all four writes (42 R151). -/
def State.request (s : State) (off n : Nat) : State :=
  { s with rxReqOff := off, rxReqLen := n, rxGot := 0, rxReqValid := true }

/-- The event is taken: `rx_req_valid <- false` (42 R153). -/
def State.beginRx (s : State) : State := { s with rxReqValid := false }

/-- Bytes stored at the place the request has reached (42 R151, R165). -/
def State.fill (s : State) (bs : List Byte) : State :=
  { s with rxbuf := Memory.writeN s.rxbuf (s.rxReqOff + s.rxGot) bs, rxGot := s.rxGot + bs.length }

/-- The UART stores bytes of the outstanding request at `RXBUF[rx_req_off + rx_got ..)` (42 R151, R165); none when the
offsets are outside `RXBUF`. -/
def State.storeRx (s : State) (bs : List Byte) : Option State :=
  if s.rxReqOff + s.rxGot + bs.length ≤ s.cfg.rxbufSize then some (s.fill bs) else none

/-- The controller's answers to ingest calls still to come. -/
def State.setAnswers (s : State) (rest : List IngestAnswer) : State := { s with ctlIngest := rest }

/-- An ingest call is made with these bytes (60 R216). -/
def State.passes (s : State) (d : Delivery) : State := { s with delivered := s.delivered ++ [d] }

/-- The controller's ingest code received the result of a getter it called. -/
def State.gave (s : State) (r : Result) : State := { s with ctlGot := s.ctlGot ++ [r] }

/-! H4 Multiplexer (43_h4_tx_mux) -/

/-- The kinds of outbound frame (43 R182). -/
inductive TxKind where
  | event
  | data
  deriving DecidableEq, Repr

/-- The type byte of an outbound frame (43 R184, 30_encoding R82). -/
def TxKind.typeByte : TxKind → Byte
  | .event => tEvt
  | .data => tAcl

/-- The kind to pull: Data if `tx_last_evt` is true, Event if it is false (43 R182). -/
def txKind (lastEvt : Bool) : TxKind := if lastEvt then .data else .event

/-- The kind the next pull is of. -/
def State.pullKind (s : State) : TxKind := txKind s.txLastEvt

/-- The controller's next answer to a pull of a kind; with none to come it has nothing pending (43 R183, log 12). -/
def nextAnswer : List PullAnswer → PullAnswer × List PullAnswer
  | [] => (.nothing [], [])
  | a :: rest => (a, rest)

/-- What the controller writes at `TXBUF[1 ..)` in a pull (43 R183, log 13). -/
def PullAnswer.written : PullAnswer → List Byte
  | .nothing scratch => scratch
  | .frame b bs => b :: bs

/-- `len`, what the pull returns (43 R183). -/
def PullAnswer.len : PullAnswer → Nat
  | .nothing _ => 0
  | .frame _ bs => bs.length + 1

/-- A pull has been answered: the answers still to come, and what the controller left at `TXBUF[1 ..)`, as far as the
buffer reaches (log 13). -/
def State.pulled (s : State) (k : TxKind) (rest : List PullAnswer) (bs : List Byte) : State :=
  match k with
  | .event => { s with ctlEvents := rest, txbuf := Memory.writeN s.txbuf 1 (bs.take (s.cfg.txbufSize - 1)) }
  | .data => { s with ctlDatas := rest, txbuf := Memory.writeN s.txbuf 1 (bs.take (s.cfg.txbufSize - 1)) }

/-- The controller's answers to come for a kind of frame. -/
def State.answers (s : State) : TxKind → List PullAnswer
  | .event => s.ctlEvents
  | .data => s.ctlDatas

/-- `GetPendingEvent()` or `GetPendingData()`: the controller writes at `TXBUF[1 ..)` and answers (43 R183). -/
def State.pull (s : State) (k : TxKind) : PullAnswer × State :=
  match nextAnswer (s.answers k) with
  | (a, rest) => (a, s.pulled k rest a.written)

/-- `tx_last_evt <- (kind == Event)` (43 R185). -/
def State.noteKind (s : State) (k : TxKind) : State := { s with txLastEvt := k == .event }

/-- `tx_idle <- b` (43 R181, R186). -/
def State.setTxIdle (s : State) (b : Bool) : State := { s with txIdle := b }

/-- `tx_len <- n` (43 R181). -/
def State.setTxLen (s : State) (n : Nat) : State := { s with txLen := n }

/-- `UartTx(n)`: the UART is asked to send `TXBUF[0 .. n)` in rising offset, and a transmission is in flight (43 R181,
R184). -/
def State.uartTx (s : State) (n : Nat) : State :=
  { s with txFlight := true, sent := s.sent ++ [Memory.readN s.txbuf 0 n] }

/-- The transmission in flight is over and its event is taken (43 R186). -/
def State.takeTxEvent (s : State) : State := { s with txFlight := false, txDone := false }

/-! The byte spaces of the block -/

/-- The size of a space (20_memory R50). -/
def Config.size (c : Config) : Space → Nat
  | .slotHigh => ringS
  | .slotLow => ringS
  | .rxbuf => c.rxbufSize
  | .txbuf => c.txbufSize

/-- The slots of a pool. -/
def slotsOf : PoolId → Space
  | .high => .slotHigh
  | .low => .slotLow

/-- The bytes of a space. -/
def State.space (s : State) : Space → Memory
  | .slotHigh => s.high.slots
  | .slotLow => s.low.slots
  | .rxbuf => s.rxbuf
  | .txbuf => s.txbuf

/-- `MemWrite(sp, a, 1, b)`. -/
def State.setByte (s : State) (sp : Space) (a : Nat) (b : Byte) : State :=
  match sp with
  | .slotHigh => s.setSlot .high a b
  | .slotLow => s.setSlot .low a b
  | .rxbuf => { s with rxbuf := Memory.write s.rxbuf a b }
  | .txbuf => { s with txbuf := Memory.write s.txbuf a b }

end Sys2Proof.Machine
end

