-- ==== Sys2Proof/Machine/Micro.lean ====
section
/-! DEFINITION. Machine/Micro.lean: micro-steps (20_memory R62) and the programs operations are made of. A program says what
its next micro-step is and, for each answer, how it goes on; run to its end it is the operation uninterrupted, run for
some micro-steps it leaves an activation that goes on later. -/

namespace Sys2Proof.Machine

/-- One micro-step: one read or write of one register or one byte (20_memory R62), or one act of the platform or the
controller, whose own steps the spec does not give (log 1). -/
inductive Micro where
  /-- Read `p.w`. -/
  | readW (p : PoolId)
  /-- Read `p.r`. -/
  | readR (p : PoolId)
  /-- `p.w <- i`. -/
  | writeW (p : PoolId) (i : Fin ringS)
  /-- `p.r <- i`. -/
  | writeR (p : PoolId) (i : Fin ringS)
  /-- `MemRead(sp, a, 1)`. -/
  | load (sp : Space) (a : Nat)
  /-- `MemWrite(sp, a, 1, b)`. -/
  | store (sp : Space) (a : Nat) (b : Byte)
  /-- The generator is started: `rs_started <- true` (41 R131). -/
  | startRng
  /-- Read the platform flag `rng_ready` (41 R138). -/
  | readRngReady
  /-- The handler logic takes the waiting byte (60 R218). -/
  | takeRng
  /-- Read `rx_state`. -/
  | readRxState
  /-- `rx_state <- x`. -/
  | enter (x : RxState)
  /-- `rx_req_off <- n`. -/
  | reqOff (n : Nat)
  /-- `rx_req_len <- n`. -/
  | reqLen (n : Nat)
  /-- `rx_got <- 0`. -/
  | reqGot
  /-- `rx_req_valid <- true`. -/
  | reqValid
  /-- `rx_state <- AwaitingType` of `RX.START`, and where a request is outstanding (a second start, 70 R234) all of
  `Request(0, 1)` with it (log 23). -/
  | begin
  /-- The UART stores the bytes of the whole request and raises RX-complete, which is taken: `rx_req_valid <- false`
  (42 R153; log 16). -/
  | completeRequest (bs : List Byte)
  /-- The UART stores one byte of the request; if it fills it, RX-complete is taken (42 R165). -/
  | storeByte (b : Byte)
  /-- The ingest operation is called with `RXBUF[1 .. 1 + n)` (42 R152, 20_memory R59). -/
  | ingest (kind : IngestKind) (n : Nat)
  /-- The controller answers the ingest call, or has not (60 R216; log 11). -/
  | takeAnswer
  /-- The ingest code receives the result of a getter it called. -/
  | gave (r : Result)
  /-- Read `tx_idle`. -/
  | readTxIdle
  /-- Read `tx_last_evt`. -/
  | readTxLast
  /-- The pull: the controller writes at `TXBUF[1 ..)` and returns a length (43 R183). -/
  | pull (k : TxKind)
  /-- `tx_last_evt <- (k == Event)`. -/
  | noteKind (k : TxKind)
  /-- `tx_idle <- b`. -/
  | setTxIdle (b : Bool)
  /-- `tx_len <- n`. -/
  | setTxLen (n : Nat)
  /-- `UartTx(n)` (43 R184). -/
  | uartTx (n : Nat)
  /-- The TX-complete event is taken, if there is a transmission for it (43 R186; D22). -/
  | takeTxEvent
  deriving DecidableEq, Repr

/-- What a micro-step answers, and the state after it. -/
abbrev Performed := Except Fault (Val × State)

/-- `MemRead(sp, a, 1)`, of an offset that exists (20_memory R50). -/
def State.load (s : State) (sp : Space) (a : Nat) : Performed :=
  if a < Config.size s.cfg sp then .ok (.byte (Memory.read (s.space sp) a), s) else .error (.noSuchByte sp)

/-- `MemWrite(sp, a, 1, b)`, to an offset that exists (20_memory R50). -/
def State.store (s : State) (sp : Space) (a : Nat) (b : Byte) : Performed :=
  if a < Config.size s.cfg sp then .ok (.unit, s.setByte sp a b) else .error (.noSuchByte sp)

/-- The UART stores bytes of the outstanding request; bytes that fill it are the RX-complete event, and it is taken
(42 R151, R153). -/
def State.receive (s : State) (bs : List Byte) : Performed :=
  match s.storeRx bs with
  | none => .error (.noSuchByte .rxbuf)
  | some t => if t.rxGot = t.rxReqLen then .ok (.receipt .filled, t.beginRx) else .ok (.receipt .stored, t)

/-- The bytes of the outstanding request arrive together (42 R153). A count other than the request's, or no request, is no
event (D22). -/
def State.completeRequest (s : State) (bs : List Byte) : Performed :=
  if s.rxReqValid = true ∧ s.rxGot + bs.length = s.rxReqLen then s.receive bs else .ok (.receipt .noEvent, s)

/-- One byte of the outstanding request arrives (42 R165). A byte no request waits for is not the framer's to take. -/
def State.storeByte (s : State) (b : Byte) : Performed :=
  if s.rxReqValid = true ∧ s.rxGot < s.rxReqLen then s.receive [b] else .ok (.receipt .noEvent, s)

/-- `IngestCommand` or `IngestData` is called with the `n` bytes from `RXBUF[1]` on (42 R152). -/
def State.ingest (s : State) (kind : IngestKind) (n : Nat) : Performed :=
  if 1 + n ≤ s.cfg.rxbufSize then .ok (.unit, s.passes ⟨kind, Memory.readN s.rxbuf 1 n⟩)
  else .error (.noSuchByte .rxbuf)

/-- The next of the controller's answers to come, if there is one (log 11). -/
def State.takeAnswer (s : State) : Val × State :=
  match s.ctlIngest with
  | [] => (.answer none, s)
  | a :: rest => (.answer (some a), s.setAnswers rest)

/-- `UartTx(n)` of bytes that exist (20_memory R53). -/
def State.transmit (s : State) (n : Nat) : Performed :=
  if n ≤ s.cfg.txbufSize then .ok (.unit, s.uartTx n) else .error (.noSuchByte .txbuf)

/-- The micro-step made. -/
def State.perform (s : State) : Micro → Performed
  | .readW p => .ok (.index (s.pool p).w, s)
  | .readR p => .ok (.index (s.pool p).r, s)
  | .writeW p i => .ok (.unit, s.setW p i)
  | .writeR p i => .ok (.unit, s.setR p i)
  | .load sp a => s.load sp a
  | .store sp a b => s.store sp a b
  | .startRng => .ok (.unit, s.startRng)
  | .readRngReady => .ok (.flag s.rngReady, s)
  | .takeRng => .ok (.byte s.rngData, s.takeRngByte)
  | .readRxState => .ok (.rxState s.rxState, s)
  | .enter x => .ok (.unit, s.enter x)
  | .reqOff n => .ok (.unit, { s with rxReqOff := n })
  | .reqLen n => .ok (.unit, { s with rxReqLen := n })
  | .reqGot => .ok (.unit, { s with rxGot := 0 })
  | .reqValid => .ok (.unit, { s with rxReqValid := true })
  | .begin =>
    if s.rxReqValid then .ok (.flag true, (s.enter .awaitingType).request 0 1)
    else .ok (.flag false, s.enter .awaitingType)
  | .completeRequest bs => s.completeRequest bs
  | .storeByte b => s.storeByte b
  | .ingest kind n => s.ingest kind n
  | .takeAnswer => .ok s.takeAnswer
  | .gave r => .ok (.unit, s.gave r)
  | .readTxIdle => .ok (.flag s.txIdle, s)
  | .readTxLast => .ok (.flag s.txLastEvt, s)
  | .pull k => .ok (.length (s.pull k).1.len, (s.pull k).2)
  | .noteKind k => .ok (.unit, s.noteKind k)
  | .setTxIdle b => .ok (.unit, s.setTxIdle b)
  | .setTxLen n => .ok (.unit, s.setTxLen n)
  | .uartTx n => s.transmit n
  | .takeTxEvent => .ok (.flag (s.txFlight || s.txDone), s.takeTxEvent)

/-- What an operation does, micro-step by micro-step, in the order its rule's pseudocode gives (20_memory R62). -/
inductive Prog where
  /-- It returns `r`. -/
  | done (r : Result)
  /-- It raises a fatal condition, which ends it (60 R203). -/
  | fatal (c : FatalCode) (info : Nat)
  /-- It stops by name. -/
  | refuse (r : Refusal)
  /-- It goes on in a later step as the call `c`: a spinning getter, an unanswered ingest call. -/
  | stay (c : Call)
  /-- It makes the micro-step `m` and goes on with its answer. -/
  | act (m : Micro) (k : Val → Prog)

/-- The program run to its end with nothing in between, in context `c`. -/
def Prog.run (c : Ctx) : Prog → State → Out
  | .done r, s => .next (s.returns r)
  | .fatal code info, s => .next ((s.raiseFatal code info).returns .nothing)
  | .refuse r, _ => .refused r
  | .stay call, s => .next (s.suspend ⟨c, call, []⟩)
  | .act m k, s =>
    match s.perform m with
    | .ok (v, t) => (k v).run c t
    | .error f => .fault f

/-- The program run for at most `n` micro-steps, as the activation `a`: what is left of it then stays suspended. That a
raise of a fatal condition, which is one step (60 R203), counts as a micro-step, so that a cut and an interrupt can come
between it and the write or read before it, is the model's choice, and so is that a return, a refusal or a wait, which
write nothing of the block, go with the micro-step before them (log 1). -/
def Prog.runFor : Nat → Activation → Prog → State → Out
  | 0, a, .act _ _, s => .next (s.suspend a)
  | 0, a, .fatal _ _, s => .next (s.suspend a)
  | n + 1, a, .act m k, s =>
    match s.perform m with
    | .ok (v, t) => Prog.runFor n { a with seen := a.seen ++ [v] } (k v) t
    | .error f => .fault f
  | _, a, p, s => p.run a.ctx s

/-- What is left of a program once its micro-steps have had these answers. -/
def Prog.after : List Val → Prog → Prog
  | v :: vs, .act _ k => Prog.after vs (k v)
  | _, p => p

/-- An operation with the program `p` performed in context `c`, without interruption, on top of what is in progress. While
`halted` is true it has no effect and returns nothing (60 R203, 10_state R39). -/
def State.performs (s : State) (c : Ctx) (p : Around → Prog) : Out :=
  if s.halted then .next (s.returns .nothing) else (p (s.around c)).run c s

end Sys2Proof.Machine
end

