-- ==== Sys2Proof/Machine/Ring.lean ====
section
/-! DEFINITION. Machine/Ring.lean: the RingPool operations (40_ring_pool). -/

namespace Sys2Proof.Machine

/-! The pseudocode of 40_ring_pool, with what follows it as the last argument -/

/-- `(p.w + 1) mod S == p.r`: two reads (40 R112). The spec fixes no order of reads within a line; `p.w` first, then `p.r`,
is the model's choice (log 35). -/
def Prog.isFull (p : PoolId) (k : Bool → Prog) : Prog :=
  .act (.readW p) fun w => .act (.readR p) fun r => k (nextIndex w.getIndex == r.getIndex)

/-- `(p.w - p.r) mod S`: two reads (40 R113). The spec fixes no order of reads within a line; `p.w` first, then `p.r`, is the
model's choice (log 35). -/
def Prog.count (p : PoolId) (k : Nat → Prog) : Prog :=
  .act (.readW p) fun w => .act (.readR p) fun r => k (unreadCount w.getIndex r.getIndex)

/-- `RING.INIT p`: the slots are not written (40 R111). -/
def Prog.init (p : PoolId) (k : Prog) : Prog :=
  .act (.writeW p 0) fun _ => .act (.writeR p 0) fun _ => k

/-- `RING.ENQ p, b`: the slot, and last the index (40 R114, R115, 20_memory R63). Each index is read once, `p.w` first; the
spec says neither (log 35). -/
def Prog.enq (p : PoolId) (b : Byte) (k : Result → Prog) : Prog :=
  .act (.readW p) fun w => .act (.readR p) fun r =>
    if nextIndex w.getIndex = r.getIndex then k .capacity
    else
      .act (.store (slotsOf p) w.getIndex.val b) fun _ =>
        .act (.writeW p (nextIndex w.getIndex)) fun _ => k .ok

/-- `RING.DEQ p`: the slot, and last the index (40 R116, R117, 20_memory R64). Each index is read once, `p.w` first; the spec
says neither (log 35). -/
def Prog.deq (p : PoolId) (k : Result → Prog) : Prog :=
  .act (.readW p) fun w => .act (.readR p) fun r =>
    if w.getIndex = r.getIndex then k .underflow
    else
      .act (.load (slotsOf p) r.getIndex.val) fun b =>
        .act (.writeR p (nextIndex r.getIndex)) fun _ => k (.byte b.getByte)

/-- `n` dequeues in a row, with the bytes taken so far (the loop of 40 R118). None finds the pool empty (40 R119 item 4);
should one, the take has failed. -/
def Prog.deqN (p : PoolId) : Nat → List Byte → (Result → Prog) → Prog
  | 0, bs, k => k (.taken bs)
  | n + 1, bs, k =>
    Prog.deq p fun r =>
      match r with
      | .byte b => Prog.deqN p n (bs ++ [b]) k
      | _ => k .notTaken

/-- `RING.TAKEV p, n`: the check, then the dequeues (40 R118, 20_memory R61). -/
def Prog.takev (p : PoolId) (n : Nat) (k : Result → Prog) : Prog :=
  Prog.count p fun c => if c < n then k .notTaken else Prog.deqN p n [] k

/-! The operations -/

/-- `RING.INIT p` (40 R111). -/
def progRingInit (p : PoolId) (_ : Around) : Prog := .init p (.done .nothing)

/-- `RING.ISFULL p` (40 R112). -/
def progRingIsfull (p : PoolId) (_ : Around) : Prog := .isFull p fun b => .done (.bool b)

/-- `RING.COUNT p` (40 R113). -/
def progRingCount (p : PoolId) (_ : Around) : Prog := .count p fun n => .done (.count n)

/-- `RING.ENQ p, b` (40 R114, R115). -/
def progRingEnq (p : PoolId) (b : Byte) (_ : Around) : Prog := .enq p b .done

/-- `RING.DEQ p` (40 R116, R117). -/
def progRingDeq (p : PoolId) (_ : Around) : Prog := .deq p .done

/-- `RING.TAKEV p, n` (40 R118, R119). -/
def progRingTakev (p : PoolId) (n : Nat) (_ : Around) : Prog := .takev p n .done

/-- `RING.INIT p`, uninterrupted. -/
def execRingInit (p : PoolId) (s : State) : Out := s.performs s.runningCtx (progRingInit p)

/-- `RING.ISFULL p`, uninterrupted. -/
def execRingIsfull (p : PoolId) (s : State) : Out := s.performs s.runningCtx (progRingIsfull p)

/-- `RING.COUNT p`, uninterrupted. -/
def execRingCount (p : PoolId) (s : State) : Out := s.performs s.runningCtx (progRingCount p)

/-- `RING.ENQ p, b`, uninterrupted. -/
def execRingEnq (p : PoolId) (b : Byte) (s : State) : Out := s.performs s.runningCtx (progRingEnq p b)

/-- `RING.DEQ p`, uninterrupted. -/
def execRingDeq (p : PoolId) (s : State) : Out := s.performs s.runningCtx (progRingDeq p)

/-- `RING.TAKEV p, n`, uninterrupted. -/
def execRingTakev (p : PoolId) (n : Nat) (s : State) : Out := s.performs s.runningCtx (progRingTakev p n)

end Sys2Proof.Machine
end

