-- ==== Sys2Proof/Machine/Random.lean ====
section
/-! DEFINITION. Machine/Random.lean: the RandomSource operations (41_random_source). -/

namespace Sys2Proof.Machine

/-- Routing of one produced byte: `high` if it is not full, else `low` if it is not full, else dropped (41 R132). -/
def Prog.produce (b : Byte) (k : Prog) : Prog :=
  .isFull .high fun full =>
    if !full then .enq .high b fun _ => k
    else .isFull .low fun full => if !full then .enq .low b fun _ => k else k

/-- The RNG interrupt handler logic run by hand: it takes the waiting byte and routes it (41 R138, R139). Where a producer
is suspended below, the second one is refused (U6; log 24). -/
def Prog.pump (a : Around) (k : Prog) : Prog :=
  .act .readRngReady fun ready =>
    if !ready.getFlag then k
    else if a.producing then .refuse .secondProducer
    else .act .takeRng fun b => .produce b.getByte k

/-- One pass of the loop of `RS.GETLOB`: the take, or else the pump where the RNG interrupt cannot preempt the caller; then
`again` (41 R138, R139). -/
def Prog.getlobPass (a : Around) (n : Nat) (k : Result → Prog) (again : Prog) : Prog :=
  .takev .low n fun r =>
    match r with
    | .taken bs => k (.taken bs)
    | _ => if a.pumps then .pump a again else again

/-- `RS.INIT`: both pools, then the generator is started (41 R131, 70 R233). -/
def progRsInit (_ : Around) : Prog := .init .high (.init .low (.act .startRng fun _ => .done .nothing))

/-- `RS.PRODUCE b` (41 R132, R133). Where a producer is suspended below, this one is refused (U6; log 24). That a call before
`RS.INIT` has this effect too is the model's choice: the spec's rules hold after start-up (70 R232; log 23). -/
def progRsProduce (b : Byte) (a : Around) : Prog :=
  if a.producing then .refuse .secondProducer else .produce b (.done .nothing)

/-- `RS.GETHI n` (41 R134); before `RS.INIT` too (log 23). -/
def progRsGethi (n : Nat) (_ : Around) : Prog := .takev .high n .done

/-- `RS.GETLO n` (41 R135); before `RS.INIT` too (log 23). -/
def progRsGetlo (n : Nat) (_ : Around) : Prog := .takev .low n .done

/-- `RS.GETLOB n`: one pass of its loop; where the take fails, the operation goes on with another pass in a later step
(41 R138; log 25). Before `RS.INIT` too (log 23). -/
def progRsGetlob (n : Nat) (a : Around) : Prog := .getlobPass a n .done (.stay (.op (.rsGetlob n)))

/-- `RS.INIT`, uninterrupted. -/
def execRsInit (s : State) : Out := s.performs s.runningCtx progRsInit

/-- `RS.PRODUCE b`, uninterrupted. -/
def execRsProduce (b : Byte) (s : State) : Out := s.performs .irqRng (progRsProduce b)

/-- `RS.GETHI n`, uninterrupted. -/
def execRsGethi (n : Nat) (s : State) : Out := s.performs s.runningCtx (progRsGethi n)

/-- `RS.GETLO n`, uninterrupted. -/
def execRsGetlo (n : Nat) (s : State) : Out := s.performs s.runningCtx (progRsGetlo n)

/-- `RS.GETLOB n`, one pass of it, uninterrupted. -/
def execRsGetlob (n : Nat) (s : State) : Out := s.performs s.runningCtx (progRsGetlob n)

end Sys2Proof.Machine
end

