-- ==== Sys2Proof/Machine/Framer.lean ====
section
/-! DEFINITION. Machine/Framer.lean: the H4 Framer (42_h4_rx_framer): its eight transitions, each performed after the
event that took its request (42 R153), and the operations that start it and move it. -/

namespace Sys2Proof.Machine

/-- `Request(off, n)`, which ends the operation that issues it: `rx_req_valid` is written last (42 R151). -/
def Prog.request (off n : Nat) : Prog :=
  .act (.reqOff off) fun _ => .act (.reqLen n) fun _ => .act .reqGot fun _ => .act .reqValid fun _ => .done .nothing

/-- `rx_state <- x; Request(off, n)` (42 R163). -/
def Prog.await (x : RxState) (off n : Nat) : Prog := .act (.enter x) fun _ => .request off n

/-- The ingest call returned `status`: failure is fatal, success ends the transition with the request of the next type
byte (42 R152, R157, R159, R161, 60 R205). -/
def Prog.ingested (ty : Byte) (status : Nat) : Prog :=
  if status ≠ 0 then .fatal .controllerReject ty.toNat else .await .awaitingType 0 1

/-- A getter of the ingest code, where no consumer of its pool is suspended below; else it is refused (U6; log 24). -/
def Prog.ifSoleConsumer (a : Around) (p : PoolId) (k : Prog) : Prog :=
  if a.consuming p then .refuse .secondConsumer else k

/-- The ingest code calls its getters in `IRQ_RX`, in order, and then returns its status (42 R152, 60 R210). A blocking
getter that fails goes on in a later step. -/
def Prog.ingestCode (a : Around) (ty : Byte) (status : Nat) : List GetCall → Prog
  | [] => .ingested ty status
  | .high n :: calls =>
    .ifSoleConsumer a .high
      (.takev .high n fun r => .act (.gave r) fun _ => .ingestCode a ty status calls)
  | .low n :: calls =>
    .ifSoleConsumer a .low
      (.takev .low n fun r => .act (.gave r) fun _ => .ingestCode a ty status calls)
  | .lowBlocking n :: calls =>
    .ifSoleConsumer a .low
      (.getlobPass a n (fun r => .act (.gave r) fun _ => .ingestCode a ty status calls)
        (.stay (.ingest ty status (.lowBlocking n :: calls))))

/-- The transition waits for the ingest call: the controller's answer says what its ingest code does; without one the
transition goes on in a later step (42 R152, 60 R216; log 11). -/
def Prog.awaitAnswer (a : Around) (ty : Byte) : Prog :=
  .act .takeAnswer fun v =>
    match v.getAnswer with
    | none => .stay (.awaiting ty)
    | some x => .ingestCode a ty x.status x.calls

/-- `Deliver()` and the end of the transition that calls it: inspect the type byte again and route header and payload to
the controller (42 R152). -/
def Prog.deliver (a : Around) : Prog :=
  .act (.load .rxbuf 0) fun t =>
    if t.getByte = tCmd then
      .act (.load .rxbuf 3) fun l =>
        .act (.ingest .command (cmdHdr + cmdLength l.getByte)) fun _ => .awaitAnswer a tCmd
    else if t.getByte = tAcl then
      .act (.load .rxbuf 3) fun l => .act (.load .rxbuf 4) fun m =>
        .act (.ingest .data (aclHdr + aclLength l.getByte m.getByte)) fun _ => .awaitAnswer a tAcl
    else .fatal .unsupportedType t.getByte.toNat

/-- A payload request, or `F_RX_OVERLENGTH` when it would not fit (42 R158, R160, R162). -/
def Prog.requestPayload (a : Around) (off len : Nat) : Prog :=
  if off + len > a.cfg.rxbufSize then .fatal .rxOverlength len else .await .awaitingPayload off len

/-! The transitions -/

/-- `RX.TYPE.CMD` (42 R154). -/
def progRxTypeCmd (_ : Around) : Prog := .await .awaitingCmdHeader 1 cmdHdr

/-- `RX.TYPE.ACL` (42 R155). -/
def progRxTypeAcl (_ : Around) : Prog := .await .awaitingAclHeader 1 aclHdr

/-- `RX.TYPE.BAD`: always fatal; `rx_state` stays and no request is issued (42 R156, 60 R204). -/
def progRxTypeBad (t : Byte) (_ : Around) : Prog := .fatal .unsupportedType t.toNat

/-- `RX.CMDHDR.Z`: the frame is complete (42 R157). -/
def progRxCmdhdrZ (a : Around) : Prog := .deliver a

/-- `RX.CMDHDR.NZ`: the payload is requested at `CMD_PAYLOAD_OFF` (42 R158, R162). -/
def progRxCmdhdrNz (l : Byte) (a : Around) : Prog := .requestPayload a cmdPayloadOff (cmdLength l)

/-- `RX.ACLHDR.Z`: the frame is complete (42 R159). -/
def progRxAclhdrZ (a : Around) : Prog := .deliver a

/-- `RX.ACLHDR.NZ`: the payload is requested at `ACL_PAYLOAD_OFF` (42 R160, R162). -/
def progRxAclhdrNz (l m : Byte) (a : Around) : Prog := .requestPayload a aclPayloadOff (aclLength l m)

/-- `RX.PAYLOAD`: the frame is complete (42 R161). -/
def progRxPayload (a : Around) : Prog := .deliver a

/-! The operations -/

/-- The transition of an RX-complete: the case on `rx_state`, then the tests of its rows (42 R153). -/
def Prog.transition (a : Around) : Prog :=
  .act .readRxState fun x =>
    match x.getRxState with
    | .awaitingType =>
      .act (.load .rxbuf 0) fun t =>
        if t.getByte = tCmd then progRxTypeCmd a
        else if t.getByte = tAcl then progRxTypeAcl a
        else progRxTypeBad t.getByte a
    | .awaitingCmdHeader =>
      .act (.load .rxbuf 3) fun l =>
        if l.getByte = 0#8 then progRxCmdhdrZ a else progRxCmdhdrNz l.getByte a
    | .awaitingAclHeader =>
      .act (.load .rxbuf 3) fun l => .act (.load .rxbuf 4) fun m =>
        if l.getByte = 0#8 ∧ m.getByte = 0#8 then progRxAclhdrZ a else progRxAclhdrNz l.getByte m.getByte a
    | .awaitingPayload => progRxPayload a

/-- What follows the arrival of bytes: nothing, or a transition, or there was no such event (42 R153, R165; log 15). -/
def Prog.received (a : Around) (v : Val) : Prog :=
  match v.getReceipt with
  | .noEvent => .refuse .noSuchEvent
  | .stored => .done .nothing
  | .filled => .transition a

/-- `RX.START` (42 R150). -/
def progRxStart (_ : Around) : Prog :=
  .act .begin fun again => if again.getFlag then .done .nothing else .request 0 1

/-- `RX.COMPLETE` with the bytes of the request (42 R153; log 16). -/
def progRxComplete (bs : List Byte) (a : Around) : Prog := .act (.completeRequest bs) (.received a)

/-- `RX.BYTE b` (42 R165). -/
def progRxByte (b : Byte) (a : Around) : Prog := .act (.storeByte b) (.received a)

/-- `RX.TYPE.CMD`, uninterrupted. -/
def execRxTypeCmd (s : State) : Out := s.performs .irqRx progRxTypeCmd

/-- `RX.TYPE.ACL`, uninterrupted. -/
def execRxTypeAcl (s : State) : Out := s.performs .irqRx progRxTypeAcl

/-- `RX.TYPE.BAD`, uninterrupted. -/
def execRxTypeBad (t : Byte) (s : State) : Out := s.performs .irqRx (progRxTypeBad t)

/-- `RX.CMDHDR.Z`, uninterrupted. -/
def execRxCmdhdrZ (s : State) : Out := s.performs .irqRx progRxCmdhdrZ

/-- `RX.CMDHDR.NZ`, uninterrupted. -/
def execRxCmdhdrNz (l : Byte) (s : State) : Out := s.performs .irqRx (progRxCmdhdrNz l)

/-- `RX.ACLHDR.Z`, uninterrupted. -/
def execRxAclhdrZ (s : State) : Out := s.performs .irqRx progRxAclhdrZ

/-- `RX.ACLHDR.NZ`, uninterrupted. -/
def execRxAclhdrNz (l m : Byte) (s : State) : Out := s.performs .irqRx (progRxAclhdrNz l m)

/-- `RX.PAYLOAD`, uninterrupted. -/
def execRxPayload (s : State) : Out := s.performs .irqRx progRxPayload

/-- `RX.START`, uninterrupted. -/
def execRxStart (s : State) : Out := s.performs s.runningCtx progRxStart

/-- `RX.COMPLETE`, uninterrupted. -/
def execRxComplete (bs : List Byte) (s : State) : Out := s.performs .irqRx (progRxComplete bs)

/-- `RX.BYTE b`, uninterrupted. -/
def execRxByte (b : Byte) (s : State) : Out := s.performs .irqRx (progRxByte b)

end Sys2Proof.Machine
end

