-- ==== Sys2Proof/Machine/Mux.lean ====
section
/-! DEFINITION. Machine/Mux.lean: the H4 Multiplexer (43_h4_tx_mux). -/

namespace Sys2Proof.Machine

/-- A frame of kind `k` that fits is sent: the type byte, `tx_idle`, `tx_len`, then the issue (43 R181, R184, 20_memory
R69). -/
def Prog.send (k : TxKind) (n : Nat) : Prog :=
  .act (.store .txbuf 0 k.typeByte) fun _ => .act (.setTxIdle false) fun _ => .act (.setTxLen n) fun _ =>
    .act (.uartTx n) fun _ => .done .nothing

/-- `TX.POLL` (43 R181 to R185, R187). -/
def progTxPoll (a : Around) : Prog :=
  .act .readTxIdle fun idle =>
    if !idle.getFlag then .done .nothing
    else
      .act .readTxLast fun last =>
        .act (.pull (txKind last.getFlag)) fun len =>
          .act (.noteKind (txKind last.getFlag)) fun _ =>
            if len.getLength = 0 then .done .nothing
            else if 1 + len.getLength > a.cfg.txbufSize then .fatal .txOverlength len.getLength
            else .send (txKind last.getFlag) (1 + len.getLength)

/-- `TX.COMPLETE` (43 R186). With no transmission for it there is no such event (D22; log 15). -/
def progTxComplete (_ : Around) : Prog :=
  .act .takeTxEvent fun event =>
    if event.getFlag then .act (.setTxIdle true) fun _ => .done .nothing else .refuse .noSuchEvent

/-- `TX.POLL`, uninterrupted. -/
def execTxPoll (s : State) : Out := s.performs s.runningCtx progTxPoll

/-- `TX.COMPLETE`, uninterrupted. -/
def execTxComplete (s : State) : Out := s.performs .irqTx progTxComplete

end Sys2Proof.Machine
end

