-- ==== Sys2Proof/Machine/Calls.lean ====
section
/-! DEFINITION. Machine/Calls.lean: the program of every operation and of every call in progress, for what is performed in
parts (20_memory R62). -/

namespace Sys2Proof.Machine

/-- The program of an operation: the one its meaning runs. -/
def Instr.prog (i : Instr) (a : Around) : Prog :=
  match i with
  | .rxTypeCmd => progRxTypeCmd a
  | .rxTypeAcl => progRxTypeAcl a
  | .rxTypeBad t => progRxTypeBad t a
  | .rxCmdhdrZ _ _ => progRxCmdhdrZ a
  | .rxCmdhdrNz _ _ l => progRxCmdhdrNz l a
  | .rxAclhdrZ _ _ => progRxAclhdrZ a
  | .rxAclhdrNz _ _ l m => progRxAclhdrNz l m a
  | .rxPayload => progRxPayload a
  | .ringInit p => progRingInit p a
  | .ringIsfull p => progRingIsfull p a
  | .ringCount p => progRingCount p a
  | .ringEnq p b => progRingEnq p b a
  | .ringDeq p => progRingDeq p a
  | .ringTakev p n => progRingTakev p n a
  | .rsInit => progRsInit a
  | .rsProduce b => progRsProduce b a
  | .rsGethi n => progRsGethi n a
  | .rsGetlo n => progRsGetlo n a
  | .rsGetlob n => progRsGetlob n a
  | .rxStart => progRxStart a
  | .rxComplete bs => progRxComplete bs a
  | .rxByte b => progRxByte b a
  | .txPoll => progTxPoll a
  | .txComplete => progTxComplete a

/-- The program of a call in progress. -/
def Call.prog (c : Call) (a : Around) : Prog :=
  match c with
  | .op i => Instr.prog i a
  | .awaiting ty => .awaitAnswer a ty
  | .ingest ty status calls => .ingestCode a ty status calls

end Sys2Proof.Machine
end

