-- ==== Sys2Proof/Machine/Dispatch.lean ====
section
/-! DEFINITION. Machine/Dispatch.lean: one arm per constructor of `Instr`, each one call of its meaning. -/

namespace Sys2Proof.Machine

def exec (i : Instr) (s : State) : Host.Outcome State Fault Refusal :=
  match i with
  | .rxTypeCmd => Sys2Proof.Machine.execRxTypeCmd s
  | .rxTypeAcl => Sys2Proof.Machine.execRxTypeAcl s
  | .rxTypeBad t => Sys2Proof.Machine.execRxTypeBad t s
  | .rxCmdhdrZ _ _ => Sys2Proof.Machine.execRxCmdhdrZ s
  | .rxCmdhdrNz _ _ l => Sys2Proof.Machine.execRxCmdhdrNz l s
  | .rxAclhdrZ _ _ => Sys2Proof.Machine.execRxAclhdrZ s
  | .rxAclhdrNz _ _ l m => Sys2Proof.Machine.execRxAclhdrNz l m s
  | .rxPayload => Sys2Proof.Machine.execRxPayload s
  | .ringInit p => Sys2Proof.Machine.execRingInit p s
  | .ringIsfull p => Sys2Proof.Machine.execRingIsfull p s
  | .ringCount p => Sys2Proof.Machine.execRingCount p s
  | .ringEnq p b => Sys2Proof.Machine.execRingEnq p b s
  | .ringDeq p => Sys2Proof.Machine.execRingDeq p s
  | .ringTakev p n => Sys2Proof.Machine.execRingTakev p n s
  | .rsInit => Sys2Proof.Machine.execRsInit s
  | .rsProduce b => Sys2Proof.Machine.execRsProduce b s
  | .rsGethi n => Sys2Proof.Machine.execRsGethi n s
  | .rsGetlo n => Sys2Proof.Machine.execRsGetlo n s
  | .rsGetlob n => Sys2Proof.Machine.execRsGetlob n s
  | .rxStart => Sys2Proof.Machine.execRxStart s
  | .rxComplete bs => Sys2Proof.Machine.execRxComplete bs s
  | .rxByte b => Sys2Proof.Machine.execRxByte b s
  | .txPoll => Sys2Proof.Machine.execTxPoll s
  | .txComplete => Sys2Proof.Machine.execTxComplete s

end Sys2Proof.Machine
end

