-- ==== Sys2Proof/Machine/Fetch.lean ====
section
/-! DEFINITION. Machine/Fetch.lean: what happens in a step. First the platform does what the schedule says (log 3); then the
most urgent pending interrupt that can preempt the running context is taken (60 R211 to R214); else the activation on top
goes on (20_memory R62, 60 R220); else the next operation of the script is fetched (30_encoding R96). -/

namespace Sys2Proof.Machine

/-! The platform (10_state R42) -/

/-- The UART stores the next byte of the line, when a request waits for it; else the byte stays on the line (D15). -/
def State.uartRxTick (s : State) : Out :=
  if !s.halted && s.rxReqValid && decide (s.rxGot < s.rxReqLen) then
    match s.rxLine with
    | [] => .next s
    | b :: rest =>
      match State.storeRx { s with rxLine := rest } [b] with
      | none => .fault (.noSuchByte .rxbuf)
      | some s' => .next s'
  else .next s

/-- The transmission in flight sends its last byte, and TX-complete is pending (60 R212). -/
def State.uartTxTick (s : State) : State := if s.txFlight then { s with txFlight := false, txDone := true } else s

/-- The RNG produces its next byte, if it is started and the last one has been taken (60 R213, R218; log 21). -/
def State.rngTick (s : State) : State :=
  if s.rsStarted && !s.rngReady then
    match s.rngLine with
    | [] => s
    | b :: rest => { s with rngReady := true, rngData := b, rngLine := rest }
  else s

/-- One platform event. -/
def State.platform (s : State) : PlatEvent → Out
  | .quiet => .next s
  | .uartRx => s.uartRxTick
  | .uartTx => .next s.uartTxTick
  | .rngByte => .next s.rngTick
  | .initFailure info => .next (s.raiseFatal .platformInit info)

/-- Platform events, one after another. -/
def platformAll : List PlatEvent → State → Out
  | [], s => .next s
  | e :: es, s =>
    match s.platform e with
    | .next t => platformAll es t
    | .fault f => .fault f
    | .refused r => .refused r

/-- The entry of the schedule for the next step; with none the platform is quiet and nothing is cut. -/
def State.slot (s : State) : Slot := s.sched.headD ⟨[], none⟩

/-- The events of the next entry of the schedule happen. -/
def State.platformTick (s : State) : Out := platformAll s.slot.events { s with sched := s.sched.tail }

/-! Interrupts (60_exceptions R211 to R214) -/

/-- The most urgent of some interrupts (60 R214). -/
def Config.mostUrgent (c : Config) : List Ctx → Option Ctx
  | [] => none
  | x :: rest =>
    match Config.mostUrgent c rest with
    | none => some x
    | some y => if Config.prio c x ≤ Config.prio c y then some x else some y

/-- Whether an interrupt is pending. -/
def State.pending (s : State) : Ctx → Bool
  | .main => false
  | .irqRx => s.rxPending
  | .irqTx => s.txPending
  | .irqRng => s.rngPending

/-- The interrupt to take: the most urgent pending one that can preempt the running context (60 R214). -/
def State.nextIrq (s : State) : Option Ctx :=
  Config.mostUrgent s.cfg
    ([Ctx.irqRx, Ctx.irqTx, Ctx.irqRng].filter fun y => s.pending y && Config.canPreempt s.cfg y s.runningCtx)

/-! Starting and going on (20_memory R62) -/

/-- An operation starts on top of what is in progress: uninterrupted, or cut after `k + 1` micro-steps. -/
def State.launch (s : State) (i : Instr) : Option Nat → Out
  | none => exec i s
  | some k =>
    let c := Instr.context i s.runningCtx
    Prog.runFor (k + 1) ⟨c, .op i, []⟩ (Instr.prog i (s.around c)) s

/-- The activation `a`, taken off the stack, goes on where it was, to its end or cut after `k + 1` micro-steps. -/
def State.proceed (s : State) (a : Activation) : Option Nat → Out
  | none => ((Call.prog a.call (s.around a.ctx)).after a.seen).run a.ctx s
  | some k => Prog.runFor (k + 1) a ((Call.prog a.call (s.around a.ctx)).after a.seen) s

/-- The handler of an interrupt: RX-complete runs `RX.COMPLETE`, all of whose bytes are stored, TX-complete runs
`TX.COMPLETE`, RNG value-ready takes the byte and runs `RS.PRODUCE` (60 R211 to R213). -/
def State.handle (s : State) (y : Ctx) (cut : Option Nat) : Out :=
  match y with
  | .main => .next s
  | .irqRx => s.launch (.rxComplete []) cut
  | .irqTx => s.launch .txComplete cut
  | .irqRng => s.takeRngByte.launch (.rsProduce s.rngData) cut

/-- The script's next operation starts, if there is one; it leaves the script. -/
def State.fetchScript (s : State) (cut : Option Nat) : Out :=
  if s.script.isEmpty then .next s
  else
    match decode (.script s.rxReqLen) s.script with
    | .ok (i, rest) => State.launch { s with script := rest } i cut
    | .error e => .refused (.badScript e)

/-- What runs next, up to its end or its cut. After a fatal condition nothing does (60 R203, log 17). -/
def State.advance (s : State) (cut : Option Nat) : Out :=
  if s.halted then .next s
  else
    match s.nextIrq with
    | some y => s.handle y cut
    | none =>
      match s.stack with
      | a :: below => State.proceed { s with stack := below } a cut
      | [] => s.fetchScript cut

/-! Placing a table word (log 27) -/

/-- No interrupt is pending, nothing is in progress, the platform is quiet for one step, which nothing cuts, the block is
not halted: the next step runs the script's next operation. -/
def State.settled (s : State) : State :=
  { s with
    sched := if s.sched.isEmpty then [] else ⟨[], none⟩ :: s.sched
    halted := false
    stack := []
    rxReqValid := s.rxReqValid && s.rxGot != s.rxReqLen
    txDone := false
    rngReady := false }

/-- A framer transition placed for the next step: the receive state, the frame's bytes in `RXBUF`, and its request filled,
with the main loop running. -/
def State.placeFrame (s : State) (st : RxState) (bytes : List Byte) (off len : Nat) : State :=
  { s.settled with
    ctx := .main
    rxState := st
    rxbuf := Memory.writeN s.rxbuf 0 bytes
    rxReqValid := true
    rxReqOff := off
    rxReqLen := len
    rxGot := len }

/-- What an event operation takes to exist (D22): for `RX.COMPLETE` and `RX.BYTE` a request that waits for bytes, the one
outstanding or else the first one, `(0, 1)` (42 R150); for `TX.COMPLETE` a transmission in flight. -/
def State.withEvent (s : State) (bytes : List Byte) : State :=
  if bytes = [0x31#8] ∨ bytes = [0x32#8] then
    if s.rxReqValid && decide (0 < s.rxReqLen) then { s with rxGot := 0 }
    else { s with rxReqValid := true, rxReqOff := 0, rxReqLen := 1, rxGot := 0 }
  else if bytes = [0x41#8] then { s with txIdle := false, txFlight := true }
  else s

/-- A table word placed where the next step fetches: an operation at the head of the script, with operand bytes of zero; a
transition in the framer (log 27). -/
def State.placeWord (s : State) (nbits w : Nat) : State :=
  let bytes := wordBytes (nbits / 8) w
  match tableSource nbits bytes with
  | some (.framer .awaitingType) => s.placeFrame .awaitingType bytes 0 1
  | some (.framer .awaitingCmdHeader) => s.placeFrame .awaitingCmdHeader bytes 1 cmdHdr
  | some (.framer .awaitingAclHeader) => s.placeFrame .awaitingAclHeader bytes 1 aclHdr
  | some (.framer .awaitingPayload) => s.placeFrame .awaitingPayload [] s.rxReqOff s.rxReqLen
  | some (.script _) | none =>
    let t := s.settled.withEvent bytes
    { t with script := bytes ++ List.replicate (if bytes = [0x31#8] then t.rxReqLen else 2) 0#8 ++ t.script }

end Sys2Proof.Machine
end

