-- ==== Sys2Proof/Machine/Step.lean ====
section
/-! DEFINITION. Machine/Step.lean: one step, and the placing of a word where the next step fetches it. -/

namespace Sys2Proof.Machine

/-- One step: the platform's events, then what runs next, up to its end or to where the schedule cuts it. -/
def step (s : State) : Host.Outcome State Fault Refusal :=
  match s.platformTick with
  | .next t => t.advance s.slot.cut
  | .fault f => .fault f
  | .refused r => .refused r

/-- The word placed so that the very next step fetches and runs it (log 27). -/
def State.withFetchWord (s : State) (nbits w : Nat) : State := s.placeWord nbits w

end Sys2Proof.Machine
end

