-- ==== Sys2Proof/Safety.lean ====
section
/-! DEFINITION. Safety.lean: the terms in which claims about the machine are stated: the bytes a pool holds, the shape of
the framer's sequencer (10_state R29), the conditions that hold in every reachable state, and runs of operations. -/

namespace Sys2Proof.Machine

/-- The unread bytes of a pool in FIFO order: the `i`-th is in slot `(p.r + i) mod S`, for `i < count(p)` (10_state R21,
40 R110). -/
def RingPool.unread (p : RingPool) : List Byte :=
  (List.range p.count).map fun i => Memory.read p.slots (slotAfter p.r i).val

/-- A pool's slots are in canonical form and lie in its 65 offsets. -/
abbrev RingPool.Wf (p : RingPool) : Prop := Memory.Wf p.slots ∧ Memory.Within p.slots ringS

/-- The four byte spaces are in canonical form and list only offsets that exist (20_memory R50). -/
structure State.MemoryWf (s : State) : Prop where
  high : s.high.Wf
  low : s.low.Wf
  rxbuf : Memory.Wf s.rxbuf
  rxbufWithin : Memory.Within s.rxbuf s.cfg.rxbufSize
  txbuf : Memory.Wf s.txbuf
  txbufWithin : Memory.Within s.txbuf s.cfg.txbufSize

/-- The triple `(rx_state, rx_req_off, rx_req_len)` and the bytes of `RXBUF` it goes with (10_state R29, 30_encoding
section 4). -/
def State.SequencerShape (s : State) : Prop :=
  match s.rxState with
  | .awaitingType => s.rxReqOff = 0 ∧ s.rxReqLen = 1
  | .awaitingCmdHeader => s.rxReqOff = 1 ∧ s.rxReqLen = cmdHdr ∧ Memory.read s.rxbuf 0 = tCmd
  | .awaitingAclHeader => s.rxReqOff = 1 ∧ s.rxReqLen = aclHdr ∧ Memory.read s.rxbuf 0 = tAcl
  | .awaitingPayload =>
    (s.rxReqOff = cmdPayloadOff ∧ 1 ≤ s.rxReqLen ∧ s.rxReqLen ≤ 255 ∧ Memory.read s.rxbuf 0 = tCmd ∧
      cmdLength (Memory.read s.rxbuf 3) = s.rxReqLen) ∨
    (s.rxReqOff = aclPayloadOff ∧ 1 ≤ s.rxReqLen ∧ s.rxReqLen ≤ 65535 ∧ Memory.read s.rxbuf 0 = tAcl ∧
      aclLength (Memory.read s.rxbuf 3) (Memory.read s.rxbuf 4) = s.rxReqLen)

/-- The framer between its operations: with a request outstanding the sequencer has its shape, the request fits `RXBUF`
and is filled at most once (10_state R29, R30); with none, `RX.START` has not run (10_state R31). -/
structure State.FramerOk (s : State) : Prop where
  shape : s.rxReqValid = true → s.SequencerShape
  got : s.rxReqValid = true → s.rxGot ≤ s.rxReqLen
  fits : s.rxReqValid = true → s.rxReqOff + s.rxReqLen ≤ s.cfg.rxbufSize
  quiet : s.rxReqValid = false → s.rxState = .awaitingType

/-- The multiplexer between its operations: the path is busy exactly while a transmission is in flight or its event is
pending, never both; a transmission's length fits `TXBUF` and its type byte is one the block generates (10_state R34, R36,
30_encoding R82, 60 R212). -/
structure State.MuxOk (s : State) : Prop where
  busy : s.txIdle = false ↔ s.txFlight = true ∨ s.txDone = true
  single : ¬ (s.txFlight = true ∧ s.txDone = true)
  length : s.txIdle = false → 2 ≤ s.txLen ∧ s.txLen ≤ s.cfg.txbufSize
  typeByte : s.txIdle = false → Memory.read s.txbuf 0 = tEvt ∨ Memory.read s.txbuf 0 = tAcl

/-- The fault latch: no fault is code 0 and information 0; a fault is one of the codes 1 to 5 (60 R201, 10_state R40). -/
structure State.LatchOk (s : State) : Prop where
  clear : s.halted = false → s.faultCode = 0 ∧ s.faultInfo = 0
  set : s.halted = true → 1 ≤ s.faultCode ∧ s.faultCode ≤ 5

/-- The registers and the buffer of the framer are the same (10_state R27 to R30). -/
structure SameFramer (s t : State) : Prop where
  rxState : t.rxState = s.rxState
  rxReqValid : t.rxReqValid = s.rxReqValid
  rxReqOff : t.rxReqOff = s.rxReqOff
  rxReqLen : t.rxReqLen = s.rxReqLen
  rxGot : t.rxGot = s.rxGot
  rxbuf : t.rxbuf = s.rxbuf
  delivered : t.delivered = s.delivered

/-- The registers and the buffer of the multiplexer are the same (10_state R33 to R36). -/
structure SameMux (s t : State) : Prop where
  txLastEvt : t.txLastEvt = s.txLastEvt
  txIdle : t.txIdle = s.txIdle
  txLen : t.txLen = s.txLen
  txbuf : t.txbuf = s.txbuf
  sent : t.sent = s.sent

/-- RandomSource and both pools are the same (10_state R20 to R26). -/
structure SameRandom (s t : State) : Prop where
  high : t.high = s.high
  low : t.low = s.low
  rsStarted : t.rsStarted = s.rsStarted

/-- The fault latch is the same (10_state R38). -/
structure SameLatch (s t : State) : Prop where
  halted : t.halted = s.halted
  faultCode : t.faultCode = s.faultCode
  faultInfo : t.faultInfo = s.faultInfo

/-- The two units whose operations are in progress one at a time; the pools have a producer beside a consumer. -/
inductive Part where
  | pools
  | framer
  | mux
  deriving DecidableEq, Repr

/-- The unit an operation belongs to (00_scope R11). -/
def Instr.part (i : Instr) : Part :=
  match i with
  | .rxTypeCmd | .rxTypeAcl | .rxTypeBad _ | .rxCmdhdrZ _ _ | .rxCmdhdrNz _ _ _ | .rxAclhdrZ _ _
  | .rxAclhdrNz _ _ _ _ | .rxPayload | .rxStart | .rxComplete _ | .rxByte _ => .framer
  | .txPoll | .txComplete => .mux
  | .ringInit _ | .ringIsfull _ | .ringCount _ | .ringEnq _ _ | .ringDeq _ | .ringTakev _ _ | .rsInit | .rsProduce _
  | .rsGethi _ | .rsGetlo _ | .rsGetlob _ => .pools

/-- The unit a call belongs to. -/
def Call.part : Call → Part
  | .op i => Instr.part i
  | .awaiting _ => .framer
  | .ingest _ _ _ => .framer

/-- Framer registers and buffer as another unit's operations, and configuration, leave them. -/
def FramerSeen (s u : State) : Prop := SameFramer s u ∧ u.cfg = s.cfg

/-- Multiplexer registers and buffer, the transmission in flight, and configuration, as another unit's operations leave
them. -/
def MuxSeen (s u : State) : Prop :=
  SameMux s u ∧ u.txFlight = s.txFlight ∧ u.txDone = s.txDone ∧ u.cfg = s.cfg

/-- What is left of an operation of a unit, in a state in which it is suspended: whatever the other units do before each
of its micro-steps (`same`), every micro-step exists and, like a raise, finds no event of the unit pending (`busy`), and
where the operation returns the unit is as it is between operations (`good`), or it waits as the call `c` with `wait c`. -/
def Prog.OnWay (same : State → State → Prop) (busy good : State → Prop) (wait : Call → State → Prop) :
    Prog → State → Prop
  | .done _, s => good s
  | .fatal _ _, s => busy s
  | .refuse _, _ => True
  | .stay c, s => busy s ∧ wait c s
  | .act m k, s =>
    busy s ∧ ∀ u, same s u → ∃ v t, u.perform m = .ok (v, t) ∧ Prog.OnWay same busy good wait (k v) t

/-- An ingest call in progress is of a Command or an ACL-Data frame, the one in `RXBUF` (42 R152). -/
def IngestOk (c : Call) (s : State) : Prop :=
  match c with
  | .op _ => False
  | .awaiting ty => (ty = tCmd ∨ ty = tAcl) ∧ Memory.read s.rxbuf 0 = ty
  | .ingest ty _ _ => (ty = tCmd ∨ ty = tAcl) ∧ Memory.read s.rxbuf 0 = ty

/-- What is left of an activation, with `below` under it on the stack. -/
def Activation.rest (a : Activation) (cfg : Config) (below : List Activation) : Prog :=
  (Call.prog a.call ⟨cfg, a.ctx, below⟩).after a.seen

/-- A framer operation in progress: no request is outstanding until its last micro-step (10_state R29, 42 R163). -/
def State.FramerBusy (s : State) (p : Prog) : Prop :=
  p.OnWay FramerSeen (fun s => s.rxReqValid = false) State.FramerOk IngestOk s

/-- A multiplexer operation in progress: no transmission is in flight until its last micro-step (43 R189, 20_memory
R69). -/
def State.MuxBusy (s : State) (p : Prog) : Prop :=
  p.OnWay MuxSeen (fun s => s.txFlight = false ∧ s.txDone = false) State.MuxOk (fun _ _ => False) s

/-- No operation of a unit is in progress. -/
def State.NoneOf (s : State) (p : Part) : Prop := ∀ a ∈ s.stack, Call.part a.call ≠ p

/-- Contexts nest by urgency: what preempted is an interrupt strictly more urgent than all it preempted (20_memory R62,
60 R214, R220). -/
def State.Nested (s : State) : Prop :=
  s.stack.Pairwise fun a b => a.ctx ≠ .main ∧ Config.canPreempt s.cfg a.ctx b.ctx = true

/-- At most one operation of the framer and one of the multiplexer is in progress (10_state R32, 70 R244). -/
def State.OneEach (s : State) : Prop :=
  s.stack.Pairwise fun a b => Call.part a.call = Call.part b.call → Call.part a.call = .pools

/-- What holds in every reachable state. After a fatal condition only the byte spaces, the latch and the order of what
stays suspended are spoken of (60 R203). -/
structure State.Inv (s : State) : Prop where
  memory : s.MemoryWf
  latch : s.LatchOk
  random : s.rngReady = true → s.rsStarted = true
  nested : s.Nested
  oneEach : s.OneEach
  framer : s.halted = false → s.NoneOf .framer → s.FramerOk
  framing : s.halted = false → ∀ a below, a :: below <:+ s.stack → Call.part a.call = .framer →
    s.rxReqValid = false ∧ s.FramerBusy (a.rest s.cfg below)
  mux : s.halted = false → s.NoneOf .mux → s.MuxOk
  muxing : s.halted = false → ∀ a below, a :: below <:+ s.stack → Call.part a.call = .mux →
    (s.txFlight = false ∧ s.txDone = false) ∧ s.MuxBusy (a.rest s.cfg below)

/-- The framer waits for a type byte with nothing of it stored yet: `(AwaitingType, 0, 1)` (10_state R29). -/
structure State.AtFrameStart (s : State) : Prop where
  running : s.halted = false
  rxState : s.rxState = .awaitingType
  rxReqValid : s.rxReqValid = true
  rxReqOff : s.rxReqOff = 0
  rxReqLen : s.rxReqLen = 1
  rxGot : s.rxGot = 0

/-- An inbound frame (30_encoding R83, R85), with its header bytes and payload. -/
inductive H4Frame where
  | command (g o : Byte) (payload : List Byte)
  | aclData (h0 h1 : Byte) (payload : List Byte)
  deriving DecidableEq, Repr

/-- The bytes of a frame on the wire: type byte, header, payload (30_encoding R80, R83, R85). -/
def H4Frame.bytes : H4Frame → List Byte
  | .command g o payload => [tCmd, g, o, BitVec.ofNat 8 payload.length] ++ payload
  | .aclData h0 h1 payload =>
    [tAcl, h0, h1, BitVec.ofNat 8 payload.length, BitVec.ofNat 8 (payload.length / 256)] ++ payload

/-- The length field holds the payload's length, and the frame fits a buffer of `size` bytes (30_encoding R90, 42 R162). -/
def H4Frame.fits (size : Nat) : H4Frame → Prop
  | .command _ _ payload => payload.length ≤ 255 ∧ cmdPayloadOff + payload.length ≤ size
  | .aclData _ _ payload => payload.length ≤ 65535 ∧ aclPayloadOff + payload.length ≤ size

/-- The ingest call a frame leads to: header and payload, without the type byte (42 R152). -/
def H4Frame.delivery : H4Frame → Delivery
  | .command g o payload => ⟨.command, [g, o, BitVec.ofNat 8 payload.length] ++ payload⟩
  | .aclData h0 h1 payload =>
    ⟨.data, [h0, h1, BitVec.ofNat 8 payload.length, BitVec.ofNat 8 (payload.length / 256)] ++ payload⟩

/-- The transitions that deliver a frame (42 R157, R159, R161). -/
def Instr.delivers (i : Instr) : Bool :=
  match i with
  | .rxCmdhdrZ _ _ | .rxAclhdrZ _ _ | .rxPayload => true
  | .rxTypeCmd | .rxTypeAcl | .rxTypeBad _ | .rxCmdhdrNz _ _ _ | .rxAclhdrNz _ _ _ _ | .rxStart | .rxComplete _
  | .rxByte _ | .ringInit _ | .ringIsfull _ | .ringCount _ | .ringEnq _ _ | .ringDeq _ | .ringTakev _ _ | .rsInit
  | .rsProduce _ | .rsGethi _ | .rsGetlo _ | .rsGetlob _ | .txPoll | .txComplete => false

/-- The frame in `RXBUF` has type byte `ty`, lies in the buffer, and is delivered as `d`: header and payload, from the byte
after the type byte on (42 R152, 20_memory R57). -/
def State.Holds (s : State) (ty : Byte) (d : Delivery) : Prop :=
  Memory.read s.rxbuf 0 = ty ∧
    ((ty = tCmd ∧ 4 + (Memory.read s.rxbuf 3).toNat ≤ s.cfg.rxbufSize ∧
        d = ⟨.command, Memory.readN s.rxbuf 1 (3 + (Memory.read s.rxbuf 3).toNat)⟩) ∨
      (ty = tAcl ∧
        5 + ((Memory.read s.rxbuf 3).toNat + 256 * (Memory.read s.rxbuf 4).toNat) ≤ s.cfg.rxbufSize ∧
        d = ⟨.data, Memory.readN s.rxbuf 1
          (4 + ((Memory.read s.rxbuf 3).toNat + 256 * (Memory.read s.rxbuf 4).toNat))⟩))

/-- The pool a getter takes from (41 R134, R135, R138). -/
def GetCall.pool : GetCall → PoolId
  | .high _ => .high
  | .low _ => .low
  | .lowBlocking _ => .low

/-- The bytes a getter asks for. -/
def GetCall.amount : GetCall → Nat
  | .high n => n
  | .low n => n
  | .lowBlocking n => n

/-- A call that is inside `RS.GETLOB n`: the operation itself, or ingest code that has called it (41 R138). -/
def Call.insideGetlob (n : Nat) : Call → Prop
  | .op i => i = .rsGetlob n
  | .awaiting _ => False
  | .ingest _ _ calls => ∃ rest, calls = .lowBlocking n :: rest

/-- The operations of a list performed one after another; it ends where one of them gives no next state. -/
def runOps : List Instr → State → Out
  | [], s => .next s
  | i :: is, s =>
    match exec i s with
    | .next t => runOps is t
    | .fault f => .fault f
    | .refused r => .refused r

/-- `k` steps. -/
def runSteps : Nat → State → Out
  | 0, s => .next s
  | k + 1, s =>
    match step s with
    | .next t => runSteps k t
    | .fault f => .fault f
    | .refused r => .refused r

/-- An operation of the producer or the consumer of pool `p`. -/
def usesPool (p : PoolId) : Instr → Bool
  | .ringEnq q _ => q == p
  | .ringDeq q => q == p
  | .ringTakev q _ => q == p
  | _ => false

/-- The byte an operation put into its pool, by its result. -/
def accepted : Instr → Result → List Byte
  | .ringEnq _ b, .ok => [b]
  | _, _ => []

/-- The bytes an operation took from its pool, by its result. -/
def returned : Instr → Result → List Byte
  | .ringDeq _, .byte b => [b]
  | .ringTakev _ _, .taken bs => bs
  | _, _ => []

/-- A run of operations with the bytes accepted and the bytes returned, in order (40 R120); none where one gives no next
state. -/
def poolRun : List Instr → State → Option (List Byte × List Byte × State)
  | [], s => some ([], [], s)
  | i :: is, s =>
    match exec i s with
    | .next t =>
      match poolRun is t with
      | some (a, r, u) => some (accepted i t.result ++ a, returned i t.result ++ r, u)
      | none => none
    | _ => none

/-- The sequences transmitted when both classes always have a frame pending, the first of kind Event or Data (43 R188). -/
def alternating : TxKind → List (List Byte) → List (List Byte) → Nat → List (List Byte)
  | .event, e :: es, ds, n + 1 => (tEvt :: e) :: alternating .data es ds n
  | .data, es, d :: ds, n + 1 => (tAcl :: d) :: alternating .event es ds n
  | _, _, _, _ => []

/-- The controller's answers that offer these frames. -/
def offers : List (List Byte) → List PullAnswer
  | [] => []
  | [] :: fs => .nothing [] :: offers fs
  | (b :: bs) :: fs => .frame b bs :: offers fs

end Sys2Proof.Machine
end

