-- ==== Sys2Proof/Certificates/Slice0/Obligations.lean ====
section
/-! DEFINITION. Certificates/Slice0/Obligations.lean: the statements about the model. Each docstring cites the rule of
spec/ it formalises. A conclusion `exec i s = .next { s with … }` says the instruction completes, what it changes, and that
every other register, flag, buffer, input and output of the machine is as it was. -/

open Sys2Proof Sys2Proof.Machine

/-! ## RingPool -/

/-- `RING.INIT p` sets both indices to 0, does not write the slots, and changes nothing else (40 R111). -/
def Obligations.RingInitEmptiesPool : Prop :=
  ∀ (p : PoolId) (s : State), s.halted = false →
    ∃ q, exec (.ringInit p) s = .next ((s.setPool p q).returns .nothing) ∧
      q.w.val = 0 ∧ q.r.val = 0 ∧ q.slots = (s.pool p).slots ∧ q.count = 0 ∧ q.empty = true ∧ q.full = false

/-- `RING.ISFULL p` returns whether `(p.w + 1) mod S == p.r`, which is `count(p) = C`; `RING.COUNT p` returns
`(p.w - p.r) mod S`, which is 0 exactly when `p.w == p.r`; neither changes anything (40 R112, R113, 10_state R22). -/
def Obligations.RingQueriesReturnFullAndCount : Prop :=
  ∀ (p : PoolId) (s : State), s.halted = false →
    exec (.ringIsfull p) s =
        .next (s.returns (.bool (decide (((s.pool p).w.val + 1) % 65 = (s.pool p).r.val)))) ∧
      ∃ n : Nat, exec (.ringCount p) s = .next (s.returns (.count n)) ∧
        (n : Int) = (((s.pool p).w.val : Int) - (s.pool p).r.val) % 65 ∧ n ≤ 64 ∧
        (n = 64 ↔ ((s.pool p).w.val + 1) % 65 = (s.pool p).r.val) ∧ (n = 0 ↔ (s.pool p).w = (s.pool p).r)

/-- `RING.ENQ p, b` on a pool that is not full writes `b` in slot `p.w` and no other slot, then advances `p.w` modulo `S`,
and returns `ok`; on a full pool it returns `Capacity` and changes nothing (40 R114, R115). -/
def Obligations.RingEnqStoresOrRejects : Prop :=
  ∀ (p : PoolId) (b : Byte) (s : State), s.halted = false → (s.pool p).Wf →
    (((s.pool p).w.val + 1) % 65 ≠ (s.pool p).r.val →
      ∃ q, exec (.ringEnq p b) s = .next ((s.setPool p q).returns .ok) ∧
        q.w.val = ((s.pool p).w.val + 1) % 65 ∧ q.r = (s.pool p).r ∧
        Memory.read q.slots (s.pool p).w.val = b ∧
        (∀ a, a ≠ (s.pool p).w.val → Memory.read q.slots a = Memory.read (s.pool p).slots a) ∧
        q.count = (s.pool p).count + 1 ∧ q.empty = false ∧ (q.full = true ↔ q.count = 64)) ∧
    (((s.pool p).w.val + 1) % 65 = (s.pool p).r.val →
      exec (.ringEnq p b) s = .next (s.returns .capacity))

/-- `RING.DEQ p` on a pool that is not empty returns the byte of slot `p.r`, then advances `p.r` modulo `S`, and the slots
keep their bytes; on an empty pool it returns `Underflow` and changes nothing (40 R116, R117). -/
def Obligations.RingDeqReturnsOldestOrRejects : Prop :=
  ∀ (p : PoolId) (s : State), s.halted = false →
    ((s.pool p).w ≠ (s.pool p).r →
      ∃ q, exec (.ringDeq p) s =
          .next ((s.setPool p q).returns (.byte (Memory.read (s.pool p).slots (s.pool p).r.val))) ∧
        q.r.val = ((s.pool p).r.val + 1) % 65 ∧ q.w = (s.pool p).w ∧ q.slots = (s.pool p).slots ∧
        q.count + 1 = (s.pool p).count ∧ q.full = false ∧ (q.empty = true ↔ q.count = 0)) ∧
    ((s.pool p).w = (s.pool p).r → exec (.ringDeq p) s = .next (s.returns .underflow))

/-- `RING.TAKEV p, n` returns exactly the `n` oldest unread bytes in order and advances `p.r` by `n` modulo `S`, when the
pool holds that many; otherwise it returns `false` and changes nothing (40 R118). -/
def Obligations.RingTakevIsAllOrNothing : Prop :=
  ∀ (p : PoolId) (n : Nat) (s : State), s.halted = false →
    (n ≤ (s.pool p).count →
      ∃ q, exec (.ringTakev p n) s = .next ((s.setPool p q).returns (.taken ((s.pool p).unread.take n))) ∧
        q.r.val = ((s.pool p).r.val + n) % 65 ∧ q.w = (s.pool p).w ∧ q.slots = (s.pool p).slots ∧
        q.unread = (s.pool p).unread.drop n ∧ ((s.pool p).unread.take n).length = n ∧
        q.count + n = (s.pool p).count) ∧
    ((s.pool p).count < n → exec (.ringTakev p n) s = .next (s.returns .notTaken))

/-- The FIFO law: over any run of enqueues, dequeues and vector takes on one pool, the bytes unread at the start and then
the bytes accepted are the bytes returned and then the bytes unread at the end, in order (40 R120). -/
def Obligations.PoolRunsAreFifo : Prop :=
  ∀ (p : PoolId) (is : List Instr) (s : State), s.halted = false → (s.pool p).Wf →
    (∀ i ∈ is, usesPool p i = true) →
    ∃ a r t, poolRun is s = some (a, r, t) ∧
      (s.pool p).unread ++ a = r ++ (t.pool p).unread ∧ (t.pool p).Wf

/-- From an empty pool, `C = 64` enqueues are accepted and leave the pool full with exactly those bytes unread; one more
returns `Capacity` and changes nothing (40 R121). -/
def Obligations.CapacityManyEnqueuesFillThePool : Prop :=
  ∀ (p : PoolId) (bs : List Byte) (b : Byte) (s : State), s.halted = false → (s.pool p).Wf →
    (s.pool p).count = 0 → bs.length = 64 →
    ∃ t, runOps (bs.map (Instr.ringEnq p)) s = .next t ∧ (t.pool p).full = true ∧ (t.pool p).count = 64 ∧
      (t.pool p).unread = bs ∧ exec (.ringEnq p b) t = .next (t.returns .capacity)

/-- Publish order: an enqueue cut after its slot write has written the byte, and the consumer sees the same write index and
the same unread bytes; the next micro-step writes the index, and the consumer sees the new byte last; then the operation
returns (20_memory R63). The cut and what is left by it are the model's form of R62 (logs 3, 34), and
so is how often an operation reads an index (log 35). -/
def Obligations.EnqueuePublishesByIndexWrite : Prop :=
  ∀ (p : PoolId) (b : Byte) (s : State), s.halted = false → (s.pool p).Wf → (s.pool p).full = false →
    ∃ a t u, s.launch (.ringEnq p b) (some 2) = .next t ∧ t.stack = a :: s.stack ∧
      Memory.read (t.pool p).slots (s.pool p).w.val = b ∧ (t.pool p).w = (s.pool p).w ∧
      (t.pool p).unread = (s.pool p).unread ∧
      State.proceed { t with stack := s.stack } a (some 0) = .next u ∧
      (u.pool p).unread = (s.pool p).unread ++ [b] ∧ exec (.ringEnq p b) s = .next u

/-- Every enqueue that lands between two dequeues commutes with them: on a pool that is neither empty nor full the byte
returned and the pool left are the same in either order (40 R119 item 4 and 5). -/
def Obligations.EnqueueCommutesWithDequeue : Prop :=
  ∀ (p : PoolId) (b : Byte) (s t u : State), s.halted = false → (s.pool p).Wf →
    (s.pool p).empty = false → (s.pool p).full = false →
    exec (.ringDeq p) s = .next t → exec (.ringEnq p b) s = .next u →
    ∃ t' u', exec (.ringEnq p b) t = .next t' ∧ exec (.ringDeq p) u = .next u' ∧
      t'.pool p = u'.pool p ∧ t.result = u'.result ∧ t'.result = .ok ∧ u.result = .ok

/-! ## RandomSource -/

/-- `RS.INIT` sets all four indices to 0 and `rs_started` to true, writes no slot, and changes nothing else (41 R131). -/
def Obligations.RsInitStartsWithEmptyPools : Prop :=
  ∀ s : State, s.halted = false →
    ∃ h l, exec .rsInit s = .next { s with high := h, low := l, rsStarted := true, result := .nothing } ∧
      h.w.val = 0 ∧ h.r.val = 0 ∧ l.w.val = 0 ∧ l.r.val = 0 ∧ h.slots = s.high.slots ∧ l.slots = s.low.slots

/-- `RS.PRODUCE b` appends `b` to `high` if it is not full, else to `low` if it is not full, else drops it; the other pool
and everything else stay (41 R132, R133). -/
def Obligations.RsProduceRoutesToFirstNonFull : Prop :=
  ∀ (b : Byte) (s : State), s.halted = false → (s.around .irqRng).producing = false → s.high.Wf → s.low.Wf →
    (s.high.full = false →
      ∃ q, exec (.rsProduce b) s = .next { s with high := q, result := .nothing } ∧
        q.unread = s.high.unread ++ [b] ∧ q.r = s.high.r ∧ q.w.val = (s.high.w.val + 1) % 65 ∧
        ∀ a, a ≠ s.high.w.val → Memory.read q.slots a = Memory.read s.high.slots a) ∧
    (s.high.full = true → s.low.full = false →
      ∃ q, exec (.rsProduce b) s = .next { s with low := q, result := .nothing } ∧
        q.unread = s.low.unread ++ [b] ∧ q.r = s.low.r ∧ q.w.val = (s.low.w.val + 1) % 65 ∧
        ∀ a, a ≠ s.low.w.val → Memory.read q.slots a = Memory.read s.low.slots a) ∧
    (s.high.full = true → s.low.full = true → exec (.rsProduce b) s = .next { s with result := .nothing })

/-- With `high` full, any bytes produced go to `low` in order until it is full, and the rest are dropped; both pools remain
at capacity (41 R133). -/
def Obligations.ProducedBytesFillLowThenDrop : Prop :=
  ∀ (bs : List Byte) (s : State), s.halted = false → (s.around .irqRng).producing = false → s.low.Wf →
    s.high.full = true →
    ∃ t, runOps (bs.map .rsProduce) s = .next t ∧ t.high = s.high ∧
      t.low.unread = s.low.unread ++ bs.take (64 - s.low.count) ∧ t.faultCode = s.faultCode ∧ t.halted = false

/-- `RS.GETHI n` takes the `n` oldest bytes of `high`, `RS.GETLO n` those of `low`, or it returns `false` and changes nothing
(41 R134, R135). -/
def Obligations.RsGethiAndGetloTakeFromTheirPools : Prop :=
  ∀ (n : Nat) (s : State), s.halted = false →
    ((n ≤ s.high.count →
        ∃ q, exec (.rsGethi n) s = .next { s with high := q, result := .taken (s.high.unread.take n) } ∧
          q.unread = s.high.unread.drop n ∧ q.w = s.high.w ∧ q.slots = s.high.slots) ∧
      (s.high.count < n → exec (.rsGethi n) s = .next { s with result := .notTaken }) ∧
      exec (.rsGethi n) s = exec (.ringTakev .high n) s) ∧
    ((n ≤ s.low.count →
        ∃ q, exec (.rsGetlo n) s = .next { s with low := q, result := .taken (s.low.unread.take n) } ∧
          q.unread = s.low.unread.drop n ∧ q.w = s.low.w ∧ q.slots = s.low.slots) ∧
      (s.low.count < n → exec (.rsGetlo n) s = .next { s with result := .notTaken }) ∧
      exec (.rsGetlo n) s = exec (.ringTakev .low n) s)

/-- A pass of `RS.GETLOB n`. With `n` bytes in `low` it returns them, without reading `rng_ready` or any priority. With fewer,
when the RNG interrupt cannot preempt the caller and a byte waits, it takes the byte and does `RS.PRODUCE` with it; else it
changes nothing; in both cases the operation stays in progress. A caller in `MAIN` always spins (41 R138, R139). -/
def Obligations.RsGetlobReturnsPumpsOrSpins : Prop :=
  ∀ (n : Nat) (s : State), s.halted = false →
    (n ≤ s.low.count →
      ∃ q, exec (.rsGetlob n) s = .next { s with low := q, result := .taken (s.low.unread.take n) } ∧
        q.unread = s.low.unread.drop n ∧ q.w = s.low.w ∧ q.slots = s.low.slots ∧
        (s.low.unread.take n).length = n) ∧
    (s.low.count < n →
      (Config.prio s.cfg s.runningCtx ≤ s.cfg.prioRng → s.rngReady = true →
        (s.around s.runningCtx).producing = false →
        ∃ t, exec (.rsProduce s.rngData) { s with rngReady := false } = .next t ∧
          exec (.rsGetlob n) s = .next { t with
            stack := ⟨s.runningCtx, .op (.rsGetlob n), []⟩ :: s.stack, result := .unfinished }) ∧
      (s.cfg.prioRng < Config.prio s.cfg s.runningCtx ∨ s.rngReady = false ∨ s.runningCtx = .main →
        exec (.rsGetlob n) s = .next { s with
          stack := ⟨s.runningCtx, .op (.rsGetlob n), []⟩ :: s.stack, result := .unfinished }))

/-- `RS.GETLOB n` with `n > C` never returns, wherever it is called: a step that starts it leaves it in progress, and however
many steps the machine makes, whatever the platform and more urgent contexts do, it is still in progress, with what it
preempted below it (41 R139 item 3). -/
def Obligations.RsGetlobBeyondCapacityNeverReturns : Prop :=
  ∀ (n : Nat), 64 < n →
    (∀ s t : State, s.halted = false → exec (.rsGetlob n) s = .next t →
      t.stack = ⟨s.runningCtx, .op (.rsGetlob n), []⟩ :: s.stack ∧ t.result = .unfinished) ∧
    ∀ (k : Nat) (a : Activation) (above below : List Activation) (s t : State), Call.insideGetlob n a.call →
      s.stack = above ++ a :: below → runSteps k s = .next t →
      ∃ above' b, t.stack = above' ++ b :: below ∧ b.ctx = a.ctx ∧ b.call = a.call

/-- With `high` full, once enough bytes are delivered for the request the blocking getter returns exactly the requested
bytes in FIFO order, never fewer, never more (41 R140). -/
def Obligations.RsGetlobReturnsAfterDeliveries : Prop :=
  ∀ (n : Nat) (bs : List Byte) (s : State), s.halted = false → (s.around .irqRng).producing = false → s.low.Wf →
    s.high.full = true → s.low.count + bs.length ≤ 64 → n ≤ s.low.count + bs.length →
    ∃ t, runOps (bs.map .rsProduce ++ [.rsGetlob n]) s = .next t ∧
      t.result = .taken ((s.low.unread ++ bs).take n) ∧ t.low.unread = (s.low.unread ++ bs).drop n ∧
      t.high = s.high ∧ t.stack = s.stack

/-! ## H4 Framer -/

/-- `RX.START` puts the framer in `AwaitingType` with one byte requested at offset 0, and changes nothing else
(42 R150). -/
def Obligations.RxStartRequestsTypeByte : Prop :=
  ∀ s : State, s.halted = false →
    exec .rxStart s = .next { s with
      rxState := .awaitingType, rxReqValid := true, rxReqOff := 0, rxReqLen := 1, rxGot := 0, result := .nothing }

/-- `RX.TYPE.CMD` requests 3 header bytes at offset 1 and awaits the Command header; `RX.TYPE.ACL` requests 4 and awaits the
ACL-Data header; `RX.TYPE.BAD` raises `F_UNSUPPORTED_TYPE` with the type byte, and `rx_state` and the request stay; nothing
else changes (42 R154 to R156, 60 R204). -/
def Obligations.RxTypeRequestsHeaderOrLatchesFault : Prop :=
  ∀ (b : Byte) (s : State), s.halted = false →
    exec .rxTypeCmd s = .next { s with
      rxState := .awaitingCmdHeader, rxReqValid := true, rxReqOff := 1, rxReqLen := 3, rxGot := 0, result := .nothing } ∧
    exec .rxTypeAcl s = .next { s with
      rxState := .awaitingAclHeader, rxReqValid := true, rxReqOff := 1, rxReqLen := 4, rxGot := 0, result := .nothing } ∧
    exec (.rxTypeBad b) s = .next { s with
      halted := true, faultCode := 1, faultInfo := b.toNat, result := .nothing }

/-- `RX.CMDHDR.NZ` with length `L` requests `L` bytes at offset 4, `RX.ACLHDR.NZ` with length `L = l + 256 * m` requests `L`
bytes at offset 5, if they fit `RXBUF`; else it raises `F_RX_OVERLENGTH` with `L` (42 R158, R160, R162). -/
def Obligations.RxHeaderRequestsPayload : Prop :=
  ∀ (g o h0 h1 l m : Byte) (s : State), s.halted = false →
    (l ≠ 0#8 →
      (4 + l.toNat ≤ s.cfg.rxbufSize →
        exec (.rxCmdhdrNz g o l) s = .next { s with
          rxState := .awaitingPayload, rxReqValid := true, rxReqOff := 4, rxReqLen := l.toNat, rxGot := 0,
          result := .nothing }) ∧
      (s.cfg.rxbufSize < 4 + l.toNat →
        exec (.rxCmdhdrNz g o l) s = .next { s with
          halted := true, faultCode := 3, faultInfo := l.toNat, result := .nothing })) ∧
    (l ≠ 0#8 ∨ m ≠ 0#8 →
      (5 + (l.toNat + 256 * m.toNat) ≤ s.cfg.rxbufSize →
        exec (.rxAclhdrNz h0 h1 l m) s = .next { s with
          rxState := .awaitingPayload, rxReqValid := true, rxReqOff := 5, rxReqLen := l.toNat + 256 * m.toNat,
          rxGot := 0, result := .nothing }) ∧
      (s.cfg.rxbufSize < 5 + (l.toNat + 256 * m.toNat) →
        exec (.rxAclhdrNz h0 h1 l m) s = .next { s with
          halted := true, faultCode := 3, faultInfo := l.toNat + 256 * m.toNat, result := .nothing }))

/-- `RX.CMDHDR.Z`: the three header bytes go to `IngestCommand`; `RX.ACLHDR.Z`: the four header bytes go to `IngestData`; when
the call returns success the framer awaits a type byte with one byte requested (42 R157, R159). -/
def Obligations.RxHeaderZeroDelivers : Prop :=
  ∀ (b0 b1 : Byte) (rest : List IngestAnswer) (s : State), s.halted = false → s.ctlIngest = ⟨[], 0⟩ :: rest →
    (Memory.read s.rxbuf 0 = tCmd → Memory.read s.rxbuf 3 = 0#8 →
      exec (.rxCmdhdrZ b0 b1) s = .next { s with
        delivered := s.delivered ++
          [⟨.command, [Memory.read s.rxbuf 1, Memory.read s.rxbuf 2, Memory.read s.rxbuf 3]⟩]
        ctlIngest := rest, rxState := .awaitingType, rxReqValid := true, rxReqOff := 0, rxReqLen := 1, rxGot := 0,
        result := .nothing }) ∧
    (Memory.read s.rxbuf 0 = tAcl → Memory.read s.rxbuf 3 = 0#8 → Memory.read s.rxbuf 4 = 0#8 →
      exec (.rxAclhdrZ b0 b1) s = .next { s with
        delivered := s.delivered ++
          [⟨.data, [Memory.read s.rxbuf 1, Memory.read s.rxbuf 2, Memory.read s.rxbuf 3, Memory.read s.rxbuf 4]⟩]
        ctlIngest := rest, rxState := .awaitingType, rxReqValid := true, rxReqOff := 0, rxReqLen := 1, rxGot := 0,
        result := .nothing })

/-- `RX.PAYLOAD`: header and payload, by the type byte inspected again, go to `IngestCommand` (`3 + L` bytes from offset 1)
or `IngestData` (`4 + L` bytes); when it returns success the framer awaits a type byte (42 R161, R152). -/
def Obligations.RxPayloadDelivers : Prop :=
  ∀ (rest : List IngestAnswer) (s : State), s.halted = false → s.ctlIngest = ⟨[], 0⟩ :: rest →
    (∀ n, Memory.read s.rxbuf 0 = tCmd → n = 3 + (Memory.read s.rxbuf 3).toNat → 1 + n ≤ s.cfg.rxbufSize →
      exec .rxPayload s = .next { s with
        delivered := s.delivered ++ [⟨.command, (List.range n).map fun i => Memory.read s.rxbuf (1 + i)⟩]
        ctlIngest := rest, rxState := .awaitingType, rxReqValid := true, rxReqOff := 0, rxReqLen := 1, rxGot := 0,
        result := .nothing }) ∧
    (∀ n, Memory.read s.rxbuf 0 = tAcl →
      n = 4 + ((Memory.read s.rxbuf 3).toNat + 256 * (Memory.read s.rxbuf 4).toNat) → 1 + n ≤ s.cfg.rxbufSize →
      exec .rxPayload s = .next { s with
        delivered := s.delivered ++ [⟨.data, (List.range n).map fun i => Memory.read s.rxbuf (1 + i)⟩]
        ctlIngest := rest, rxState := .awaitingType, rxReqValid := true, rxReqOff := 0, rxReqLen := 1, rxGot := 0,
        result := .nothing })

/-- A non-zero status from the ingest call is fatal, `F_CONTROLLER_REJECT` with the type byte: the call has been made,
`rx_state` is not changed and no request is issued; so for each transition that delivers (42 R152, 60 R205). -/
def Obligations.RejectedFrameLatchesFault : Prop :=
  ∀ (i : Instr) (ty : Byte) (d : Delivery) (status : Nat) (rest : List IngestAnswer) (s : State),
    Instr.delivers i = true → s.halted = false → s.Holds ty d → status ≠ 0 → s.ctlIngest = ⟨[], status⟩ :: rest →
    exec i s = .next { s with
      delivered := s.delivered ++ [d], ctlIngest := rest, halted := true, faultCode := 2, faultInfo := ty.toNat,
      result := .nothing }

/-- The transition does not go on until the ingest call returns. For each transition that delivers, of either kind of frame:
while the controller has not answered, the call has been made, `rx_state` stays, no request is issued and the transition
stays in progress. A step with such a call on top and no interrupt to take finds no answer and changes nothing, or it finds
the answer and the transition ends: with the next request, or in the fatal condition (42 R152, R163). -/
def Obligations.UnansweredIngestWaits : Prop :=
  (∀ (i : Instr) (ty : Byte) (d : Delivery) (s : State), Instr.delivers i = true → s.halted = false → s.Holds ty d →
    s.ctlIngest = [] →
    exec i s = .next { s with
      delivered := s.delivered ++ [d], stack := ⟨.irqRx, .awaiting ty, []⟩ :: s.stack, result := .unfinished }) ∧
  ∀ (ty : Byte) (status : Nat) (rest : List IngestAnswer) (below : List Activation) (s u : State),
    s.platformTick = .next u → s.slot.cut = none → u.halted = false → u.nextIrq = none →
    u.stack = ⟨.irqRx, .awaiting ty, []⟩ :: below →
    (u.ctlIngest = [] → step s = .next { u with result := .unfinished }) ∧
    (u.ctlIngest = ⟨[], status⟩ :: rest → status = 0 →
      step s = .next { u with
        stack := below, ctlIngest := rest, rxState := .awaitingType, rxReqValid := true, rxReqOff := 0, rxReqLen := 1,
        rxGot := 0, result := .nothing }) ∧
    (u.ctlIngest = ⟨[], status⟩ :: rest → status ≠ 0 →
      step s = .next { u with
        stack := below, ctlIngest := rest, halted := true, faultCode := 2, faultInfo := ty.toNat, result := .nothing })

/-- The controller's ingest code, running in `IRQ_RX`, may take random bytes with each of the three getters: for each
transition that delivers, the getter gets the oldest bytes of its pool where there are enough, and the transition ends as
before. With fewer, `RS.GETHI` and `RS.GETLO` return `false` to it; `RS.GETLOB` pumps where the RNG interrupt cannot preempt
`IRQ_RX` and a byte waits, else spins, and the call stays in progress; a later step on top of which it stands goes on with
the next pass (60 R210, R216, 41 R134, R135, R138, R139). -/
def Obligations.IngestCodeTakesRandomBytes : Prop :=
  (∀ (i : Instr) (g : GetCall) (ty : Byte) (d : Delivery) (rest : List IngestAnswer) (s : State),
    Instr.delivers i = true → s.halted = false → s.Holds ty d → s.ctlIngest = ⟨[g], 0⟩ :: rest →
    (s.around .irqRx).consuming g.pool = false →
    (g.amount ≤ (s.pool g.pool).count →
      ∃ q, exec i s = .next { s.setPool g.pool q with
          delivered := s.delivered ++ [d], ctlIngest := rest,
          ctlGot := s.ctlGot ++ [.taken ((s.pool g.pool).unread.take g.amount)], rxState := .awaitingType,
          rxReqValid := true, rxReqOff := 0, rxReqLen := 1, rxGot := 0, result := .nothing } ∧
        q.unread = (s.pool g.pool).unread.drop g.amount ∧ q.w = (s.pool g.pool).w ∧ q.slots = (s.pool g.pool).slots) ∧
    ((s.pool g.pool).count < g.amount → g ≠ .lowBlocking g.amount →
      exec i s = .next { s with
        delivered := s.delivered ++ [d], ctlIngest := rest, ctlGot := s.ctlGot ++ [.notTaken],
        rxState := .awaitingType, rxReqValid := true, rxReqOff := 0, rxReqLen := 1, rxGot := 0, result := .nothing }) ∧
    ((s.pool g.pool).count < g.amount → g = .lowBlocking g.amount →
      (s.cfg.prioRx ≤ s.cfg.prioRng → s.rngReady = true → (s.around .irqRx).producing = false →
        ∃ t, exec (.rsProduce s.rngData)
            { s with delivered := s.delivered ++ [d], ctlIngest := rest, rngReady := false } = .next t ∧
          exec i s = .next { t with stack := ⟨.irqRx, .ingest ty 0 [g], []⟩ :: s.stack, result := .unfinished }) ∧
      (s.cfg.prioRng < s.cfg.prioRx ∨ s.rngReady = false →
        exec i s = .next { s with
          delivered := s.delivered ++ [d], ctlIngest := rest,
          stack := ⟨.irqRx, .ingest ty 0 [g], []⟩ :: s.stack, result := .unfinished }))) ∧
  ∀ (ty : Byte) (n : Nat) (below : List Activation) (s u : State),
    s.platformTick = .next u → s.slot.cut = none → u.halted = false → u.nextIrq = none →
    u.stack = ⟨.irqRx, .ingest ty 0 [.lowBlocking n], []⟩ :: below →
    Around.consuming ⟨u.cfg, .irqRx, below⟩ .low = false →
    (n ≤ u.low.count →
      ∃ q, step s = .next { u with
          low := q, stack := below, ctlGot := u.ctlGot ++ [.taken (u.low.unread.take n)], rxState := .awaitingType,
          rxReqValid := true, rxReqOff := 0, rxReqLen := 1, rxGot := 0, result := .nothing } ∧
        q.unread = u.low.unread.drop n ∧ q.w = u.low.w ∧ q.slots = u.low.slots) ∧
    (u.low.count < n → u.cfg.prioRng < u.cfg.prioRx ∨ u.rngReady = false →
      step s = .next { u with result := .unfinished })

/-- Where an operation that consumes from a pool, or initialises it, is suspended, a getter of the ingest code on that pool
is refused; where one that enqueues, or initialises a pool, is suspended, `RS.PRODUCE` is refused, and so is the pump of a
blocking getter that has found a waiting byte (93_implementation_defined U6). That the model refuses is its choice (log
24). -/
def Obligations.SecondConsumerOrProducerIsRefused : Prop :=
  ∀ s : State, s.halted = false →
    (∀ (i j : Instr) (g : GetCall) (calls : List GetCall) (status : Nat) (ty : Byte) (d : Delivery)
        (rest : List IngestAnswer) (a : Activation),
      Instr.delivers i = true → s.Holds ty d → s.ctlIngest = ⟨g :: calls, status⟩ :: rest →
      a ∈ s.stack → a.call = .op j → Instr.consumes g.pool j = true → exec i s = .refused .secondConsumer) ∧
    (∀ (b : Byte) (j : Instr) (a : Activation), a ∈ s.stack → a.call = .op j → Instr.produces j = true →
      exec (.rsProduce b) s = .refused .secondProducer ∧
      (∀ n, s.low.count < n → Config.prio s.cfg s.runningCtx ≤ s.cfg.prioRng → s.rngReady = true →
        exec (.rsGetlob n) s = .refused .secondProducer) ∧
      (∀ (i : Instr) (n : Nat) (calls : List GetCall) (status : Nat) (ty : Byte) (d : Delivery)
          (rest : List IngestAnswer),
        Instr.delivers i = true → s.Holds ty d → s.ctlIngest = ⟨.lowBlocking n :: calls, status⟩ :: rest →
        (s.around .irqRx).consuming .low = false → s.low.count < n → s.cfg.prioRx ≤ s.cfg.prioRng →
        s.rngReady = true → exec i s = .refused .secondProducer))

/-- `RX.COMPLETE` clears the request and takes exactly one transition: the one `rx_state` and the bytes of `RXBUF` select,
with the request's bytes stored in it (42 R153). -/
def Obligations.RxCompleteTakesTheSelectedTransition : Prop :=
  ∀ (bs : List Byte) (s : State), s.halted = false → s.rxReqValid = true → s.rxGot + bs.length = s.rxReqLen →
    s.rxReqOff + s.rxReqLen ≤ s.cfg.rxbufSize →
    ∃ i rest u, u = { s with
        rxbuf := Memory.writeN s.rxbuf (s.rxReqOff + s.rxGot) bs, rxGot := s.rxReqLen, rxReqValid := false } ∧
      decode (.framer s.rxState) (Memory.readN u.rxbuf 0 5) = .ok (i, rest) ∧
      exec (.rxComplete bs) s = exec i u

/-- `RX.COMPLETE` of a type byte from `(AwaitingType, 0, 1)`: 0x01 and 0x02 request the header, any other value is fatal
with no request outstanding; the byte is stored at offset 0 and no other byte of `RXBUF` changes (42 R154 to R156). That
`RX.COMPLETE` itself stores its operand byte is the model's choice (log 16). -/
def Obligations.RxCompleteOfTypeByte : Prop :=
  ∀ (b : Byte) (s : State), s.AtFrameStart → Memory.Wf s.rxbuf →
    ∃ m, Memory.read m 0 = b ∧ (∀ a, a ≠ 0 → Memory.read m a = Memory.read s.rxbuf a) ∧
      (b = tCmd → exec (.rxComplete [b]) s = .next { s with
        rxbuf := m, rxState := .awaitingCmdHeader, rxReqOff := 1, rxReqLen := 3, rxGot := 0, result := .nothing }) ∧
      (b = tAcl → exec (.rxComplete [b]) s = .next { s with
        rxbuf := m, rxState := .awaitingAclHeader, rxReqOff := 1, rxReqLen := 4, rxGot := 0, result := .nothing }) ∧
      (b ≠ tCmd → b ≠ tAcl → exec (.rxComplete [b]) s = .next { s with
        rxbuf := m, rxReqValid := false, rxGot := 1, halted := true, faultCode := 1, faultInfo := b.toNat,
        result := .nothing })

/-- `RX.BYTE b` that does not fill the request stores `b` at `rx_req_off + rx_got`, adds 1 to `rx_got` and changes nothing
else; the byte that fills it performs `RX.COMPLETE` (42 R165). -/
def Obligations.RxByteStoresAndCounts : Prop :=
  ∀ (b : Byte) (s : State), s.halted = false → s.rxReqValid = true →
    s.rxReqOff + s.rxReqLen ≤ s.cfg.rxbufSize → Memory.Wf s.rxbuf →
    (s.rxGot + 1 < s.rxReqLen →
      ∃ m, exec (.rxByte b) s = .next { s with rxbuf := m, rxGot := s.rxGot + 1, result := .nothing } ∧
        Memory.read m (s.rxReqOff + s.rxGot) = b ∧
        ∀ a, a ≠ s.rxReqOff + s.rxGot → Memory.read m a = Memory.read s.rxbuf a) ∧
    (s.rxGot + 1 = s.rxReqLen → exec (.rxByte b) s = exec (.rxComplete [b]) s)

/-- Feeding the bytes of a request one by one through `RX.BYTE` is the same as feeding them at once through `RX.COMPLETE`
(42 R165). -/
def Obligations.ByteSerialEqualsWholeRequest : Prop :=
  ∀ (bs : List Byte) (s : State), s.rxReqValid = true → s.rxGot = 0 → bs.length = s.rxReqLen → bs ≠ [] →
    runOps (bs.map .rxByte) s = exec (.rxComplete bs) s

/-- Events that do not exist are refused: RX-complete without a request or with another number of bytes, a wire byte no
request waits for, TX-complete with no transmission in flight (decision D22; 42 R153, R165, 43 R186). -/
def Obligations.EventsThatDoNotExistAreRefused : Prop :=
  ∀ (bs : List Byte) (b : Byte) (s : State), s.halted = false →
    (s.rxReqValid = false ∨ s.rxGot + bs.length ≠ s.rxReqLen → exec (.rxComplete bs) s = .refused .noSuchEvent) ∧
    (s.rxReqValid = false ∨ s.rxReqLen ≤ s.rxGot → exec (.rxByte b) s = .refused .noSuchEvent) ∧
    (s.txFlight = false → s.txDone = false → exec .txComplete s = .refused .noSuchEvent)

/-- Frame reassembly: the bytes of any frames that fit, streamed one by one from a frame boundary to a controller that
accepts them, give exactly those frames, each once, in wire order, and leave the framer at a frame boundary; a further
frame of which only a part has arrived is not delivered, in part or in whole (42 R164; 30_encoding R83, R85, R89). The queue
of the controller's answers is the model's (log 11); frames whose ingest code calls getters are left out. -/
def Obligations.FramesAreDeliveredInWireOrder : Prop :=
  ∀ (frames : List H4Frame) (f : H4Frame) (arrived missing : List Byte) (rest : List IngestAnswer) (s : State),
    s.AtFrameStart → Memory.Wf s.rxbuf → f.fits s.cfg.rxbufSize → f.bytes = arrived ++ missing → missing ≠ [] →
    (∀ f ∈ frames, f.fits s.cfg.rxbufSize) → s.ctlIngest = List.replicate frames.length ⟨[], 0⟩ ++ rest →
    ∃ t, runOps ((frames.flatMap H4Frame.bytes).map .rxByte) s = .next t ∧ t.AtFrameStart ∧
      t.delivered = s.delivered ++ frames.map H4Frame.delivery ∧ t.ctlIngest = rest ∧
      SameRandom s t ∧ SameMux s t ∧ SameLatch s t ∧
      ∃ u, runOps (arrived.map .rxByte) t = .next u ∧ u.delivered = t.delivered ∧ u.halted = false

/-- The UART storing the next byte of the receive line, with RX-complete taken when it fills the request, does what
`RX.BYTE` of that byte does: the machine in the main loop with nothing else to do (42 R151, R165, 60 R211). When the byte is
stored is the model's input (log 3); that the interrupt is pending then, and not masked or delayed, logs 20 and 29. -/
def Obligations.LineByteIsReceivedLikeRxByte : Prop :=
  ∀ (b : Byte) (line : List Byte) (later : List Slot) (s : State), s.halted = false → s.rxReqValid = true →
    s.rxGot < s.rxReqLen → s.rxReqOff + s.rxReqLen ≤ s.cfg.rxbufSize → s.ctx = .main → s.stack = [] →
    s.txDone = false → s.rngReady = false → s.script = [] → s.result = .nothing →
    s.sched = ⟨[.uartRx], none⟩ :: later → s.rxLine = b :: line →
    step s = exec (.rxByte b) { s with sched := later, rxLine := line }

/-- Only the outstanding request is written: in one step no byte of `RXBUF` outside the part of the request still to be
filled changes (10_state R32, 42 R151). -/
def Obligations.OnlyTheRequestWritesRxbuf : Prop :=
  ∀ (s t : State) (a : Nat), Memory.Wf s.rxbuf → step s = .next t →
    ¬ (s.rxReqValid = true ∧ s.rxReqOff + s.rxGot ≤ a ∧ a < s.rxReqOff + s.rxReqLen) →
    Memory.read t.rxbuf a = Memory.read s.rxbuf a

/-! ## H4 Multiplexer -/

/-- `TX.POLL` while the transmit path is busy pulls nothing and changes nothing (43 R181, step 1). -/
def Obligations.TxPollWhileBusyDoesNothing : Prop :=
  ∀ s : State, s.halted = false → s.txIdle = false → exec .txPoll s = .next (s.returns .nothing)

/-- `TX.POLL` with a frame of the chosen kind that fits: the type byte and the frame's bytes stand in `TXBUF[0 .. 1 + len)`,
no other byte of `TXBUF` changes, the path is busy, the flag names the kind, and exactly those bytes are handed to the UART
(43 R181, R182, R184). -/
def Obligations.TxPollSendsOneFrame : Prop :=
  ∀ (b : Byte) (bs : List Byte) (rest : List PullAnswer) (s : State), s.halted = false → s.txIdle = true →
    Memory.Wf s.txbuf → 2 + bs.length ≤ s.cfg.txbufSize →
    (s.txLastEvt = false → s.ctlEvents = .frame b bs :: rest →
      ∃ m, exec .txPoll s = .next { s with
          ctlEvents := rest, txbuf := m, txLastEvt := true, txIdle := false, txLen := 2 + bs.length, txFlight := true,
          sent := s.sent ++ [0x04#8 :: b :: bs], result := .nothing } ∧
        Memory.readN m 0 (2 + bs.length) = 0x04#8 :: b :: bs ∧
        ∀ a, 2 + bs.length ≤ a → Memory.read m a = Memory.read s.txbuf a) ∧
    (s.txLastEvt = true → s.ctlDatas = .frame b bs :: rest →
      ∃ m, exec .txPoll s = .next { s with
          ctlDatas := rest, txbuf := m, txLastEvt := false, txIdle := false, txLen := 2 + bs.length, txFlight := true,
          sent := s.sent ++ [0x02#8 :: b :: bs], result := .nothing } ∧
        Memory.readN m 0 (2 + bs.length) = 0x02#8 :: b :: bs ∧
        ∀ a, 2 + bs.length ≤ a → Memory.read m a = Memory.read s.txbuf a)

/-- `TX.POLL` whose pull returns nothing sends nothing, and still writes the alternation flag, so that the other kind is
tried on the next poll; `TXBUF[0]`, what lies beyond the controller's bytes or the buffer, and everything else stay
(43 R185, R181 step 4). A controller with no answer to come has nothing pending (log 12). -/
def Obligations.TxPollEmptyPullFlipsTheFlag : Prop :=
  ∀ (scratch : List Byte) (rest : List PullAnswer) (s : State), s.halted = false → s.txIdle = true →
    Memory.Wf s.txbuf →
    (s.txLastEvt = false → s.ctlEvents = .nothing scratch :: rest →
      ∃ m, exec .txPoll s = .next { s with
          ctlEvents := rest, txbuf := m, txLastEvt := true, result := .nothing } ∧
        ∀ a, a = 0 ∨ scratch.length < a ∨ s.cfg.txbufSize ≤ a → Memory.read m a = Memory.read s.txbuf a) ∧
    (s.txLastEvt = true → s.ctlDatas = .nothing scratch :: rest →
      ∃ m, exec .txPoll s = .next { s with
          ctlDatas := rest, txbuf := m, txLastEvt := false, result := .nothing } ∧
        ∀ a, a = 0 ∨ scratch.length < a ∨ s.cfg.txbufSize ≤ a → Memory.read m a = Memory.read s.txbuf a) ∧
    (s.txLastEvt = false → s.ctlEvents = [] →
      exec .txPoll s = .next { s with txLastEvt := true, result := .nothing }) ∧
    (s.txLastEvt = true → s.ctlDatas = [] →
      exec .txPoll s = .next { s with txLastEvt := false, result := .nothing })

/-- `TX.POLL` whose pull returns a length that would not fit `TXBUF` raises `F_TX_OVERLENGTH` with the length and sends
nothing; the path stays idle, `TXBUF[0]` and what lies beyond the buffer are not written, and the flag has been (43 R187,
decision D27). -/
def Obligations.TxPollOverlengthLatchesFault : Prop :=
  ∀ (b : Byte) (bs : List Byte) (rest : List PullAnswer) (s : State), s.halted = false → s.txIdle = true →
    Memory.Wf s.txbuf → s.cfg.txbufSize < 2 + bs.length →
    (s.txLastEvt = false → s.ctlEvents = .frame b bs :: rest →
      ∃ m, exec .txPoll s = .next { s with
        ctlEvents := rest, txbuf := m, txLastEvt := true, halted := true, faultCode := 4, faultInfo := bs.length + 1,
        result := .nothing } ∧
        ∀ a, a = 0 ∨ s.cfg.txbufSize ≤ a → Memory.read m a = Memory.read s.txbuf a) ∧
    (s.txLastEvt = true → s.ctlDatas = .frame b bs :: rest →
      ∃ m, exec .txPoll s = .next { s with
        ctlDatas := rest, txbuf := m, txLastEvt := false, halted := true, faultCode := 4, faultInfo := bs.length + 1,
        result := .nothing } ∧
        ∀ a, a = 0 ∨ s.cfg.txbufSize ≤ a → Memory.read m a = Memory.read s.txbuf a)

/-- `TX.COMPLETE` of a transmission that is in flight, or whose event is pending, sets `tx_idle` and writes nothing else of
the block (43 R186). What it does to the platform's own bits is the model's choice (logs 16, 20). -/
def Obligations.TxCompleteSetsIdle : Prop :=
  ∀ s : State, s.halted = false → s.txFlight = true ∨ s.txDone = true →
    exec .txComplete s = .next { s with txIdle := true, txFlight := false, txDone := false, result := .nothing }

/-- With both classes always pending, polls that each find the path idle strictly alternate the kind they transmit, from
whichever kind is first (43 R188). -/
def Obligations.PollsAlternateKinds : Prop :=
  ∀ (n : Nat) (es ds : List (List Byte)) (s : State), s.halted = false → s.txIdle = true → Memory.Wf s.txbuf →
    s.ctlEvents = offers es → s.ctlDatas = offers ds → n ≤ es.length → n ≤ ds.length →
    (∀ f ∈ es ++ ds, f ≠ [] ∧ 1 + f.length ≤ s.cfg.txbufSize) →
    ∃ t, runOps (List.replicate n [Instr.txPoll, Instr.txComplete]).flatten s = .next t ∧
      t.sent = s.sent ++ alternating s.pullKind es ds n ∧ (alternating s.pullKind es ds n).length = n ∧
      t.txIdle = true

/-- `TXBUF` is never written while a transmission is in flight, and none is started: from a state that meets the invariant,
with a transmission in flight or its event not yet taken, any step leaves `TXBUF` and what was handed to the UART as they are
(43 R189). -/
def Obligations.BusyPathKeepsTxbuf : Prop :=
  ∀ s t : State, s.Inv → s.halted = false → s.txFlight = true ∨ s.txDone = true → step s = .next t →
    t.txbuf = s.txbuf ∧ t.sent = s.sent ∧ t.txLen = s.txLen

/-! ## Fatal conditions, contexts, interrupts and micro-steps -/

/-- `raise Fatal(code, info)`: the latch is written, `halted` becomes true and all other state stays as it was; if a fatal
condition came first, that one is kept; from then on every operation has no effect and returns nothing (60 R203, R201). -/
def Obligations.FatalConditionLatchesOnceAndStopsEveryOperation : Prop :=
  ∀ (c : FatalCode) (info : Nat) (s : State),
    (s.halted = false →
      s.raiseFatal c info = { s with faultCode := c.code, faultInfo := info, halted := true }) ∧
    (s.halted = true → s.raiseFatal c info = s) ∧
    (∀ i, exec i (s.raiseFatal c info) = .next ((s.raiseFatal c info).returns .nothing)) ∧
    [FatalCode.unsupportedType, .controllerReject, .rxOverlength, .txOverlength, .platformInit].map FatalCode.code =
      [1, 2, 3, 4, 5]

/-- `halted` is sticky: after a fatal condition no operation has an effect or returns anything, and no step changes the
latch, the pools, the framer or the multiplexer, and nothing is delivered or sent (10_state R39, 60 R203). -/
def Obligations.HaltedBlockIsFrozen : Prop :=
  ∀ (k : Nat) (s : State), s.halted = true →
    (∀ i, exec i s = .next (s.returns .nothing)) ∧
    ∃ t, runSteps k s = .next t ∧ SameLatch s t ∧ SameRandom s t ∧ SameFramer s t ∧ SameMux s t

/-- Only the fault latch can be set and `rs_started` set: no step clears `halted` or `rs_started`, and none changes the
configuration (10_state R39, R26). -/
def Obligations.StepNeverClearsHaltedOrStarted : Prop :=
  ∀ s t : State, step s = .next t →
    t.cfg = s.cfg ∧ (s.halted = true → t.halted = true) ∧ (s.rsStarted = true → t.rsStarted = true)

/-- The units share no state: RingPool and RandomSource operations change neither the framer nor the multiplexer,
multiplexer operations change neither the pools nor the framer, framer operations do not change the multiplexer
(00_scope R11, 60 R214). -/
def Obligations.UnitsShareNoState : Prop :=
  ∀ (i : Instr) (s t : State), exec i s = .next t →
    match i with
    | .ringInit _ | .ringIsfull _ | .ringCount _ | .ringEnq _ _ | .ringDeq _ | .ringTakev _ _ | .rsInit
    | .rsProduce _ | .rsGethi _ | .rsGetlo _ | .rsGetlob _ => SameFramer s t ∧ SameMux s t ∧ SameLatch s t
    | .txPoll | .txComplete => SameRandom s t ∧ SameFramer s t
    | .rxTypeCmd | .rxTypeAcl | .rxTypeBad _ | .rxCmdhdrNz _ _ _ | .rxAclhdrNz _ _ _ _ | .rxStart =>
      SameRandom s t ∧ SameMux s t
    | .rxCmdhdrZ _ _ | .rxAclhdrZ _ _ | .rxPayload | .rxComplete _ | .rxByte _ =>
      SameMux s t ∧ t.rsStarted = s.rsStarted

/-- The interrupt taken is a pending one that can preempt the running context, and none that could be taken is more urgent;
if none is taken, none is pending that could preempt (60 R214, 00_scope R6). That no pending interrupt is masked or delayed
is the model's choice (log 29), and so is when each is pending (log 20). -/
def Obligations.MostUrgentInterruptIsTaken : Prop :=
  ∀ s : State,
    (∀ y, s.nextIrq = some y →
      s.pending y = true ∧ Config.canPreempt s.cfg y s.runningCtx = true ∧
      ∀ z, s.pending z = true → Config.canPreempt s.cfg z s.runningCtx = true →
        Config.prio s.cfg y ≤ Config.prio s.cfg z) ∧
    (s.nextIrq = none → ∀ z, s.pending z = true → Config.canPreempt s.cfg z s.runningCtx = false) ∧
    (∀ y x, y ≠ .main → (Config.canPreempt s.cfg y x = true ↔ Config.prio s.cfg y < Config.prio s.cfg x))

/-- An interrupt runs its handler's operation, from the state `u` that the platform's events leave, to its end or to where the
schedule cuts it, with all that it preempted kept below it: RX-complete clears the request and runs the transition that
`rx_state` and `RXBUF` select, TX-complete runs `TX.COMPLETE`, RNG value-ready takes the waiting byte and runs `RS.PRODUCE`
with it (60 R211 to R214). -/
def Obligations.InterruptRunsItsHandler : Prop :=
  ∀ s u : State, s.platformTick = .next u → u.halted = false →
    (u.nextIrq = some .irqRx →
      step s = u.launch (.rxComplete []) s.slot.cut ∧
      (s.slot.cut = none → u.rxReqOff + u.rxReqLen ≤ u.cfg.rxbufSize →
        ∃ i rest, decode (.framer u.rxState) (Memory.readN u.rxbuf 0 5) = .ok (i, rest) ∧
          step s = exec i { u with rxReqValid := false })) ∧
    (u.nextIrq = some .irqTx →
      step s = u.launch .txComplete s.slot.cut ∧ (s.slot.cut = none → step s = exec .txComplete u)) ∧
    (u.nextIrq = some .irqRng →
      step s = State.launch { u with rngReady := false } (.rsProduce u.rngData) s.slot.cut ∧
      (s.slot.cut = none → step s = exec (.rsProduce u.rngData) { u with rngReady := false })) ∧
    (u.nextIrq ≠ none → ∀ t, step s = .next t → u.stack <:+ t.stack)

/-- When the platform's flags are set. The transmission in flight has sent its last byte: TX-complete is pending (60 R212).
The generator, started by `RS.INIT`, has produced a byte and none waited: `rng_ready` is true, the byte waits and RNG
value-ready is pending (60 R213, R218). Without a transmission, before `RS.INIT`, or while a byte waits, nothing is set. In
the main loop with nothing else pending the same step takes the interrupt: that none is masked or delayed is the model's
choice (log 29). When a byte is produced is the model's input (logs 3, 21), and when an interrupt is pending its reading of
the spec (log 20). -/
def Obligations.PlatformSetsItsFlags : Prop :=
  ∀ (cut : Option Nat) (later : List Slot) (s : State),
    (s.sched = ⟨[.uartTx], cut⟩ :: later →
      (s.txFlight = true →
        ∃ u, u = { s with sched := later, txFlight := false, txDone := true } ∧ s.platformTick = .next u ∧
          u.pending .irqTx = true ∧
          (cut = none → s.halted = false → s.runningCtx = .main → s.rxPending = false → s.rngPending = false →
            step s = exec .txComplete u)) ∧
      (s.txFlight = false → s.platformTick = .next { s with sched := later })) ∧
    (s.sched = ⟨[.rngByte], cut⟩ :: later →
      (∀ b line, s.rngLine = b :: line → s.rsStarted = true → s.rngReady = false →
        ∃ u, u = { s with sched := later, rngReady := true, rngData := b, rngLine := line } ∧
          s.platformTick = .next u ∧ u.pending .irqRng = true ∧
          (cut = none → s.halted = false → s.runningCtx = .main → s.rxPending = false → s.txPending = false →
            step s = exec (.rsProduce b) { u with rngReady := false })) ∧
      (s.rsStarted = false ∨ s.rngReady = true ∨ s.rngLine = [] → s.platformTick = .next { s with sched := later }))

/-- An operation cut between any two of its micro-steps, with nothing done in between, ends as if it had not been cut: what
starts or goes on is either past its end, or on top of the stack in its context, and going on from there gives the outcome
of not being cut (20_memory R62). -/
def Obligations.CutOperationGoesOnWhereItWas : Prop :=
  (∀ (i : Instr) (k : Nat) (s : State), s.halted = false →
    s.launch i (some k) = exec i s ∨
      ∃ a t, s.launch i (some k) = .next t ∧ t.stack = a :: s.stack ∧ t.result = .unfinished ∧
        a.ctx = Instr.context i s.runningCtx ∧ State.proceed { t with stack := s.stack } a none = exec i s) ∧
  ∀ (a : Activation) (k : Nat) (s : State),
    s.proceed a (some k) = s.proceed a none ∨
      ∃ b t, s.proceed a (some k) = .next t ∧ t.stack = b :: s.stack ∧ t.result = .unfinished ∧ b.ctx = a.ctx ∧
        State.proceed { t with stack := s.stack } b none = s.proceed a none

/-- Contexts interleave by preemption only: a step starts something more urgent on top of what runs, or goes on with the
activation on top; what is below is not touched until what is above has ended (20_memory R62). -/
def Obligations.OnlyTheTopActivationGoesOn : Prop :=
  ∀ s t : State, step s = .next t →
    t.stack = s.stack ∨
      (∃ x, t.stack = x :: s.stack ∧
        (s.stack = [] ∨ (x.ctx ≠ .main ∧ Config.canPreempt s.cfg x.ctx s.runningCtx = true))) ∨
      ∃ a below, s.stack = a :: below ∧ (t.stack = below ∨ ∃ x, t.stack = x :: below ∧ x.ctx = a.ctx)

/-- Indices read before a preemption are used after it. A random byte whose producer has read `high` as full goes to `low`,
or is dropped where `low` is full, even if the preemption has made room in `high`. A vector take that has read the write
index finds too few bytes even if enough have been enqueued since; where it found enough it takes them as if it had not been
preempted. An enqueue that has found room stores as if it had not been preempted (20_memory R66). Which index is read first
is the model's choice (log 35), as is the form of a cut (logs 3, 34). -/
def Obligations.StaleIndexReadsAreSafe : Prop :=
  ∀ s : State, s.halted = false →
    (∀ b, (s.around .irqRng).producing = false → s.high.full = true → s.low.Wf →
      ∃ a t, s.launch (.rsProduce b) (some 1) = .next t ∧ t.stack = a :: s.stack ∧
        ∀ q, (s.low.full = false → ∃ l, State.proceed { t with stack := s.stack, high := q } a none =
            .next { s with high := q, low := l, result := .nothing } ∧ l.unread = s.low.unread ++ [b]) ∧
          (s.low.full = true → State.proceed { t with stack := s.stack, high := q } a none =
            .next { s with high := q, result := .nothing })) ∧
    (∀ (p : PoolId) (n : Nat), ∃ a t, s.launch (.ringTakev p n) (some 0) = .next t ∧ t.stack = a :: s.stack ∧
      ∀ q, q.r = (s.pool p).r →
        ((s.pool p).count < n →
          State.proceed (State.setPool { t with stack := s.stack } p q) a none =
            .next ((s.setPool p q).returns .notTaken)) ∧
        (n ≤ (s.pool p).count → n ≤ q.count →
          State.proceed (State.setPool { t with stack := s.stack } p q) a none =
            exec (.ringTakev p n) (s.setPool p q))) ∧
    (∀ (p : PoolId) (b : Byte), (s.pool p).full = false →
      ∃ a t, s.launch (.ringEnq p b) (some 1) = .next t ∧ t.stack = a :: s.stack ∧
        ∀ q, q.w = (s.pool p).w → q.full = false →
          State.proceed (State.setPool { t with stack := s.stack } p q) a none =
            exec (.ringEnq p b) (s.setPool p q))

/-! ## Reset and invariants -/

/-- What reset leaves, for every register and buffer whose reset value the spec gives (10_state R25, R26, R31, R37,
R40, R43). `tx_idle` and `tx_last_evt` are the spec's own values, which its source does not give (D8). -/
def Obligations.ResetLeavesTheStatedValues : Prop :=
  let s := State.reset
  s.high.w.val = 0 ∧ s.high.r.val = 0 ∧ s.low.w.val = 0 ∧ s.low.r.val = 0 ∧
  (∀ i < 65, Memory.read s.high.slots i = 0x00#8 ∧ Memory.read s.low.slots i = 0x00#8) ∧
  s.high.count = 0 ∧ s.high.empty = true ∧ s.high.full = false ∧
  s.low.count = 0 ∧ s.low.empty = true ∧ s.low.full = false ∧
  s.rsStarted = false ∧ s.rxState = .awaitingType ∧ s.rxReqValid = false ∧ s.rxGot = 0 ∧
  s.txIdle = true ∧ s.txLastEvt = false ∧ s.halted = false ∧ s.faultCode = 0 ∧ s.faultInfo = 0

/-- After reset and before start-up the block is inert: nothing runs by itself, however many steps pass and whatever bytes
the line and the RNG hold, as long as no operation is called (70 R231). -/
def Obligations.BlockIsInertAfterReset : Prop :=
  ∀ (k : Nat) (slots : List Slot) (line rng : List Byte),
    (∀ x ∈ slots, ∀ e ∈ x.events, ∀ info, e ≠ .initFailure info) →
    ∃ rem, runSteps k { State.reset with sched := slots, rxLine := line, rngLine := rng } =
      .next { State.reset with sched := rem, rxLine := line, rngLine := rng }

/-- The invariant holds right after reset. That no random byte waits and no TX-complete is pending then is the model's choice
(log 9). -/
def Obligations.ResetMeetsTheInvariant : Prop := State.reset.Inv

/-- Every step keeps the invariant: the byte spaces keep their canonical form and bounds; activations nest by urgency, at most
one of the framer and one of the multiplexer; between its operations the framer's sequencer has a shape of 10_state R29 and
the multiplexer is consistent, and an operation of theirs in progress ends so whatever the other units do meanwhile; the
fault latch stays consistent. -/
def Obligations.StepKeepsTheInvariant : Prop :=
  ∀ s t : State, s.Inv → step s = .next t → t.Inv

/-- From a state that meets the invariant no step accesses a byte that does not exist, in any of the four byte spaces
(20_memory R50 to R53). The fault by which the model would stop is its own (log 19). -/
def Obligations.NoAccessOutsideTheByteSpaces : Prop :=
  ∀ (s : State) (f : Fault), s.Inv → step s ≠ .fault f

/-! ## Encoding and the step -/

/-- Decoding the encoding of a well-formed instruction gives it back, with whatever bytes follow (30_encoding R95, R96). -/
def Obligations.DecodeOfEncodeIsIdentity : Prop :=
  ∀ (i : Instr) (rest : List Byte), i.wellFormed = true → decode i.source (encode i ++ rest) = .ok (i, rest)

/-- The other direction for the script: bytes that decode to an operation are its encoding and what follows, so no two
encodings stand for one operation, and the operation is well formed (30_encoding R96). -/
def Obligations.ScriptBytesAreTheEncoding : Prop :=
  ∀ (n : Nat) (bytes rest : List Byte) (i : Instr), decode (.script n) bytes = .ok (i, rest) →
    encode i ++ rest = bytes ∧ i.wellFormed = true

/-- The framer's decoder never rejects the five bytes it reads; what it selects is a well-formed transition of the receive
state, and under the type byte the state goes with, its encoding is those bytes (42 R153, 30_encoding section 4). -/
def Obligations.FramerAlwaysSelectsATransition : Prop :=
  ∀ (st : RxState) (b0 b1 b2 b3 b4 : Byte),
    ∃ i rest, decode (.framer st) [b0, b1, b2, b3, b4] = .ok (i, rest) ∧ i.wellFormed = true ∧
      i.source = .framer st ∧
      ((st = .awaitingCmdHeader → b0 = tCmd) → (st = .awaitingAclHeader → b0 = tAcl) →
        encode i ++ rest = [b0, b1, b2, b3, b4])

/-- Words written out from the encoding tables decode to the instructions they stand for (30_encoding sections 4 and 6). -/
def Obligations.WrittenOutWordsDecode : Prop :=
  decode (.framer .awaitingType) [0b00000001#8] = .ok (.rxTypeCmd, []) ∧
  decode (.framer .awaitingType) [0b00000010#8] = .ok (.rxTypeAcl, []) ∧
  decode (.framer .awaitingType) [0b00000100#8] = .ok (.rxTypeBad 0x04#8, []) ∧
  decode (.framer .awaitingAclHeader) [0b00000010#8, 0x01#8, 0x20#8, 0b00000000#8, 0b00000001#8] =
    .ok (.rxAclhdrNz 0x01#8 0x20#8 0x00#8 0x01#8, []) ∧
  decode (.script 0) [0b00010011#8, 0b00000001#8, 0x5A#8] = .ok (.ringEnq .low 0x5A#8, []) ∧
  decode (.script 0) [0b00100100#8, 0b00000011#8] = .ok (.rsGetlob 3, []) ∧
  decode (.script 2) [0b00110001#8, 0xAA#8, 0xBB#8] = .ok (.rxComplete [0xAA#8, 0xBB#8], []) ∧
  decode (.script 0) [0b01000000#8] = .ok (.txPoll, [])

/-- A step runs the decoded operation: the platform's events leave `u`; when `u` has no interrupt to take and nothing is in
progress, and its script's bytes decode to `i`, the step is `exec i` with the script behind the operation, or as much of it
as the schedule says. With something in progress the activation on top goes on; with an empty script nothing happens; bytes
that are no operation are refused. With nothing scheduled `u` is the state itself and nothing is cut. -/
def Obligations.StepRunsTheDecodedOperation : Prop :=
  ∀ s u : State, s.platformTick = .next u → u.halted = false → u.nextIrq = none →
    (s.sched = [] → u = s ∧ s.slot.cut = none) ∧
    (∀ i rest, u.stack = [] → decode (.script u.rxReqLen) u.script = .ok (i, rest) →
      step s = State.launch { u with script := rest } i s.slot.cut ∧
      (s.slot.cut = none → step s = exec i { u with script := rest })) ∧
    (∀ a below, u.stack = a :: below → step s = State.proceed { u with stack := below } a s.slot.cut) ∧
    (u.stack = [] → u.script = [] → step s = .next u) ∧
    (∀ e, u.stack = [] → u.script ≠ [] → decode (.script u.rxReqLen) u.script = .error e →
      step s = .refused (.badScript e))
end

