-- ==== Sys2Proof/Laws/Memory.lean ====
section
/-! SUPPORT. Laws/Memory.lean: reading after writing, and that every write keeps the canonical form and the bounds. -/

namespace Sys2Proof.Machine

@[simp] theorem Memory.read_nil (a : Nat) : Memory.read [] a = 0#8 := rfl

theorem Memory.wf_tail {c : Host.Cell} {m : Memory} (h : Memory.Wf (c :: m)) : Memory.Wf m :=
  ⟨(List.pairwise_cons.1 h.1).2, fun d hd => h.2 d (List.mem_cons_of_mem _ hd)⟩

theorem Memory.read_of_forall_ne {m : Memory} {a : Nat} (h : ∀ c ∈ m, c.1 ≠ a) : Memory.read m a = 0#8 := by
  induction m with
  | nil => rfl
  | cons c m ih =>
    obtain ⟨k, v⟩ := c
    have hk : k ≠ a := h (k, v) (by simp)
    simp [Memory.read, hk, ih fun d hd => h d (List.mem_cons_of_mem _ hd)]

theorem Memory.read_below {c : Host.Cell} {m : Memory} {a : Nat} (h : Memory.Wf (c :: m)) (ha : a ≤ c.1) :
    Memory.read m a = 0#8 :=
  Memory.read_of_forall_ne fun d hd => by
    have := (List.pairwise_cons.1 h.1).1 d hd
    omega

/-- A read after a write: the written byte at its offset, the old byte elsewhere. -/
theorem Memory.read_write {m : Memory} (h : Memory.Wf m) (a a' : Nat) (b : Byte) :
    Memory.read (Memory.write m a b) a' = if a' = a then b else Memory.read m a' := by
  induction m with
  | nil =>
    by_cases hb : b = 0#8 <;> by_cases ha : a' = a <;> simp [Memory.write, Memory.read, hb, ha]
    exact fun h => absurd h.symm ha
  | cons c m ih =>
    obtain ⟨k, v⟩ := c
    have hlow := fun (x : Nat) (hx : x ≤ k) => Memory.read_below h hx
    have ih := ih (Memory.wf_tail h)
    unfold Memory.write
    by_cases h1 : a < k
    · by_cases hb : b = 0#8
      · by_cases ha : a' = a
        · subst ha; simp [h1, hb, Memory.read, hlow a' (by omega)]; omega
        · simp [h1, hb, ha]
      · by_cases ha : a' = a
        · simp [h1, hb, ha, Memory.read]
        · simp [h1, hb, ha, Memory.read, Ne.symm ha]
    · by_cases h2 : a = k
      · subst h2
        by_cases hb : b = 0#8
        · by_cases ha : a' = a
          · subst ha; simp [hb, hlow a' (by omega)]
          · simp [hb, ha, Memory.read, Ne.symm ha]
        · by_cases ha : a' = a
          · simp [hb, ha, Memory.read]
          · simp [hb, ha, Memory.read, Ne.symm ha]
      · simp only [h1, h2, if_false, Memory.read, ih]
        by_cases hk : k = a'
        · subst hk; simp [Ne.symm h2]
        · simp [hk]

@[simp] theorem Memory.read_write_same {m : Memory} (h : Memory.Wf m) (a : Nat) (b : Byte) :
    Memory.read (Memory.write m a b) a = b := by simp [Memory.read_write h]

theorem Memory.read_write_ne {m : Memory} (h : Memory.Wf m) {a a' : Nat} (ha : a' ≠ a) (b : Byte) :
    Memory.read (Memory.write m a b) a' = Memory.read m a' := by simp [Memory.read_write h, ha]

theorem Memory.mem_write {m : Memory} {a : Nat} {b : Byte} {c : Host.Cell} (h : c ∈ Memory.write m a b) :
    c ∈ m ∨ (c = (a, b) ∧ b ≠ 0#8) := by
  induction m with
  | nil => by_cases hb : b = 0#8 <;> simp_all [Memory.write]
  | cons d m ih =>
    obtain ⟨k, v⟩ := d
    unfold Memory.write at h
    split at h
    · split at h
      · exact .inl h
      · rcases List.mem_cons.1 h with h | h
        · exact .inr ⟨h, by assumption⟩
        · exact .inl h
    · split at h
      · split at h
        · exact .inl (List.mem_cons_of_mem _ h)
        · rcases List.mem_cons.1 h with h | h
          · exact .inr ⟨h, by assumption⟩
          · exact .inl (List.mem_cons_of_mem _ h)
      · rcases List.mem_cons.1 h with h | h
        · exact .inl (h ▸ List.mem_cons_self)
        · exact (ih h).imp (List.mem_cons_of_mem _) id

/-- A write keeps the canonical form. -/
theorem Memory.write_wf {m : Memory} (h : Memory.Wf m) (a : Nat) (b : Byte) : Memory.Wf (Memory.write m a b) := by
  refine ⟨?_, fun c hc => ?_⟩
  · induction m with
    | nil => by_cases hb : b = 0#8 <;> simp [Memory.write, hb]
    | cons c m ih =>
      obtain ⟨k, v⟩ := c
      obtain ⟨hk, hm⟩ := List.pairwise_cons.1 h.1
      unfold Memory.write
      split
      · split
        · exact h.1
        · refine List.pairwise_cons.2 ⟨fun d hd => ?_, h.1⟩
          rcases List.mem_cons.1 hd with rfl | hd
          · assumption
          · have := hk d hd
            simp only at this ⊢
            omega
      · split
        · split
          · exact hm
          · subst a; exact List.pairwise_cons.2 ⟨hk, hm⟩
        · refine List.pairwise_cons.2 ⟨fun d hd => ?_, ih (Memory.wf_tail h)⟩
          rcases Memory.mem_write hd with hd | ⟨rfl, -⟩
          · exact hk d hd
          · simp only; omega
  · rcases Memory.mem_write hc with hc | ⟨rfl, hb⟩
    · exact h.2 c hc
    · exact hb

theorem Memory.write_within {m : Memory} {n : Nat} (h : Memory.Within m n) {a : Nat} (ha : a < n) (b : Byte) :
    Memory.Within (Memory.write m a b) n := fun c hc => by
  rcases Memory.mem_write hc with hc | ⟨rfl, -⟩
  · exact h c hc
  · exact ha

theorem Memory.writeN_wf {m : Memory} (h : Memory.Wf m) (a : Nat) (bs : List Byte) :
    Memory.Wf (Memory.writeN m a bs) := by
  induction bs generalizing m a with
  | nil => exact h
  | cons b bs ih => exact ih (Memory.write_wf h a b) (a + 1)

theorem Memory.writeN_within {m : Memory} {n : Nat} (h : Memory.Within m n) {a : Nat} (bs : List Byte)
    (ha : a + bs.length ≤ n) : Memory.Within (Memory.writeN m a bs) n := by
  induction bs generalizing m a with
  | nil => exact h
  | cons b bs ih =>
    simp only [List.length_cons] at ha
    exact ih (Memory.write_within h (by omega) b) (by omega)

/-- A read after writing `bs` at `a`: the byte written there, the old byte elsewhere. -/
theorem Memory.read_writeN {m : Memory} (h : Memory.Wf m) (a a' : Nat) (bs : List Byte) :
    Memory.read (Memory.writeN m a bs) a' =
      if a ≤ a' ∧ a' < a + bs.length then bs.getD (a' - a) 0#8 else Memory.read m a' := by
  induction bs generalizing m a with
  | nil => rw [if_neg (by simp)]; rfl
  | cons b bs ih =>
    rw [Memory.writeN, ih (Memory.write_wf h a b), Memory.read_write h, List.length_cons]
    by_cases h1 : a' = a
    · subst h1
      rw [if_neg (by omega), if_pos rfl, if_pos (by omega)]
      simp
    · by_cases h2 : a + 1 ≤ a' ∧ a' < a + 1 + bs.length
      · rw [if_pos h2, if_pos (by omega), show a' - a = (a' - (a + 1)) + 1 by omega, List.getD_cons_succ]
      · rw [if_neg h2, if_neg h1, if_neg (by omega)]

theorem Memory.writeN_append (m : Memory) (a : Nat) (bs cs : List Byte) :
    Memory.writeN m a (bs ++ cs) = Memory.writeN (Memory.writeN m a bs) (a + bs.length) cs := by
  induction bs generalizing m a with
  | nil => rfl
  | cons b bs ih => simp [Memory.writeN, ih, Nat.add_assoc, Nat.add_comm 1]

@[simp] theorem Memory.length_readN (m : Memory) (a n : Nat) : (Memory.readN m a n).length = n := by
  induction n generalizing a with
  | zero => rfl
  | succ n ih => simp [Memory.readN, ih]

theorem Memory.readN_congr {m m' : Memory} {a n : Nat} (h : ∀ x, a ≤ x → x < a + n → Memory.read m x = Memory.read m' x) :
    Memory.readN m a n = Memory.readN m' a n := by
  induction n generalizing a with
  | zero => rfl
  | succ n ih =>
    rw [Memory.readN, Memory.readN, h a (by omega) (by omega), ih fun x hx hx' => h x (by omega) (by omega)]

theorem Memory.readN_add (m : Memory) (a n k : Nat) :
    Memory.readN m a (n + k) = Memory.readN m a n ++ Memory.readN m (a + n) k := by
  induction n generalizing a with
  | zero => simp [Memory.readN]
  | succ n ih =>
    rw [show n + 1 + k = (n + k) + 1 by omega, Memory.readN, Memory.readN, ih]
    simp [show a + 1 + n = a + (n + 1) by omega]

/-- Reading back exactly what was written. -/
theorem Memory.readN_writeN {m : Memory} (h : Memory.Wf m) (a : Nat) (bs : List Byte) :
    Memory.readN (Memory.writeN m a bs) a bs.length = bs := by
  induction bs generalizing m a with
  | nil => rfl
  | cons b bs ih =>
    rw [List.length_cons, Memory.readN, Memory.writeN, ih (Memory.write_wf h a b),
      Memory.read_writeN (Memory.write_wf h a b), if_neg (by omega), Memory.read_write_same h]

end Sys2Proof.Machine
end

