-- ==== Sys2Proof/Laws/Atomic.lean ====
section
/-! SUPPORT. Laws/Atomic.lean: the operations of a pool and of RandomSource as single updates, the handy form of their
programs run without interruption; Laws/Run.lean proves the two equal. -/

namespace Sys2Proof.Machine

/-- `RING.INIT` on a pool (40 R111). -/
def RingPool.init (p : RingPool) : RingPool := { p with w := 0, r := 0 }

/-- The slot write of an enqueue (40 R114). -/
def RingPool.enqStore (p : RingPool) (b : Byte) : RingPool := { p with slots := Memory.write p.slots p.w.val b }

/-- The index write of an enqueue (40 R114). -/
def RingPool.enqPublish (p : RingPool) : RingPool := { p with w := nextIndex p.w }

/-- `RING.ENQ` on a pool (40 R114, R115). -/
def RingPool.enq (p : RingPool) (b : Byte) : Option RingPool :=
  if p.full then none else some (p.enqStore b).enqPublish

/-- The slot read of a dequeue (40 R116). -/
def RingPool.deqLoad (p : RingPool) : Byte := Memory.read p.slots p.r.val

/-- The index write of a dequeue (40 R116). -/
def RingPool.deqRelease (p : RingPool) : RingPool := { p with r := nextIndex p.r }

/-- `RING.DEQ` on a pool (40 R116, R117). -/
def RingPool.deq (p : RingPool) : Option (Byte × RingPool) :=
  if p.empty then none else some (p.deqLoad, p.deqRelease)

/-- `n` dequeues in a row (40 R118). -/
def RingPool.deqN : Nat → RingPool → Option (List Byte × RingPool)
  | 0, p => some ([], p)
  | n + 1, p =>
    match p.deq with
    | none => none
    | some (b, q) =>
      match RingPool.deqN n q with
      | none => none
      | some (bs, q') => some (b :: bs, q')

/-- `RING.TAKEV` on a pool (40 R118). -/
def RingPool.takev (p : RingPool) (n : Nat) : Option (List Byte × RingPool) :=
  if p.count < n then none else RingPool.deqN n p

/-- A vector take from a pool of the block (40 R118). -/
def State.take (s : State) (p : PoolId) (n : Nat) : Result × State :=
  match (s.pool p).takev n with
  | none => (.notTaken, s)
  | some (bs, q) => (.taken bs, s.setPool p q)

/-- An enqueue on a pool of the block (40 R114, R115). -/
def State.enqueue (s : State) (p : PoolId) (b : Byte) : Result × State :=
  match (s.pool p).enq b with
  | none => (.capacity, s)
  | some q => (.ok, s.setPool p q)

/-- A dequeue on a pool of the block (40 R116, R117). -/
def State.dequeue (s : State) (p : PoolId) : Result × State :=
  match (s.pool p).deq with
  | none => (.underflow, s)
  | some (b, q) => (.byte b, s.setPool p q)

/-- Routing of one produced byte (41 R132). -/
def State.produce (s : State) (b : Byte) : State :=
  if !s.high.full then (s.enqueue .high b).2
  else if !s.low.full then (s.enqueue .low b).2
  else s

/-- The RNG interrupt handler logic run once (60 R213, R218). -/
def State.pump (s : State) : State := s.takeRngByte.produce s.rngData

end Sys2Proof.Machine
end

