-- ==== Sys2Proof/Laws/Decode.lean ====
section
/-! SUPPORT. Laws/Decode.lean: what the script's decoder can answer. -/

namespace Sys2Proof

@[simp] theorem poolOfCode_code (p : PoolId) : poolOfCode p.code = some p := by cases p <;> rfl

theorem code_of_poolOfCode {b : Byte} {p : PoolId} (h : poolOfCode b = some p) : b = p.code := by
  unfold poolOfCode at h
  split at h
  · cases h; assumption
  · split at h
    · cases h; assumption
    · cases h

/-- A script holds operations, no framer transitions (30_encoding R96). -/
def Instr.isOperation : Instr → Bool
  | .rxTypeCmd | .rxTypeAcl | .rxTypeBad _ | .rxCmdhdrZ _ _ | .rxCmdhdrNz _ _ _ | .rxAclhdrZ _ _
  | .rxAclhdrNz _ _ _ _ | .rxPayload => false
  | _ => true

theorem readPool_ok {f : PoolId → Instr} {bs rest : List Byte} {i : Instr} (h : readPool f bs = .ok (i, rest)) :
    ∃ p, i = f p ∧ bs = p.code :: rest := by
  unfold readPool at h
  split at h
  · cases h
  · split at h
    · rename_i hp; cases h; exact ⟨_, rfl, by rw [code_of_poolOfCode hp]⟩
    · cases h

theorem readByte_ok {f : Byte → Instr} {bs rest : List Byte} {i : Instr} (h : readByte f bs = .ok (i, rest)) :
    ∃ b, i = f b ∧ bs = b :: rest := by
  unfold readByte at h
  split at h
  · cases h
  · cases h; exact ⟨_, rfl, rfl⟩

theorem readCount_ok {f : Nat → Instr} {bs rest : List Byte} {i : Instr} (h : readCount f bs = .ok (i, rest)) :
    ∃ b : Byte, i = f b.toNat ∧ bs = b :: rest := by
  unfold readCount at h
  split at h
  · cases h
  · cases h; exact ⟨_, rfl, rfl⟩

theorem readPoolByte_ok {f : PoolId → Byte → Instr} {bs rest : List Byte} {i : Instr}
    (h : readPoolByte f bs = .ok (i, rest)) : ∃ p b, i = f p b ∧ bs = p.code :: b :: rest := by
  unfold readPoolByte at h
  split at h
  · split at h
    · rename_i hp; cases h; exact ⟨_, _, rfl, by rw [code_of_poolOfCode hp]⟩
    · cases h
  · cases h

theorem readBytes_ok {n : Nat} {f : List Byte → Instr} {bs rest : List Byte} {i : Instr}
    (h : readBytes n f bs = .ok (i, rest)) : ∃ cs, i = f cs ∧ bs = cs ++ rest ∧ cs.length = n := by
  unfold readBytes at h
  split at h
  · cases h; exact ⟨_, rfl, (List.take_append_drop n bs).symm, by simpa⟩
  · cases h

/-- Everything the script's decoder can answer: the op-select code and its operands (30_encoding R96). -/
inductive ScriptReads (n : Nat) : List Byte → Instr → List Byte → Prop
  | ringInit (p rest) : ScriptReads n (0x10#8 :: PoolId.code p :: rest) (.ringInit p) rest
  | ringIsfull (p rest) : ScriptReads n (0x11#8 :: PoolId.code p :: rest) (.ringIsfull p) rest
  | ringCount (p rest) : ScriptReads n (0x12#8 :: PoolId.code p :: rest) (.ringCount p) rest
  | ringEnq (p b rest) : ScriptReads n (0x13#8 :: PoolId.code p :: b :: rest) (.ringEnq p b) rest
  | ringDeq (p rest) : ScriptReads n (0x14#8 :: PoolId.code p :: rest) (.ringDeq p) rest
  | ringTakev (p) (b : Byte) (rest) : ScriptReads n (0x15#8 :: PoolId.code p :: b :: rest) (.ringTakev p b.toNat) rest
  | rsInit (rest) : ScriptReads n (0x20#8 :: rest) .rsInit rest
  | rsProduce (b rest) : ScriptReads n (0x21#8 :: b :: rest) (.rsProduce b) rest
  | rsGethi (b : Byte) (rest) : ScriptReads n (0x22#8 :: b :: rest) (.rsGethi b.toNat) rest
  | rsGetlo (b : Byte) (rest) : ScriptReads n (0x23#8 :: b :: rest) (.rsGetlo b.toNat) rest
  | rsGetlob (b : Byte) (rest) : ScriptReads n (0x24#8 :: b :: rest) (.rsGetlob b.toNat) rest
  | rxStart (rest) : ScriptReads n (0x30#8 :: rest) .rxStart rest
  | rxComplete (bs rest : List Byte) (len : bs.length = n) : ScriptReads n (0x31#8 :: (bs ++ rest)) (.rxComplete bs) rest
  | rxByte (b rest) : ScriptReads n (0x32#8 :: b :: rest) (.rxByte b) rest
  | txPoll (rest) : ScriptReads n (0x40#8 :: rest) .txPoll rest
  | txComplete (rest) : ScriptReads n (0x41#8 :: rest) .txComplete rest

theorem decodeOp_ok {n : Nat} {op : Byte} {bs rest : List Byte} {i : Instr} (h : decodeOp n op bs = .ok (i, rest)) :
    ScriptReads n (op :: bs) i rest := by
  unfold decodeOp at h
  by_cases e : op = 0x10#8
  · rw [if_pos e] at h; obtain ⟨p, rfl, rfl⟩ := readPool_ok h; rw [e]; exact .ringInit ..
  rw [if_neg e] at h
  by_cases e : op = 0x11#8
  · rw [if_pos e] at h; obtain ⟨p, rfl, rfl⟩ := readPool_ok h; rw [e]; exact .ringIsfull ..
  rw [if_neg e] at h
  by_cases e : op = 0x12#8
  · rw [if_pos e] at h; obtain ⟨p, rfl, rfl⟩ := readPool_ok h; rw [e]; exact .ringCount ..
  rw [if_neg e] at h
  by_cases e : op = 0x13#8
  · rw [if_pos e] at h; obtain ⟨p, b, rfl, rfl⟩ := readPoolByte_ok h; rw [e]; exact .ringEnq ..
  rw [if_neg e] at h
  by_cases e : op = 0x14#8
  · rw [if_pos e] at h; obtain ⟨p, rfl, rfl⟩ := readPool_ok h; rw [e]; exact .ringDeq ..
  rw [if_neg e] at h
  by_cases e : op = 0x15#8
  · rw [if_pos e] at h; obtain ⟨p, b, rfl, rfl⟩ := readPoolByte_ok h; rw [e]; exact .ringTakev ..
  rw [if_neg e] at h
  by_cases e : op = 0x20#8
  · rw [if_pos e] at h; cases h; rw [e]; exact .rsInit _
  rw [if_neg e] at h
  by_cases e : op = 0x21#8
  · rw [if_pos e] at h; obtain ⟨b, rfl, rfl⟩ := readByte_ok h; rw [e]; exact .rsProduce ..
  rw [if_neg e] at h
  by_cases e : op = 0x22#8
  · rw [if_pos e] at h; obtain ⟨b, rfl, rfl⟩ := readCount_ok h; rw [e]; exact .rsGethi ..
  rw [if_neg e] at h
  by_cases e : op = 0x23#8
  · rw [if_pos e] at h; obtain ⟨b, rfl, rfl⟩ := readCount_ok h; rw [e]; exact .rsGetlo ..
  rw [if_neg e] at h
  by_cases e : op = 0x24#8
  · rw [if_pos e] at h; obtain ⟨b, rfl, rfl⟩ := readCount_ok h; rw [e]; exact .rsGetlob ..
  rw [if_neg e] at h
  by_cases e : op = 0x30#8
  · rw [if_pos e] at h; cases h; rw [e]; exact .rxStart _
  rw [if_neg e] at h
  by_cases e : op = 0x31#8
  · rw [if_pos e] at h; obtain ⟨cs, rfl, rfl, hl⟩ := readBytes_ok h; rw [e]; exact .rxComplete _ _ hl
  rw [if_neg e] at h
  by_cases e : op = 0x32#8
  · rw [if_pos e] at h; obtain ⟨b, rfl, rfl⟩ := readByte_ok h; rw [e]; exact .rxByte ..
  rw [if_neg e] at h
  by_cases e : op = 0x40#8
  · rw [if_pos e] at h; cases h; rw [e]; exact .txPoll _
  rw [if_neg e] at h
  by_cases e : op = 0x41#8
  · rw [if_pos e] at h; cases h; rw [e]; exact .txComplete _
  rw [if_neg e] at h
  cases h

theorem decode_script_ok {n : Nat} {bs rest : List Byte} {i : Instr} (h : decode (.script n) bs = .ok (i, rest)) :
    ScriptReads n bs i rest := by
  cases bs with
  | nil => cases h
  | cons op bs => exact decodeOp_ok h

theorem ScriptReads.isOperation {n : Nat} {bs rest : List Byte} {i : Instr} (h : ScriptReads n bs i rest) :
    i.isOperation = true := by cases h <;> rfl

end Sys2Proof
end

