-- ==== Sys2Proof/Laws/Ring.lean ====
section
/-! SUPPORT. Laws/Ring.lean: the arithmetic of the ring (40 R110) and what each pool operation does to the unread bytes. -/

namespace Sys2Proof.Machine

@[simp] theorem nextIndex_val (i : Fin ringS) : (nextIndex i).val = (i.val + 1) % ringS := rfl
@[simp] theorem slotAfter_val (r : Fin ringS) (i : Nat) : (slotAfter r i).val = (r.val + i) % ringS := rfl

@[simp] theorem RingPool.enqStore_w (p : RingPool) (b : Byte) : (p.enqStore b).w = p.w := rfl
@[simp] theorem RingPool.enqStore_r (p : RingPool) (b : Byte) : (p.enqStore b).r = p.r := rfl
@[simp] theorem RingPool.enqStore_slots (p : RingPool) (b : Byte) :
    (p.enqStore b).slots = Memory.write p.slots p.w.val b := rfl
@[simp] theorem RingPool.enqPublish_w (p : RingPool) : p.enqPublish.w = nextIndex p.w := rfl
@[simp] theorem RingPool.enqPublish_r (p : RingPool) : p.enqPublish.r = p.r := rfl
@[simp] theorem RingPool.enqPublish_slots (p : RingPool) : p.enqPublish.slots = p.slots := rfl
@[simp] theorem RingPool.deqRelease_w (p : RingPool) : p.deqRelease.w = p.w := rfl
@[simp] theorem RingPool.deqRelease_r (p : RingPool) : p.deqRelease.r = nextIndex p.r := rfl
@[simp] theorem RingPool.deqRelease_slots (p : RingPool) : p.deqRelease.slots = p.slots := rfl
@[simp] theorem RingPool.init_w (p : RingPool) : p.init.w = 0 := rfl
@[simp] theorem RingPool.init_r (p : RingPool) : p.init.r = 0 := rfl
@[simp] theorem RingPool.init_slots (p : RingPool) : p.init.slots = p.slots := rfl

theorem RingPool.count_le (p : RingPool) : p.count ≤ ringC := by
  have := Nat.mod_lt (p.w.val + ringS - p.r.val) (show ringS > 0 by decide)
  unfold RingPool.count unreadCount
  simp only [ringS, ringC] at *
  omega

theorem RingPool.full_iff (p : RingPool) : p.full = true ↔ p.count = ringC := by
  have hw := p.w.isLt
  have hr := p.r.isLt
  simp only [RingPool.full, beq_iff_eq, Fin.ext_iff, nextIndex_val, RingPool.count, unreadCount]
  simp only [ringS, ringC] at *
  omega

theorem RingPool.empty_iff (p : RingPool) : p.empty = true ↔ p.count = 0 := by
  have hw := p.w.isLt
  have hr := p.r.isLt
  simp only [RingPool.empty, beq_iff_eq, Fin.ext_iff, RingPool.count, unreadCount]
  simp only [ringS, ringC] at *
  omega

theorem RingPool.not_full_iff (p : RingPool) : p.full = false ↔ p.count < ringC := by
  have := p.count_le
  rw [← Bool.not_eq_true, p.full_iff]
  omega

theorem RingPool.not_empty_iff (p : RingPool) : p.empty = false ↔ 0 < p.count := by
  rw [← Bool.not_eq_true, p.empty_iff]
  omega

/-- The count is the difference of the indices reduced mod `S`, as an integer (10_state R22). -/
theorem RingPool.count_int (p : RingPool) : (p.count : Int) = ((p.w.val : Int) - p.r.val) % 65 := by
  have hw := p.w.isLt
  have hr := p.r.isLt
  simp only [RingPool.count, unreadCount]
  simp only [ringS, ringC] at *
  omega

/-- The write index is `count` places after the read index. -/
theorem RingPool.w_eq (p : RingPool) : p.w.val = (p.r.val + p.count) % ringS := by
  have hw := p.w.isLt
  have hr := p.r.isLt
  simp only [RingPool.count, unreadCount]
  simp only [ringS, ringC] at *
  omega

theorem RingPool.enq_count {p : RingPool} (h : p.full = false) (b : Byte) :
    (p.enqStore b).enqPublish.count = p.count + 1 := by
  have hw := p.w.isLt
  have hr := p.r.isLt
  have := p.not_full_iff.1 h
  simp only [RingPool.count, unreadCount, RingPool.enqPublish_w, RingPool.enqPublish_r, RingPool.enqStore_w, RingPool.enqStore_r,
    nextIndex_val] at *
  simp only [ringS, ringC] at *
  omega

theorem RingPool.deq_count {p : RingPool} (h : p.empty = false) : p.deqRelease.count + 1 = p.count := by
  have hw := p.w.isLt
  have hr := p.r.isLt
  have := p.not_empty_iff.1 h
  simp only [RingPool.count, unreadCount, RingPool.deqRelease_w, RingPool.deqRelease_r, nextIndex_val] at *
  simp only [ringS, ringC] at *
  omega

@[simp] theorem RingPool.length_unread (p : RingPool) : p.unread.length = p.count := by simp [RingPool.unread]

theorem RingPool.unread_congr {p q : RingPool} (hr : q.r = p.r) (hc : q.count = p.count)
    (hs : ∀ i < p.count, Memory.read q.slots (slotAfter p.r i).val = Memory.read p.slots (slotAfter p.r i).val) :
    q.unread = p.unread := by
  simp only [RingPool.unread, hr, hc]
  exact List.map_congr_left fun i hi => hs i (List.mem_range.1 hi)

/-- Publish order: the slot write alone shows the consumer nothing (20_memory R63). -/
theorem RingPool.enqStore_unread {p : RingPool} (hm : Memory.Wf p.slots) (b : Byte) :
    (p.enqStore b).unread = p.unread := by
  refine RingPool.unread_congr rfl rfl fun i hi => ?_
  have hw := p.w_eq
  have hr := p.r.isLt
  have hc := p.count_le
  refine Memory.read_write_ne hm ?_ b
  simp only [slotAfter_val]
  simp only [ringS, ringC] at *
  omega

/-- An enqueue appends its byte (40 R114, R120). -/
theorem RingPool.enq_unread {p : RingPool} (hm : Memory.Wf p.slots) (h : p.full = false) (b : Byte) :
    (p.enqStore b).enqPublish.unread = p.unread ++ [b] := by
  have hold := RingPool.enqStore_unread hm b
  simp only [RingPool.unread, RingPool.enq_count h, List.range_succ, List.map_append, List.map_cons, List.map_nil,
    RingPool.enqPublish_r, RingPool.enqPublish_slots, RingPool.enqStore_r] at *
  rw [show (p.enqStore b).count = p.count from rfl] at hold
  rw [hold]
  congr 2
  have hw := p.w_eq
  rw [RingPool.enqStore_slots, slotAfter_val, ← hw, Memory.read_write_same hm]

/-- A dequeue takes the oldest byte (40 R116, R120). -/
theorem RingPool.deq_unread {p : RingPool} (h : p.empty = false) :
    p.unread = p.deqLoad :: p.deqRelease.unread := by
  have hc := RingPool.deq_count h
  have hr := p.r.isLt
  simp only [RingPool.unread]
  rw [← hc, List.range_succ_eq_map, List.map_cons, List.map_map]
  congr 1
  · simp only [RingPool.deqLoad, slotAfter_val]
    congr 1
    simp only [ringS, ringC] at *
    omega
  · refine List.map_congr_left fun i _ => ?_
    simp only [Function.comp, RingPool.deqRelease_slots, RingPool.deqRelease_r, slotAfter_val, nextIndex_val]
    congr 1
    simp only [ringS, ringC] at *
    omega

/-- What an enqueue can do (40 R114, R115). -/
theorem RingPool.enq_eq_some {p q : RingPool} {b : Byte} (h : p.enq b = some q) :
    p.full = false ∧ q = (p.enqStore b).enqPublish := by
  unfold RingPool.enq at h
  split at h
  · cases h
  · exact ⟨by simp_all, by simpa using h.symm⟩

theorem RingPool.enq_of_not_full {p : RingPool} (h : p.full = false) (b : Byte) :
    p.enq b = some (p.enqStore b).enqPublish := by simp [RingPool.enq, h]

theorem RingPool.enq_of_full {p : RingPool} (h : p.full = true) (b : Byte) : p.enq b = none := by
  simp [RingPool.enq, h]

theorem RingPool.deq_of_not_empty {p : RingPool} (h : p.empty = false) :
    p.deq = some (p.deqLoad, p.deqRelease) := by simp [RingPool.deq, h]

theorem RingPool.deq_of_empty {p : RingPool} (h : p.empty = true) : p.deq = none := by simp [RingPool.deq, h]

/-- `n` dequeues of a pool that holds `n` bytes return them in order and advance the read index `n` times (40 R118). -/
theorem RingPool.deqN_of_le {p : RingPool} {n : Nat} (h : n ≤ p.count) :
    ∃ q, RingPool.deqN n p = some (p.unread.take n, q) ∧ q.w = p.w ∧ q.slots = p.slots ∧
      q.r.val = (p.r.val + n) % ringS ∧ q.unread = p.unread.drop n ∧ q.count + n = p.count := by
  induction n generalizing p with
  | zero => exact ⟨p, by simp [RingPool.deqN], rfl, rfl, by have := p.r.isLt; simp [Nat.mod_eq_of_lt this], by simp, by simp⟩
  | succ n ih =>
    have he := p.not_empty_iff.2 (by omega)
    have hc := RingPool.deq_count he
    obtain ⟨q, h1, h2, h3, h4, h5, h6⟩ := ih (p := p.deqRelease) (by omega)
    refine ⟨q, ?_, h2, h3, ?_, ?_, by omega⟩
    · simp [RingPool.deqN, RingPool.deq_of_not_empty he, h1, RingPool.deq_unread he]
    · rw [h4, RingPool.deqRelease_r, nextIndex_val]
      simp only [ringS, ringC] at *
      omega
    · rw [h5, RingPool.deq_unread he, List.drop_succ_cons]

/-- A vector take that succeeds (40 R118). -/
theorem RingPool.takev_of_le {p : RingPool} {n : Nat} (h : n ≤ p.count) :
    ∃ q, p.takev n = some (p.unread.take n, q) ∧ q.w = p.w ∧ q.slots = p.slots ∧
      q.r.val = (p.r.val + n) % ringS ∧ q.unread = p.unread.drop n ∧ q.count + n = p.count := by
  obtain ⟨q, h1, h2⟩ := RingPool.deqN_of_le h
  exact ⟨q, by simp [RingPool.takev, Nat.not_lt.2 h, h1], h2⟩

/-- A vector take that fails consumes nothing (40 R118). -/
theorem RingPool.takev_of_gt {p : RingPool} {n : Nat} (h : p.count < n) : p.takev n = none := by
  simp [RingPool.takev, h]

/-- What a vector take can do (40 R118). -/
theorem RingPool.takev_cases (p : RingPool) (n : Nat) :
    (p.count < n ∧ p.takev n = none) ∨
    (n ≤ p.count ∧ ∃ q, p.takev n = some (p.unread.take n, q) ∧ q.w = p.w ∧ q.slots = p.slots ∧
      q.r.val = (p.r.val + n) % ringS ∧ q.unread = p.unread.drop n ∧ q.count + n = p.count) := by
  rcases Nat.lt_or_ge p.count n with h | h
  · exact .inl ⟨h, RingPool.takev_of_gt h⟩
  · exact .inr ⟨h, RingPool.takev_of_le h⟩

/-- Every pool operation keeps the slots' canonical form and bounds. -/
theorem RingPool.enq_wf {p q : RingPool} {b : Byte} (h : p.enq b = some q) (hp : p.Wf) : q.Wf := by
  obtain ⟨-, rfl⟩ := RingPool.enq_eq_some h
  exact ⟨Memory.write_wf hp.1 _ _, Memory.write_within hp.2 p.w.isLt b⟩

theorem RingPool.takev_wf {p q : RingPool} {n : Nat} {bs : List Byte} (h : p.takev n = some (bs, q)) (hp : p.Wf) :
    q.Wf := by
  rcases p.takev_cases n with ⟨-, h'⟩ | ⟨-, q', h', -, hs, -⟩
  · simp [h'] at h
  · rw [h'] at h
    obtain ⟨-, rfl⟩ := Prod.mk.inj (Option.some.inj h)
    simpa [RingPool.Wf, hs] using hp

theorem RingPool.init_wf {p : RingPool} (hp : p.Wf) : p.init.Wf := hp

theorem RingPool.deq_wf {p q : RingPool} {b : Byte} (h : p.deq = some (b, q)) (hp : p.Wf) : q.Wf := by
  unfold RingPool.deq at h
  split at h
  · cases h
  · obtain ⟨-, rfl⟩ := Prod.mk.inj (Option.some.inj h)
    exact hp

end Sys2Proof.Machine
end

