-- ==== Sys2Proof/Laws/State.lean ====
section
/-! SUPPORT. Laws/State.lean: one lemma per field per named update of the state. -/

namespace Sys2Proof.Machine

/-! `State.returns` -/

@[simp] theorem State.returns_cfg (s : State) (r : Result) : (s.returns r).cfg = s.cfg := rfl
@[simp] theorem State.returns_high (s : State) (r : Result) : (s.returns r).high = s.high := rfl
@[simp] theorem State.returns_low (s : State) (r : Result) : (s.returns r).low = s.low := rfl
@[simp] theorem State.returns_rsStarted (s : State) (r : Result) : (s.returns r).rsStarted = s.rsStarted := rfl
@[simp] theorem State.returns_rxState (s : State) (r : Result) : (s.returns r).rxState = s.rxState := rfl
@[simp] theorem State.returns_rxReqValid (s : State) (r : Result) : (s.returns r).rxReqValid = s.rxReqValid := rfl
@[simp] theorem State.returns_rxReqOff (s : State) (r : Result) : (s.returns r).rxReqOff = s.rxReqOff := rfl
@[simp] theorem State.returns_rxReqLen (s : State) (r : Result) : (s.returns r).rxReqLen = s.rxReqLen := rfl
@[simp] theorem State.returns_rxGot (s : State) (r : Result) : (s.returns r).rxGot = s.rxGot := rfl
@[simp] theorem State.returns_rxbuf (s : State) (r : Result) : (s.returns r).rxbuf = s.rxbuf := rfl
@[simp] theorem State.returns_txLastEvt (s : State) (r : Result) : (s.returns r).txLastEvt = s.txLastEvt := rfl
@[simp] theorem State.returns_txIdle (s : State) (r : Result) : (s.returns r).txIdle = s.txIdle := rfl
@[simp] theorem State.returns_txLen (s : State) (r : Result) : (s.returns r).txLen = s.txLen := rfl
@[simp] theorem State.returns_txbuf (s : State) (r : Result) : (s.returns r).txbuf = s.txbuf := rfl
@[simp] theorem State.returns_halted (s : State) (r : Result) : (s.returns r).halted = s.halted := rfl
@[simp] theorem State.returns_faultCode (s : State) (r : Result) : (s.returns r).faultCode = s.faultCode := rfl
@[simp] theorem State.returns_faultInfo (s : State) (r : Result) : (s.returns r).faultInfo = s.faultInfo := rfl
@[simp] theorem State.returns_rngReady (s : State) (r : Result) : (s.returns r).rngReady = s.rngReady := rfl
@[simp] theorem State.returns_rngData (s : State) (r : Result) : (s.returns r).rngData = s.rngData := rfl
@[simp] theorem State.returns_txFlight (s : State) (r : Result) : (s.returns r).txFlight = s.txFlight := rfl
@[simp] theorem State.returns_txDone (s : State) (r : Result) : (s.returns r).txDone = s.txDone := rfl
@[simp] theorem State.returns_ctx (s : State) (r : Result) : (s.returns r).ctx = s.ctx := rfl
@[simp] theorem State.returns_stack (s : State) (r : Result) : (s.returns r).stack = s.stack := rfl
@[simp] theorem State.returns_script (s : State) (r : Result) : (s.returns r).script = s.script := rfl
@[simp] theorem State.returns_sched (s : State) (r : Result) : (s.returns r).sched = s.sched := rfl
@[simp] theorem State.returns_rxLine (s : State) (r : Result) : (s.returns r).rxLine = s.rxLine := rfl
@[simp] theorem State.returns_rngLine (s : State) (r : Result) : (s.returns r).rngLine = s.rngLine := rfl
@[simp] theorem State.returns_ctlIngest (s : State) (r : Result) : (s.returns r).ctlIngest = s.ctlIngest := rfl
@[simp] theorem State.returns_ctlEvents (s : State) (r : Result) : (s.returns r).ctlEvents = s.ctlEvents := rfl
@[simp] theorem State.returns_ctlDatas (s : State) (r : Result) : (s.returns r).ctlDatas = s.ctlDatas := rfl
@[simp] theorem State.returns_result (s : State) (r : Result) : (s.returns r).result = r := rfl
@[simp] theorem State.returns_delivered (s : State) (r : Result) : (s.returns r).delivered = s.delivered := rfl
@[simp] theorem State.returns_sent (s : State) (r : Result) : (s.returns r).sent = s.sent := rfl
@[simp] theorem State.returns_ctlGot (s : State) (r : Result) : (s.returns r).ctlGot = s.ctlGot := rfl

/-! `State.suspend` -/

@[simp] theorem State.suspend_cfg (s : State) (a : Activation) : (s.suspend a).cfg = s.cfg := rfl
@[simp] theorem State.suspend_high (s : State) (a : Activation) : (s.suspend a).high = s.high := rfl
@[simp] theorem State.suspend_low (s : State) (a : Activation) : (s.suspend a).low = s.low := rfl
@[simp] theorem State.suspend_rsStarted (s : State) (a : Activation) : (s.suspend a).rsStarted = s.rsStarted := rfl
@[simp] theorem State.suspend_rxState (s : State) (a : Activation) : (s.suspend a).rxState = s.rxState := rfl
@[simp] theorem State.suspend_rxReqValid (s : State) (a : Activation) : (s.suspend a).rxReqValid = s.rxReqValid := rfl
@[simp] theorem State.suspend_rxReqOff (s : State) (a : Activation) : (s.suspend a).rxReqOff = s.rxReqOff := rfl
@[simp] theorem State.suspend_rxReqLen (s : State) (a : Activation) : (s.suspend a).rxReqLen = s.rxReqLen := rfl
@[simp] theorem State.suspend_rxGot (s : State) (a : Activation) : (s.suspend a).rxGot = s.rxGot := rfl
@[simp] theorem State.suspend_rxbuf (s : State) (a : Activation) : (s.suspend a).rxbuf = s.rxbuf := rfl
@[simp] theorem State.suspend_txLastEvt (s : State) (a : Activation) : (s.suspend a).txLastEvt = s.txLastEvt := rfl
@[simp] theorem State.suspend_txIdle (s : State) (a : Activation) : (s.suspend a).txIdle = s.txIdle := rfl
@[simp] theorem State.suspend_txLen (s : State) (a : Activation) : (s.suspend a).txLen = s.txLen := rfl
@[simp] theorem State.suspend_txbuf (s : State) (a : Activation) : (s.suspend a).txbuf = s.txbuf := rfl
@[simp] theorem State.suspend_halted (s : State) (a : Activation) : (s.suspend a).halted = s.halted := rfl
@[simp] theorem State.suspend_faultCode (s : State) (a : Activation) : (s.suspend a).faultCode = s.faultCode := rfl
@[simp] theorem State.suspend_faultInfo (s : State) (a : Activation) : (s.suspend a).faultInfo = s.faultInfo := rfl
@[simp] theorem State.suspend_rngReady (s : State) (a : Activation) : (s.suspend a).rngReady = s.rngReady := rfl
@[simp] theorem State.suspend_rngData (s : State) (a : Activation) : (s.suspend a).rngData = s.rngData := rfl
@[simp] theorem State.suspend_txFlight (s : State) (a : Activation) : (s.suspend a).txFlight = s.txFlight := rfl
@[simp] theorem State.suspend_txDone (s : State) (a : Activation) : (s.suspend a).txDone = s.txDone := rfl
@[simp] theorem State.suspend_ctx (s : State) (a : Activation) : (s.suspend a).ctx = s.ctx := rfl
@[simp] theorem State.suspend_stack (s : State) (a : Activation) : (s.suspend a).stack = a :: s.stack := rfl
@[simp] theorem State.suspend_script (s : State) (a : Activation) : (s.suspend a).script = s.script := rfl
@[simp] theorem State.suspend_sched (s : State) (a : Activation) : (s.suspend a).sched = s.sched := rfl
@[simp] theorem State.suspend_rxLine (s : State) (a : Activation) : (s.suspend a).rxLine = s.rxLine := rfl
@[simp] theorem State.suspend_rngLine (s : State) (a : Activation) : (s.suspend a).rngLine = s.rngLine := rfl
@[simp] theorem State.suspend_ctlIngest (s : State) (a : Activation) : (s.suspend a).ctlIngest = s.ctlIngest := rfl
@[simp] theorem State.suspend_ctlEvents (s : State) (a : Activation) : (s.suspend a).ctlEvents = s.ctlEvents := rfl
@[simp] theorem State.suspend_ctlDatas (s : State) (a : Activation) : (s.suspend a).ctlDatas = s.ctlDatas := rfl
@[simp] theorem State.suspend_result (s : State) (a : Activation) : (s.suspend a).result = .unfinished := rfl
@[simp] theorem State.suspend_delivered (s : State) (a : Activation) : (s.suspend a).delivered = s.delivered := rfl
@[simp] theorem State.suspend_sent (s : State) (a : Activation) : (s.suspend a).sent = s.sent := rfl
@[simp] theorem State.suspend_ctlGot (s : State) (a : Activation) : (s.suspend a).ctlGot = s.ctlGot := rfl

/-! `State.enter` -/

@[simp] theorem State.enter_cfg (s : State) (x : RxState) : (s.enter x).cfg = s.cfg := rfl
@[simp] theorem State.enter_high (s : State) (x : RxState) : (s.enter x).high = s.high := rfl
@[simp] theorem State.enter_low (s : State) (x : RxState) : (s.enter x).low = s.low := rfl
@[simp] theorem State.enter_rsStarted (s : State) (x : RxState) : (s.enter x).rsStarted = s.rsStarted := rfl
@[simp] theorem State.enter_rxState (s : State) (x : RxState) : (s.enter x).rxState = x := rfl
@[simp] theorem State.enter_rxReqValid (s : State) (x : RxState) : (s.enter x).rxReqValid = s.rxReqValid := rfl
@[simp] theorem State.enter_rxReqOff (s : State) (x : RxState) : (s.enter x).rxReqOff = s.rxReqOff := rfl
@[simp] theorem State.enter_rxReqLen (s : State) (x : RxState) : (s.enter x).rxReqLen = s.rxReqLen := rfl
@[simp] theorem State.enter_rxGot (s : State) (x : RxState) : (s.enter x).rxGot = s.rxGot := rfl
@[simp] theorem State.enter_rxbuf (s : State) (x : RxState) : (s.enter x).rxbuf = s.rxbuf := rfl
@[simp] theorem State.enter_txLastEvt (s : State) (x : RxState) : (s.enter x).txLastEvt = s.txLastEvt := rfl
@[simp] theorem State.enter_txIdle (s : State) (x : RxState) : (s.enter x).txIdle = s.txIdle := rfl
@[simp] theorem State.enter_txLen (s : State) (x : RxState) : (s.enter x).txLen = s.txLen := rfl
@[simp] theorem State.enter_txbuf (s : State) (x : RxState) : (s.enter x).txbuf = s.txbuf := rfl
@[simp] theorem State.enter_halted (s : State) (x : RxState) : (s.enter x).halted = s.halted := rfl
@[simp] theorem State.enter_faultCode (s : State) (x : RxState) : (s.enter x).faultCode = s.faultCode := rfl
@[simp] theorem State.enter_faultInfo (s : State) (x : RxState) : (s.enter x).faultInfo = s.faultInfo := rfl
@[simp] theorem State.enter_rngReady (s : State) (x : RxState) : (s.enter x).rngReady = s.rngReady := rfl
@[simp] theorem State.enter_rngData (s : State) (x : RxState) : (s.enter x).rngData = s.rngData := rfl
@[simp] theorem State.enter_txFlight (s : State) (x : RxState) : (s.enter x).txFlight = s.txFlight := rfl
@[simp] theorem State.enter_txDone (s : State) (x : RxState) : (s.enter x).txDone = s.txDone := rfl
@[simp] theorem State.enter_ctx (s : State) (x : RxState) : (s.enter x).ctx = s.ctx := rfl
@[simp] theorem State.enter_stack (s : State) (x : RxState) : (s.enter x).stack = s.stack := rfl
@[simp] theorem State.enter_script (s : State) (x : RxState) : (s.enter x).script = s.script := rfl
@[simp] theorem State.enter_sched (s : State) (x : RxState) : (s.enter x).sched = s.sched := rfl
@[simp] theorem State.enter_rxLine (s : State) (x : RxState) : (s.enter x).rxLine = s.rxLine := rfl
@[simp] theorem State.enter_rngLine (s : State) (x : RxState) : (s.enter x).rngLine = s.rngLine := rfl
@[simp] theorem State.enter_ctlIngest (s : State) (x : RxState) : (s.enter x).ctlIngest = s.ctlIngest := rfl
@[simp] theorem State.enter_ctlEvents (s : State) (x : RxState) : (s.enter x).ctlEvents = s.ctlEvents := rfl
@[simp] theorem State.enter_ctlDatas (s : State) (x : RxState) : (s.enter x).ctlDatas = s.ctlDatas := rfl
@[simp] theorem State.enter_result (s : State) (x : RxState) : (s.enter x).result = s.result := rfl
@[simp] theorem State.enter_delivered (s : State) (x : RxState) : (s.enter x).delivered = s.delivered := rfl
@[simp] theorem State.enter_sent (s : State) (x : RxState) : (s.enter x).sent = s.sent := rfl
@[simp] theorem State.enter_ctlGot (s : State) (x : RxState) : (s.enter x).ctlGot = s.ctlGot := rfl

/-! `State.request` -/

@[simp] theorem State.request_cfg (s : State) (off n : Nat) : (s.request off n).cfg = s.cfg := rfl
@[simp] theorem State.request_high (s : State) (off n : Nat) : (s.request off n).high = s.high := rfl
@[simp] theorem State.request_low (s : State) (off n : Nat) : (s.request off n).low = s.low := rfl
@[simp] theorem State.request_rsStarted (s : State) (off n : Nat) : (s.request off n).rsStarted = s.rsStarted := rfl
@[simp] theorem State.request_rxState (s : State) (off n : Nat) : (s.request off n).rxState = s.rxState := rfl
@[simp] theorem State.request_rxReqValid (s : State) (off n : Nat) : (s.request off n).rxReqValid = true := rfl
@[simp] theorem State.request_rxReqOff (s : State) (off n : Nat) : (s.request off n).rxReqOff = off := rfl
@[simp] theorem State.request_rxReqLen (s : State) (off n : Nat) : (s.request off n).rxReqLen = n := rfl
@[simp] theorem State.request_rxGot (s : State) (off n : Nat) : (s.request off n).rxGot = 0 := rfl
@[simp] theorem State.request_rxbuf (s : State) (off n : Nat) : (s.request off n).rxbuf = s.rxbuf := rfl
@[simp] theorem State.request_txLastEvt (s : State) (off n : Nat) : (s.request off n).txLastEvt = s.txLastEvt := rfl
@[simp] theorem State.request_txIdle (s : State) (off n : Nat) : (s.request off n).txIdle = s.txIdle := rfl
@[simp] theorem State.request_txLen (s : State) (off n : Nat) : (s.request off n).txLen = s.txLen := rfl
@[simp] theorem State.request_txbuf (s : State) (off n : Nat) : (s.request off n).txbuf = s.txbuf := rfl
@[simp] theorem State.request_halted (s : State) (off n : Nat) : (s.request off n).halted = s.halted := rfl
@[simp] theorem State.request_faultCode (s : State) (off n : Nat) : (s.request off n).faultCode = s.faultCode := rfl
@[simp] theorem State.request_faultInfo (s : State) (off n : Nat) : (s.request off n).faultInfo = s.faultInfo := rfl
@[simp] theorem State.request_rngReady (s : State) (off n : Nat) : (s.request off n).rngReady = s.rngReady := rfl
@[simp] theorem State.request_rngData (s : State) (off n : Nat) : (s.request off n).rngData = s.rngData := rfl
@[simp] theorem State.request_txFlight (s : State) (off n : Nat) : (s.request off n).txFlight = s.txFlight := rfl
@[simp] theorem State.request_txDone (s : State) (off n : Nat) : (s.request off n).txDone = s.txDone := rfl
@[simp] theorem State.request_ctx (s : State) (off n : Nat) : (s.request off n).ctx = s.ctx := rfl
@[simp] theorem State.request_stack (s : State) (off n : Nat) : (s.request off n).stack = s.stack := rfl
@[simp] theorem State.request_script (s : State) (off n : Nat) : (s.request off n).script = s.script := rfl
@[simp] theorem State.request_sched (s : State) (off n : Nat) : (s.request off n).sched = s.sched := rfl
@[simp] theorem State.request_rxLine (s : State) (off n : Nat) : (s.request off n).rxLine = s.rxLine := rfl
@[simp] theorem State.request_rngLine (s : State) (off n : Nat) : (s.request off n).rngLine = s.rngLine := rfl
@[simp] theorem State.request_ctlIngest (s : State) (off n : Nat) : (s.request off n).ctlIngest = s.ctlIngest := rfl
@[simp] theorem State.request_ctlEvents (s : State) (off n : Nat) : (s.request off n).ctlEvents = s.ctlEvents := rfl
@[simp] theorem State.request_ctlDatas (s : State) (off n : Nat) : (s.request off n).ctlDatas = s.ctlDatas := rfl
@[simp] theorem State.request_result (s : State) (off n : Nat) : (s.request off n).result = s.result := rfl
@[simp] theorem State.request_delivered (s : State) (off n : Nat) : (s.request off n).delivered = s.delivered := rfl
@[simp] theorem State.request_sent (s : State) (off n : Nat) : (s.request off n).sent = s.sent := rfl
@[simp] theorem State.request_ctlGot (s : State) (off n : Nat) : (s.request off n).ctlGot = s.ctlGot := rfl

/-! `State.beginRx` -/

@[simp] theorem State.beginRx_cfg (s : State) : (s.beginRx).cfg = s.cfg := rfl
@[simp] theorem State.beginRx_high (s : State) : (s.beginRx).high = s.high := rfl
@[simp] theorem State.beginRx_low (s : State) : (s.beginRx).low = s.low := rfl
@[simp] theorem State.beginRx_rsStarted (s : State) : (s.beginRx).rsStarted = s.rsStarted := rfl
@[simp] theorem State.beginRx_rxState (s : State) : (s.beginRx).rxState = s.rxState := rfl
@[simp] theorem State.beginRx_rxReqValid (s : State) : (s.beginRx).rxReqValid = false := rfl
@[simp] theorem State.beginRx_rxReqOff (s : State) : (s.beginRx).rxReqOff = s.rxReqOff := rfl
@[simp] theorem State.beginRx_rxReqLen (s : State) : (s.beginRx).rxReqLen = s.rxReqLen := rfl
@[simp] theorem State.beginRx_rxGot (s : State) : (s.beginRx).rxGot = s.rxGot := rfl
@[simp] theorem State.beginRx_rxbuf (s : State) : (s.beginRx).rxbuf = s.rxbuf := rfl
@[simp] theorem State.beginRx_txLastEvt (s : State) : (s.beginRx).txLastEvt = s.txLastEvt := rfl
@[simp] theorem State.beginRx_txIdle (s : State) : (s.beginRx).txIdle = s.txIdle := rfl
@[simp] theorem State.beginRx_txLen (s : State) : (s.beginRx).txLen = s.txLen := rfl
@[simp] theorem State.beginRx_txbuf (s : State) : (s.beginRx).txbuf = s.txbuf := rfl
@[simp] theorem State.beginRx_halted (s : State) : (s.beginRx).halted = s.halted := rfl
@[simp] theorem State.beginRx_faultCode (s : State) : (s.beginRx).faultCode = s.faultCode := rfl
@[simp] theorem State.beginRx_faultInfo (s : State) : (s.beginRx).faultInfo = s.faultInfo := rfl
@[simp] theorem State.beginRx_rngReady (s : State) : (s.beginRx).rngReady = s.rngReady := rfl
@[simp] theorem State.beginRx_rngData (s : State) : (s.beginRx).rngData = s.rngData := rfl
@[simp] theorem State.beginRx_txFlight (s : State) : (s.beginRx).txFlight = s.txFlight := rfl
@[simp] theorem State.beginRx_txDone (s : State) : (s.beginRx).txDone = s.txDone := rfl
@[simp] theorem State.beginRx_ctx (s : State) : (s.beginRx).ctx = s.ctx := rfl
@[simp] theorem State.beginRx_stack (s : State) : (s.beginRx).stack = s.stack := rfl
@[simp] theorem State.beginRx_script (s : State) : (s.beginRx).script = s.script := rfl
@[simp] theorem State.beginRx_sched (s : State) : (s.beginRx).sched = s.sched := rfl
@[simp] theorem State.beginRx_rxLine (s : State) : (s.beginRx).rxLine = s.rxLine := rfl
@[simp] theorem State.beginRx_rngLine (s : State) : (s.beginRx).rngLine = s.rngLine := rfl
@[simp] theorem State.beginRx_ctlIngest (s : State) : (s.beginRx).ctlIngest = s.ctlIngest := rfl
@[simp] theorem State.beginRx_ctlEvents (s : State) : (s.beginRx).ctlEvents = s.ctlEvents := rfl
@[simp] theorem State.beginRx_ctlDatas (s : State) : (s.beginRx).ctlDatas = s.ctlDatas := rfl
@[simp] theorem State.beginRx_result (s : State) : (s.beginRx).result = s.result := rfl
@[simp] theorem State.beginRx_delivered (s : State) : (s.beginRx).delivered = s.delivered := rfl
@[simp] theorem State.beginRx_sent (s : State) : (s.beginRx).sent = s.sent := rfl
@[simp] theorem State.beginRx_ctlGot (s : State) : (s.beginRx).ctlGot = s.ctlGot := rfl

/-! `State.gave` -/

@[simp] theorem State.gave_cfg (s : State) (r : Result) : (s.gave r).cfg = s.cfg := rfl
@[simp] theorem State.gave_high (s : State) (r : Result) : (s.gave r).high = s.high := rfl
@[simp] theorem State.gave_low (s : State) (r : Result) : (s.gave r).low = s.low := rfl
@[simp] theorem State.gave_rsStarted (s : State) (r : Result) : (s.gave r).rsStarted = s.rsStarted := rfl
@[simp] theorem State.gave_rxState (s : State) (r : Result) : (s.gave r).rxState = s.rxState := rfl
@[simp] theorem State.gave_rxReqValid (s : State) (r : Result) : (s.gave r).rxReqValid = s.rxReqValid := rfl
@[simp] theorem State.gave_rxReqOff (s : State) (r : Result) : (s.gave r).rxReqOff = s.rxReqOff := rfl
@[simp] theorem State.gave_rxReqLen (s : State) (r : Result) : (s.gave r).rxReqLen = s.rxReqLen := rfl
@[simp] theorem State.gave_rxGot (s : State) (r : Result) : (s.gave r).rxGot = s.rxGot := rfl
@[simp] theorem State.gave_rxbuf (s : State) (r : Result) : (s.gave r).rxbuf = s.rxbuf := rfl
@[simp] theorem State.gave_txLastEvt (s : State) (r : Result) : (s.gave r).txLastEvt = s.txLastEvt := rfl
@[simp] theorem State.gave_txIdle (s : State) (r : Result) : (s.gave r).txIdle = s.txIdle := rfl
@[simp] theorem State.gave_txLen (s : State) (r : Result) : (s.gave r).txLen = s.txLen := rfl
@[simp] theorem State.gave_txbuf (s : State) (r : Result) : (s.gave r).txbuf = s.txbuf := rfl
@[simp] theorem State.gave_halted (s : State) (r : Result) : (s.gave r).halted = s.halted := rfl
@[simp] theorem State.gave_faultCode (s : State) (r : Result) : (s.gave r).faultCode = s.faultCode := rfl
@[simp] theorem State.gave_faultInfo (s : State) (r : Result) : (s.gave r).faultInfo = s.faultInfo := rfl
@[simp] theorem State.gave_rngReady (s : State) (r : Result) : (s.gave r).rngReady = s.rngReady := rfl
@[simp] theorem State.gave_rngData (s : State) (r : Result) : (s.gave r).rngData = s.rngData := rfl
@[simp] theorem State.gave_txFlight (s : State) (r : Result) : (s.gave r).txFlight = s.txFlight := rfl
@[simp] theorem State.gave_txDone (s : State) (r : Result) : (s.gave r).txDone = s.txDone := rfl
@[simp] theorem State.gave_ctx (s : State) (r : Result) : (s.gave r).ctx = s.ctx := rfl
@[simp] theorem State.gave_stack (s : State) (r : Result) : (s.gave r).stack = s.stack := rfl
@[simp] theorem State.gave_script (s : State) (r : Result) : (s.gave r).script = s.script := rfl
@[simp] theorem State.gave_sched (s : State) (r : Result) : (s.gave r).sched = s.sched := rfl
@[simp] theorem State.gave_rxLine (s : State) (r : Result) : (s.gave r).rxLine = s.rxLine := rfl
@[simp] theorem State.gave_rngLine (s : State) (r : Result) : (s.gave r).rngLine = s.rngLine := rfl
@[simp] theorem State.gave_ctlIngest (s : State) (r : Result) : (s.gave r).ctlIngest = s.ctlIngest := rfl
@[simp] theorem State.gave_ctlEvents (s : State) (r : Result) : (s.gave r).ctlEvents = s.ctlEvents := rfl
@[simp] theorem State.gave_ctlDatas (s : State) (r : Result) : (s.gave r).ctlDatas = s.ctlDatas := rfl
@[simp] theorem State.gave_result (s : State) (r : Result) : (s.gave r).result = s.result := rfl
@[simp] theorem State.gave_delivered (s : State) (r : Result) : (s.gave r).delivered = s.delivered := rfl
@[simp] theorem State.gave_sent (s : State) (r : Result) : (s.gave r).sent = s.sent := rfl
@[simp] theorem State.gave_ctlGot (s : State) (r : Result) : (s.gave r).ctlGot = s.ctlGot ++ [r] := rfl

/-! `State.takeRngByte` -/

@[simp] theorem State.takeRngByte_cfg (s : State) : (s.takeRngByte).cfg = s.cfg := rfl
@[simp] theorem State.takeRngByte_high (s : State) : (s.takeRngByte).high = s.high := rfl
@[simp] theorem State.takeRngByte_low (s : State) : (s.takeRngByte).low = s.low := rfl
@[simp] theorem State.takeRngByte_rsStarted (s : State) : (s.takeRngByte).rsStarted = s.rsStarted := rfl
@[simp] theorem State.takeRngByte_rxState (s : State) : (s.takeRngByte).rxState = s.rxState := rfl
@[simp] theorem State.takeRngByte_rxReqValid (s : State) : (s.takeRngByte).rxReqValid = s.rxReqValid := rfl
@[simp] theorem State.takeRngByte_rxReqOff (s : State) : (s.takeRngByte).rxReqOff = s.rxReqOff := rfl
@[simp] theorem State.takeRngByte_rxReqLen (s : State) : (s.takeRngByte).rxReqLen = s.rxReqLen := rfl
@[simp] theorem State.takeRngByte_rxGot (s : State) : (s.takeRngByte).rxGot = s.rxGot := rfl
@[simp] theorem State.takeRngByte_rxbuf (s : State) : (s.takeRngByte).rxbuf = s.rxbuf := rfl
@[simp] theorem State.takeRngByte_txLastEvt (s : State) : (s.takeRngByte).txLastEvt = s.txLastEvt := rfl
@[simp] theorem State.takeRngByte_txIdle (s : State) : (s.takeRngByte).txIdle = s.txIdle := rfl
@[simp] theorem State.takeRngByte_txLen (s : State) : (s.takeRngByte).txLen = s.txLen := rfl
@[simp] theorem State.takeRngByte_txbuf (s : State) : (s.takeRngByte).txbuf = s.txbuf := rfl
@[simp] theorem State.takeRngByte_halted (s : State) : (s.takeRngByte).halted = s.halted := rfl
@[simp] theorem State.takeRngByte_faultCode (s : State) : (s.takeRngByte).faultCode = s.faultCode := rfl
@[simp] theorem State.takeRngByte_faultInfo (s : State) : (s.takeRngByte).faultInfo = s.faultInfo := rfl
@[simp] theorem State.takeRngByte_rngReady (s : State) : (s.takeRngByte).rngReady = false := rfl
@[simp] theorem State.takeRngByte_rngData (s : State) : (s.takeRngByte).rngData = s.rngData := rfl
@[simp] theorem State.takeRngByte_txFlight (s : State) : (s.takeRngByte).txFlight = s.txFlight := rfl
@[simp] theorem State.takeRngByte_txDone (s : State) : (s.takeRngByte).txDone = s.txDone := rfl
@[simp] theorem State.takeRngByte_ctx (s : State) : (s.takeRngByte).ctx = s.ctx := rfl
@[simp] theorem State.takeRngByte_stack (s : State) : (s.takeRngByte).stack = s.stack := rfl
@[simp] theorem State.takeRngByte_script (s : State) : (s.takeRngByte).script = s.script := rfl
@[simp] theorem State.takeRngByte_sched (s : State) : (s.takeRngByte).sched = s.sched := rfl
@[simp] theorem State.takeRngByte_rxLine (s : State) : (s.takeRngByte).rxLine = s.rxLine := rfl
@[simp] theorem State.takeRngByte_rngLine (s : State) : (s.takeRngByte).rngLine = s.rngLine := rfl
@[simp] theorem State.takeRngByte_ctlIngest (s : State) : (s.takeRngByte).ctlIngest = s.ctlIngest := rfl
@[simp] theorem State.takeRngByte_ctlEvents (s : State) : (s.takeRngByte).ctlEvents = s.ctlEvents := rfl
@[simp] theorem State.takeRngByte_ctlDatas (s : State) : (s.takeRngByte).ctlDatas = s.ctlDatas := rfl
@[simp] theorem State.takeRngByte_result (s : State) : (s.takeRngByte).result = s.result := rfl
@[simp] theorem State.takeRngByte_delivered (s : State) : (s.takeRngByte).delivered = s.delivered := rfl
@[simp] theorem State.takeRngByte_sent (s : State) : (s.takeRngByte).sent = s.sent := rfl
@[simp] theorem State.takeRngByte_ctlGot (s : State) : (s.takeRngByte).ctlGot = s.ctlGot := rfl

/-! `State.latch` -/

@[simp] theorem State.latch_cfg (s : State) (c : FatalCode) (info : Nat) : (s.latch c info).cfg = s.cfg := rfl
@[simp] theorem State.latch_high (s : State) (c : FatalCode) (info : Nat) : (s.latch c info).high = s.high := rfl
@[simp] theorem State.latch_low (s : State) (c : FatalCode) (info : Nat) : (s.latch c info).low = s.low := rfl
@[simp] theorem State.latch_rsStarted (s : State) (c : FatalCode) (info : Nat) : (s.latch c info).rsStarted = s.rsStarted := rfl
@[simp] theorem State.latch_rxState (s : State) (c : FatalCode) (info : Nat) : (s.latch c info).rxState = s.rxState := rfl
@[simp] theorem State.latch_rxReqValid (s : State) (c : FatalCode) (info : Nat) : (s.latch c info).rxReqValid = s.rxReqValid := rfl
@[simp] theorem State.latch_rxReqOff (s : State) (c : FatalCode) (info : Nat) : (s.latch c info).rxReqOff = s.rxReqOff := rfl
@[simp] theorem State.latch_rxReqLen (s : State) (c : FatalCode) (info : Nat) : (s.latch c info).rxReqLen = s.rxReqLen := rfl
@[simp] theorem State.latch_rxGot (s : State) (c : FatalCode) (info : Nat) : (s.latch c info).rxGot = s.rxGot := rfl
@[simp] theorem State.latch_rxbuf (s : State) (c : FatalCode) (info : Nat) : (s.latch c info).rxbuf = s.rxbuf := rfl
@[simp] theorem State.latch_txLastEvt (s : State) (c : FatalCode) (info : Nat) : (s.latch c info).txLastEvt = s.txLastEvt := rfl
@[simp] theorem State.latch_txIdle (s : State) (c : FatalCode) (info : Nat) : (s.latch c info).txIdle = s.txIdle := rfl
@[simp] theorem State.latch_txLen (s : State) (c : FatalCode) (info : Nat) : (s.latch c info).txLen = s.txLen := rfl
@[simp] theorem State.latch_txbuf (s : State) (c : FatalCode) (info : Nat) : (s.latch c info).txbuf = s.txbuf := rfl
@[simp] theorem State.latch_halted (s : State) (c : FatalCode) (info : Nat) : (s.latch c info).halted = true := rfl
@[simp] theorem State.latch_faultCode (s : State) (c : FatalCode) (info : Nat) : (s.latch c info).faultCode = c.code := rfl
@[simp] theorem State.latch_faultInfo (s : State) (c : FatalCode) (info : Nat) : (s.latch c info).faultInfo = info := rfl
@[simp] theorem State.latch_rngReady (s : State) (c : FatalCode) (info : Nat) : (s.latch c info).rngReady = s.rngReady := rfl
@[simp] theorem State.latch_rngData (s : State) (c : FatalCode) (info : Nat) : (s.latch c info).rngData = s.rngData := rfl
@[simp] theorem State.latch_txFlight (s : State) (c : FatalCode) (info : Nat) : (s.latch c info).txFlight = s.txFlight := rfl
@[simp] theorem State.latch_txDone (s : State) (c : FatalCode) (info : Nat) : (s.latch c info).txDone = s.txDone := rfl
@[simp] theorem State.latch_ctx (s : State) (c : FatalCode) (info : Nat) : (s.latch c info).ctx = s.ctx := rfl
@[simp] theorem State.latch_stack (s : State) (c : FatalCode) (info : Nat) : (s.latch c info).stack = s.stack := rfl
@[simp] theorem State.latch_script (s : State) (c : FatalCode) (info : Nat) : (s.latch c info).script = s.script := rfl
@[simp] theorem State.latch_sched (s : State) (c : FatalCode) (info : Nat) : (s.latch c info).sched = s.sched := rfl
@[simp] theorem State.latch_rxLine (s : State) (c : FatalCode) (info : Nat) : (s.latch c info).rxLine = s.rxLine := rfl
@[simp] theorem State.latch_rngLine (s : State) (c : FatalCode) (info : Nat) : (s.latch c info).rngLine = s.rngLine := rfl
@[simp] theorem State.latch_ctlIngest (s : State) (c : FatalCode) (info : Nat) : (s.latch c info).ctlIngest = s.ctlIngest := rfl
@[simp] theorem State.latch_ctlEvents (s : State) (c : FatalCode) (info : Nat) : (s.latch c info).ctlEvents = s.ctlEvents := rfl
@[simp] theorem State.latch_ctlDatas (s : State) (c : FatalCode) (info : Nat) : (s.latch c info).ctlDatas = s.ctlDatas := rfl
@[simp] theorem State.latch_result (s : State) (c : FatalCode) (info : Nat) : (s.latch c info).result = s.result := rfl
@[simp] theorem State.latch_delivered (s : State) (c : FatalCode) (info : Nat) : (s.latch c info).delivered = s.delivered := rfl
@[simp] theorem State.latch_sent (s : State) (c : FatalCode) (info : Nat) : (s.latch c info).sent = s.sent := rfl
@[simp] theorem State.latch_ctlGot (s : State) (c : FatalCode) (info : Nat) : (s.latch c info).ctlGot = s.ctlGot := rfl

/-! `State.fill` -/

@[simp] theorem State.fill_cfg (s : State) (bs : List Byte) : (s.fill bs).cfg = s.cfg := rfl
@[simp] theorem State.fill_high (s : State) (bs : List Byte) : (s.fill bs).high = s.high := rfl
@[simp] theorem State.fill_low (s : State) (bs : List Byte) : (s.fill bs).low = s.low := rfl
@[simp] theorem State.fill_rsStarted (s : State) (bs : List Byte) : (s.fill bs).rsStarted = s.rsStarted := rfl
@[simp] theorem State.fill_rxState (s : State) (bs : List Byte) : (s.fill bs).rxState = s.rxState := rfl
@[simp] theorem State.fill_rxReqValid (s : State) (bs : List Byte) : (s.fill bs).rxReqValid = s.rxReqValid := rfl
@[simp] theorem State.fill_rxReqOff (s : State) (bs : List Byte) : (s.fill bs).rxReqOff = s.rxReqOff := rfl
@[simp] theorem State.fill_rxReqLen (s : State) (bs : List Byte) : (s.fill bs).rxReqLen = s.rxReqLen := rfl
@[simp] theorem State.fill_rxGot (s : State) (bs : List Byte) : (s.fill bs).rxGot = s.rxGot + bs.length := rfl
@[simp] theorem State.fill_rxbuf (s : State) (bs : List Byte) : (s.fill bs).rxbuf = Memory.writeN s.rxbuf (s.rxReqOff + s.rxGot) bs := rfl
@[simp] theorem State.fill_txLastEvt (s : State) (bs : List Byte) : (s.fill bs).txLastEvt = s.txLastEvt := rfl
@[simp] theorem State.fill_txIdle (s : State) (bs : List Byte) : (s.fill bs).txIdle = s.txIdle := rfl
@[simp] theorem State.fill_txLen (s : State) (bs : List Byte) : (s.fill bs).txLen = s.txLen := rfl
@[simp] theorem State.fill_txbuf (s : State) (bs : List Byte) : (s.fill bs).txbuf = s.txbuf := rfl
@[simp] theorem State.fill_halted (s : State) (bs : List Byte) : (s.fill bs).halted = s.halted := rfl
@[simp] theorem State.fill_faultCode (s : State) (bs : List Byte) : (s.fill bs).faultCode = s.faultCode := rfl
@[simp] theorem State.fill_faultInfo (s : State) (bs : List Byte) : (s.fill bs).faultInfo = s.faultInfo := rfl
@[simp] theorem State.fill_rngReady (s : State) (bs : List Byte) : (s.fill bs).rngReady = s.rngReady := rfl
@[simp] theorem State.fill_rngData (s : State) (bs : List Byte) : (s.fill bs).rngData = s.rngData := rfl
@[simp] theorem State.fill_txFlight (s : State) (bs : List Byte) : (s.fill bs).txFlight = s.txFlight := rfl
@[simp] theorem State.fill_txDone (s : State) (bs : List Byte) : (s.fill bs).txDone = s.txDone := rfl
@[simp] theorem State.fill_ctx (s : State) (bs : List Byte) : (s.fill bs).ctx = s.ctx := rfl
@[simp] theorem State.fill_stack (s : State) (bs : List Byte) : (s.fill bs).stack = s.stack := rfl
@[simp] theorem State.fill_script (s : State) (bs : List Byte) : (s.fill bs).script = s.script := rfl
@[simp] theorem State.fill_sched (s : State) (bs : List Byte) : (s.fill bs).sched = s.sched := rfl
@[simp] theorem State.fill_rxLine (s : State) (bs : List Byte) : (s.fill bs).rxLine = s.rxLine := rfl
@[simp] theorem State.fill_rngLine (s : State) (bs : List Byte) : (s.fill bs).rngLine = s.rngLine := rfl
@[simp] theorem State.fill_ctlIngest (s : State) (bs : List Byte) : (s.fill bs).ctlIngest = s.ctlIngest := rfl
@[simp] theorem State.fill_ctlEvents (s : State) (bs : List Byte) : (s.fill bs).ctlEvents = s.ctlEvents := rfl
@[simp] theorem State.fill_ctlDatas (s : State) (bs : List Byte) : (s.fill bs).ctlDatas = s.ctlDatas := rfl
@[simp] theorem State.fill_result (s : State) (bs : List Byte) : (s.fill bs).result = s.result := rfl
@[simp] theorem State.fill_delivered (s : State) (bs : List Byte) : (s.fill bs).delivered = s.delivered := rfl
@[simp] theorem State.fill_sent (s : State) (bs : List Byte) : (s.fill bs).sent = s.sent := rfl
@[simp] theorem State.fill_ctlGot (s : State) (bs : List Byte) : (s.fill bs).ctlGot = s.ctlGot := rfl

/-! `State.setAnswers` -/

@[simp] theorem State.setAnswers_cfg (s : State) (rest : List IngestAnswer) : (s.setAnswers rest).cfg = s.cfg := rfl
@[simp] theorem State.setAnswers_high (s : State) (rest : List IngestAnswer) : (s.setAnswers rest).high = s.high := rfl
@[simp] theorem State.setAnswers_low (s : State) (rest : List IngestAnswer) : (s.setAnswers rest).low = s.low := rfl
@[simp] theorem State.setAnswers_rsStarted (s : State) (rest : List IngestAnswer) : (s.setAnswers rest).rsStarted = s.rsStarted := rfl
@[simp] theorem State.setAnswers_rxState (s : State) (rest : List IngestAnswer) : (s.setAnswers rest).rxState = s.rxState := rfl
@[simp] theorem State.setAnswers_rxReqValid (s : State) (rest : List IngestAnswer) : (s.setAnswers rest).rxReqValid = s.rxReqValid := rfl
@[simp] theorem State.setAnswers_rxReqOff (s : State) (rest : List IngestAnswer) : (s.setAnswers rest).rxReqOff = s.rxReqOff := rfl
@[simp] theorem State.setAnswers_rxReqLen (s : State) (rest : List IngestAnswer) : (s.setAnswers rest).rxReqLen = s.rxReqLen := rfl
@[simp] theorem State.setAnswers_rxGot (s : State) (rest : List IngestAnswer) : (s.setAnswers rest).rxGot = s.rxGot := rfl
@[simp] theorem State.setAnswers_rxbuf (s : State) (rest : List IngestAnswer) : (s.setAnswers rest).rxbuf = s.rxbuf := rfl
@[simp] theorem State.setAnswers_txLastEvt (s : State) (rest : List IngestAnswer) : (s.setAnswers rest).txLastEvt = s.txLastEvt := rfl
@[simp] theorem State.setAnswers_txIdle (s : State) (rest : List IngestAnswer) : (s.setAnswers rest).txIdle = s.txIdle := rfl
@[simp] theorem State.setAnswers_txLen (s : State) (rest : List IngestAnswer) : (s.setAnswers rest).txLen = s.txLen := rfl
@[simp] theorem State.setAnswers_txbuf (s : State) (rest : List IngestAnswer) : (s.setAnswers rest).txbuf = s.txbuf := rfl
@[simp] theorem State.setAnswers_halted (s : State) (rest : List IngestAnswer) : (s.setAnswers rest).halted = s.halted := rfl
@[simp] theorem State.setAnswers_faultCode (s : State) (rest : List IngestAnswer) : (s.setAnswers rest).faultCode = s.faultCode := rfl
@[simp] theorem State.setAnswers_faultInfo (s : State) (rest : List IngestAnswer) : (s.setAnswers rest).faultInfo = s.faultInfo := rfl
@[simp] theorem State.setAnswers_rngReady (s : State) (rest : List IngestAnswer) : (s.setAnswers rest).rngReady = s.rngReady := rfl
@[simp] theorem State.setAnswers_rngData (s : State) (rest : List IngestAnswer) : (s.setAnswers rest).rngData = s.rngData := rfl
@[simp] theorem State.setAnswers_txFlight (s : State) (rest : List IngestAnswer) : (s.setAnswers rest).txFlight = s.txFlight := rfl
@[simp] theorem State.setAnswers_txDone (s : State) (rest : List IngestAnswer) : (s.setAnswers rest).txDone = s.txDone := rfl
@[simp] theorem State.setAnswers_ctx (s : State) (rest : List IngestAnswer) : (s.setAnswers rest).ctx = s.ctx := rfl
@[simp] theorem State.setAnswers_stack (s : State) (rest : List IngestAnswer) : (s.setAnswers rest).stack = s.stack := rfl
@[simp] theorem State.setAnswers_script (s : State) (rest : List IngestAnswer) : (s.setAnswers rest).script = s.script := rfl
@[simp] theorem State.setAnswers_sched (s : State) (rest : List IngestAnswer) : (s.setAnswers rest).sched = s.sched := rfl
@[simp] theorem State.setAnswers_rxLine (s : State) (rest : List IngestAnswer) : (s.setAnswers rest).rxLine = s.rxLine := rfl
@[simp] theorem State.setAnswers_rngLine (s : State) (rest : List IngestAnswer) : (s.setAnswers rest).rngLine = s.rngLine := rfl
@[simp] theorem State.setAnswers_ctlIngest (s : State) (rest : List IngestAnswer) : (s.setAnswers rest).ctlIngest = rest := rfl
@[simp] theorem State.setAnswers_ctlEvents (s : State) (rest : List IngestAnswer) : (s.setAnswers rest).ctlEvents = s.ctlEvents := rfl
@[simp] theorem State.setAnswers_ctlDatas (s : State) (rest : List IngestAnswer) : (s.setAnswers rest).ctlDatas = s.ctlDatas := rfl
@[simp] theorem State.setAnswers_result (s : State) (rest : List IngestAnswer) : (s.setAnswers rest).result = s.result := rfl
@[simp] theorem State.setAnswers_delivered (s : State) (rest : List IngestAnswer) : (s.setAnswers rest).delivered = s.delivered := rfl
@[simp] theorem State.setAnswers_sent (s : State) (rest : List IngestAnswer) : (s.setAnswers rest).sent = s.sent := rfl
@[simp] theorem State.setAnswers_ctlGot (s : State) (rest : List IngestAnswer) : (s.setAnswers rest).ctlGot = s.ctlGot := rfl

/-! `State.passes` -/

@[simp] theorem State.passes_cfg (s : State) (d : Delivery) : (s.passes d).cfg = s.cfg := rfl
@[simp] theorem State.passes_high (s : State) (d : Delivery) : (s.passes d).high = s.high := rfl
@[simp] theorem State.passes_low (s : State) (d : Delivery) : (s.passes d).low = s.low := rfl
@[simp] theorem State.passes_rsStarted (s : State) (d : Delivery) : (s.passes d).rsStarted = s.rsStarted := rfl
@[simp] theorem State.passes_rxState (s : State) (d : Delivery) : (s.passes d).rxState = s.rxState := rfl
@[simp] theorem State.passes_rxReqValid (s : State) (d : Delivery) : (s.passes d).rxReqValid = s.rxReqValid := rfl
@[simp] theorem State.passes_rxReqOff (s : State) (d : Delivery) : (s.passes d).rxReqOff = s.rxReqOff := rfl
@[simp] theorem State.passes_rxReqLen (s : State) (d : Delivery) : (s.passes d).rxReqLen = s.rxReqLen := rfl
@[simp] theorem State.passes_rxGot (s : State) (d : Delivery) : (s.passes d).rxGot = s.rxGot := rfl
@[simp] theorem State.passes_rxbuf (s : State) (d : Delivery) : (s.passes d).rxbuf = s.rxbuf := rfl
@[simp] theorem State.passes_txLastEvt (s : State) (d : Delivery) : (s.passes d).txLastEvt = s.txLastEvt := rfl
@[simp] theorem State.passes_txIdle (s : State) (d : Delivery) : (s.passes d).txIdle = s.txIdle := rfl
@[simp] theorem State.passes_txLen (s : State) (d : Delivery) : (s.passes d).txLen = s.txLen := rfl
@[simp] theorem State.passes_txbuf (s : State) (d : Delivery) : (s.passes d).txbuf = s.txbuf := rfl
@[simp] theorem State.passes_halted (s : State) (d : Delivery) : (s.passes d).halted = s.halted := rfl
@[simp] theorem State.passes_faultCode (s : State) (d : Delivery) : (s.passes d).faultCode = s.faultCode := rfl
@[simp] theorem State.passes_faultInfo (s : State) (d : Delivery) : (s.passes d).faultInfo = s.faultInfo := rfl
@[simp] theorem State.passes_rngReady (s : State) (d : Delivery) : (s.passes d).rngReady = s.rngReady := rfl
@[simp] theorem State.passes_rngData (s : State) (d : Delivery) : (s.passes d).rngData = s.rngData := rfl
@[simp] theorem State.passes_txFlight (s : State) (d : Delivery) : (s.passes d).txFlight = s.txFlight := rfl
@[simp] theorem State.passes_txDone (s : State) (d : Delivery) : (s.passes d).txDone = s.txDone := rfl
@[simp] theorem State.passes_ctx (s : State) (d : Delivery) : (s.passes d).ctx = s.ctx := rfl
@[simp] theorem State.passes_stack (s : State) (d : Delivery) : (s.passes d).stack = s.stack := rfl
@[simp] theorem State.passes_script (s : State) (d : Delivery) : (s.passes d).script = s.script := rfl
@[simp] theorem State.passes_sched (s : State) (d : Delivery) : (s.passes d).sched = s.sched := rfl
@[simp] theorem State.passes_rxLine (s : State) (d : Delivery) : (s.passes d).rxLine = s.rxLine := rfl
@[simp] theorem State.passes_rngLine (s : State) (d : Delivery) : (s.passes d).rngLine = s.rngLine := rfl
@[simp] theorem State.passes_ctlIngest (s : State) (d : Delivery) : (s.passes d).ctlIngest = s.ctlIngest := rfl
@[simp] theorem State.passes_ctlEvents (s : State) (d : Delivery) : (s.passes d).ctlEvents = s.ctlEvents := rfl
@[simp] theorem State.passes_ctlDatas (s : State) (d : Delivery) : (s.passes d).ctlDatas = s.ctlDatas := rfl
@[simp] theorem State.passes_result (s : State) (d : Delivery) : (s.passes d).result = s.result := rfl
@[simp] theorem State.passes_delivered (s : State) (d : Delivery) : (s.passes d).delivered = s.delivered ++ [d] := rfl
@[simp] theorem State.passes_sent (s : State) (d : Delivery) : (s.passes d).sent = s.sent := rfl
@[simp] theorem State.passes_ctlGot (s : State) (d : Delivery) : (s.passes d).ctlGot = s.ctlGot := rfl

/-! `State.startRng` -/

@[simp] theorem State.startRng_cfg (s : State) : (s.startRng).cfg = s.cfg := rfl
@[simp] theorem State.startRng_high (s : State) : (s.startRng).high = s.high := rfl
@[simp] theorem State.startRng_low (s : State) : (s.startRng).low = s.low := rfl
@[simp] theorem State.startRng_rsStarted (s : State) : (s.startRng).rsStarted = true := rfl
@[simp] theorem State.startRng_rxState (s : State) : (s.startRng).rxState = s.rxState := rfl
@[simp] theorem State.startRng_rxReqValid (s : State) : (s.startRng).rxReqValid = s.rxReqValid := rfl
@[simp] theorem State.startRng_rxReqOff (s : State) : (s.startRng).rxReqOff = s.rxReqOff := rfl
@[simp] theorem State.startRng_rxReqLen (s : State) : (s.startRng).rxReqLen = s.rxReqLen := rfl
@[simp] theorem State.startRng_rxGot (s : State) : (s.startRng).rxGot = s.rxGot := rfl
@[simp] theorem State.startRng_rxbuf (s : State) : (s.startRng).rxbuf = s.rxbuf := rfl
@[simp] theorem State.startRng_txLastEvt (s : State) : (s.startRng).txLastEvt = s.txLastEvt := rfl
@[simp] theorem State.startRng_txIdle (s : State) : (s.startRng).txIdle = s.txIdle := rfl
@[simp] theorem State.startRng_txLen (s : State) : (s.startRng).txLen = s.txLen := rfl
@[simp] theorem State.startRng_txbuf (s : State) : (s.startRng).txbuf = s.txbuf := rfl
@[simp] theorem State.startRng_halted (s : State) : (s.startRng).halted = s.halted := rfl
@[simp] theorem State.startRng_faultCode (s : State) : (s.startRng).faultCode = s.faultCode := rfl
@[simp] theorem State.startRng_faultInfo (s : State) : (s.startRng).faultInfo = s.faultInfo := rfl
@[simp] theorem State.startRng_rngReady (s : State) : (s.startRng).rngReady = s.rngReady := rfl
@[simp] theorem State.startRng_rngData (s : State) : (s.startRng).rngData = s.rngData := rfl
@[simp] theorem State.startRng_txFlight (s : State) : (s.startRng).txFlight = s.txFlight := rfl
@[simp] theorem State.startRng_txDone (s : State) : (s.startRng).txDone = s.txDone := rfl
@[simp] theorem State.startRng_ctx (s : State) : (s.startRng).ctx = s.ctx := rfl
@[simp] theorem State.startRng_stack (s : State) : (s.startRng).stack = s.stack := rfl
@[simp] theorem State.startRng_script (s : State) : (s.startRng).script = s.script := rfl
@[simp] theorem State.startRng_sched (s : State) : (s.startRng).sched = s.sched := rfl
@[simp] theorem State.startRng_rxLine (s : State) : (s.startRng).rxLine = s.rxLine := rfl
@[simp] theorem State.startRng_rngLine (s : State) : (s.startRng).rngLine = s.rngLine := rfl
@[simp] theorem State.startRng_ctlIngest (s : State) : (s.startRng).ctlIngest = s.ctlIngest := rfl
@[simp] theorem State.startRng_ctlEvents (s : State) : (s.startRng).ctlEvents = s.ctlEvents := rfl
@[simp] theorem State.startRng_ctlDatas (s : State) : (s.startRng).ctlDatas = s.ctlDatas := rfl
@[simp] theorem State.startRng_result (s : State) : (s.startRng).result = s.result := rfl
@[simp] theorem State.startRng_delivered (s : State) : (s.startRng).delivered = s.delivered := rfl
@[simp] theorem State.startRng_sent (s : State) : (s.startRng).sent = s.sent := rfl
@[simp] theorem State.startRng_ctlGot (s : State) : (s.startRng).ctlGot = s.ctlGot := rfl

/-! `State.noteKind` -/

@[simp] theorem State.noteKind_cfg (s : State) (k : TxKind) : (s.noteKind k).cfg = s.cfg := rfl
@[simp] theorem State.noteKind_high (s : State) (k : TxKind) : (s.noteKind k).high = s.high := rfl
@[simp] theorem State.noteKind_low (s : State) (k : TxKind) : (s.noteKind k).low = s.low := rfl
@[simp] theorem State.noteKind_rsStarted (s : State) (k : TxKind) : (s.noteKind k).rsStarted = s.rsStarted := rfl
@[simp] theorem State.noteKind_rxState (s : State) (k : TxKind) : (s.noteKind k).rxState = s.rxState := rfl
@[simp] theorem State.noteKind_rxReqValid (s : State) (k : TxKind) : (s.noteKind k).rxReqValid = s.rxReqValid := rfl
@[simp] theorem State.noteKind_rxReqOff (s : State) (k : TxKind) : (s.noteKind k).rxReqOff = s.rxReqOff := rfl
@[simp] theorem State.noteKind_rxReqLen (s : State) (k : TxKind) : (s.noteKind k).rxReqLen = s.rxReqLen := rfl
@[simp] theorem State.noteKind_rxGot (s : State) (k : TxKind) : (s.noteKind k).rxGot = s.rxGot := rfl
@[simp] theorem State.noteKind_rxbuf (s : State) (k : TxKind) : (s.noteKind k).rxbuf = s.rxbuf := rfl
@[simp] theorem State.noteKind_txLastEvt (s : State) (k : TxKind) : (s.noteKind k).txLastEvt = (k == .event) := rfl
@[simp] theorem State.noteKind_txIdle (s : State) (k : TxKind) : (s.noteKind k).txIdle = s.txIdle := rfl
@[simp] theorem State.noteKind_txLen (s : State) (k : TxKind) : (s.noteKind k).txLen = s.txLen := rfl
@[simp] theorem State.noteKind_txbuf (s : State) (k : TxKind) : (s.noteKind k).txbuf = s.txbuf := rfl
@[simp] theorem State.noteKind_halted (s : State) (k : TxKind) : (s.noteKind k).halted = s.halted := rfl
@[simp] theorem State.noteKind_faultCode (s : State) (k : TxKind) : (s.noteKind k).faultCode = s.faultCode := rfl
@[simp] theorem State.noteKind_faultInfo (s : State) (k : TxKind) : (s.noteKind k).faultInfo = s.faultInfo := rfl
@[simp] theorem State.noteKind_rngReady (s : State) (k : TxKind) : (s.noteKind k).rngReady = s.rngReady := rfl
@[simp] theorem State.noteKind_rngData (s : State) (k : TxKind) : (s.noteKind k).rngData = s.rngData := rfl
@[simp] theorem State.noteKind_txFlight (s : State) (k : TxKind) : (s.noteKind k).txFlight = s.txFlight := rfl
@[simp] theorem State.noteKind_txDone (s : State) (k : TxKind) : (s.noteKind k).txDone = s.txDone := rfl
@[simp] theorem State.noteKind_ctx (s : State) (k : TxKind) : (s.noteKind k).ctx = s.ctx := rfl
@[simp] theorem State.noteKind_stack (s : State) (k : TxKind) : (s.noteKind k).stack = s.stack := rfl
@[simp] theorem State.noteKind_script (s : State) (k : TxKind) : (s.noteKind k).script = s.script := rfl
@[simp] theorem State.noteKind_sched (s : State) (k : TxKind) : (s.noteKind k).sched = s.sched := rfl
@[simp] theorem State.noteKind_rxLine (s : State) (k : TxKind) : (s.noteKind k).rxLine = s.rxLine := rfl
@[simp] theorem State.noteKind_rngLine (s : State) (k : TxKind) : (s.noteKind k).rngLine = s.rngLine := rfl
@[simp] theorem State.noteKind_ctlIngest (s : State) (k : TxKind) : (s.noteKind k).ctlIngest = s.ctlIngest := rfl
@[simp] theorem State.noteKind_ctlEvents (s : State) (k : TxKind) : (s.noteKind k).ctlEvents = s.ctlEvents := rfl
@[simp] theorem State.noteKind_ctlDatas (s : State) (k : TxKind) : (s.noteKind k).ctlDatas = s.ctlDatas := rfl
@[simp] theorem State.noteKind_result (s : State) (k : TxKind) : (s.noteKind k).result = s.result := rfl
@[simp] theorem State.noteKind_delivered (s : State) (k : TxKind) : (s.noteKind k).delivered = s.delivered := rfl
@[simp] theorem State.noteKind_sent (s : State) (k : TxKind) : (s.noteKind k).sent = s.sent := rfl
@[simp] theorem State.noteKind_ctlGot (s : State) (k : TxKind) : (s.noteKind k).ctlGot = s.ctlGot := rfl

/-! `State.setTxIdle` -/

@[simp] theorem State.setTxIdle_cfg (s : State) (b : Bool) : (s.setTxIdle b).cfg = s.cfg := rfl
@[simp] theorem State.setTxIdle_high (s : State) (b : Bool) : (s.setTxIdle b).high = s.high := rfl
@[simp] theorem State.setTxIdle_low (s : State) (b : Bool) : (s.setTxIdle b).low = s.low := rfl
@[simp] theorem State.setTxIdle_rsStarted (s : State) (b : Bool) : (s.setTxIdle b).rsStarted = s.rsStarted := rfl
@[simp] theorem State.setTxIdle_rxState (s : State) (b : Bool) : (s.setTxIdle b).rxState = s.rxState := rfl
@[simp] theorem State.setTxIdle_rxReqValid (s : State) (b : Bool) : (s.setTxIdle b).rxReqValid = s.rxReqValid := rfl
@[simp] theorem State.setTxIdle_rxReqOff (s : State) (b : Bool) : (s.setTxIdle b).rxReqOff = s.rxReqOff := rfl
@[simp] theorem State.setTxIdle_rxReqLen (s : State) (b : Bool) : (s.setTxIdle b).rxReqLen = s.rxReqLen := rfl
@[simp] theorem State.setTxIdle_rxGot (s : State) (b : Bool) : (s.setTxIdle b).rxGot = s.rxGot := rfl
@[simp] theorem State.setTxIdle_rxbuf (s : State) (b : Bool) : (s.setTxIdle b).rxbuf = s.rxbuf := rfl
@[simp] theorem State.setTxIdle_txLastEvt (s : State) (b : Bool) : (s.setTxIdle b).txLastEvt = s.txLastEvt := rfl
@[simp] theorem State.setTxIdle_txIdle (s : State) (b : Bool) : (s.setTxIdle b).txIdle = b := rfl
@[simp] theorem State.setTxIdle_txLen (s : State) (b : Bool) : (s.setTxIdle b).txLen = s.txLen := rfl
@[simp] theorem State.setTxIdle_txbuf (s : State) (b : Bool) : (s.setTxIdle b).txbuf = s.txbuf := rfl
@[simp] theorem State.setTxIdle_halted (s : State) (b : Bool) : (s.setTxIdle b).halted = s.halted := rfl
@[simp] theorem State.setTxIdle_faultCode (s : State) (b : Bool) : (s.setTxIdle b).faultCode = s.faultCode := rfl
@[simp] theorem State.setTxIdle_faultInfo (s : State) (b : Bool) : (s.setTxIdle b).faultInfo = s.faultInfo := rfl
@[simp] theorem State.setTxIdle_rngReady (s : State) (b : Bool) : (s.setTxIdle b).rngReady = s.rngReady := rfl
@[simp] theorem State.setTxIdle_rngData (s : State) (b : Bool) : (s.setTxIdle b).rngData = s.rngData := rfl
@[simp] theorem State.setTxIdle_txFlight (s : State) (b : Bool) : (s.setTxIdle b).txFlight = s.txFlight := rfl
@[simp] theorem State.setTxIdle_txDone (s : State) (b : Bool) : (s.setTxIdle b).txDone = s.txDone := rfl
@[simp] theorem State.setTxIdle_ctx (s : State) (b : Bool) : (s.setTxIdle b).ctx = s.ctx := rfl
@[simp] theorem State.setTxIdle_stack (s : State) (b : Bool) : (s.setTxIdle b).stack = s.stack := rfl
@[simp] theorem State.setTxIdle_script (s : State) (b : Bool) : (s.setTxIdle b).script = s.script := rfl
@[simp] theorem State.setTxIdle_sched (s : State) (b : Bool) : (s.setTxIdle b).sched = s.sched := rfl
@[simp] theorem State.setTxIdle_rxLine (s : State) (b : Bool) : (s.setTxIdle b).rxLine = s.rxLine := rfl
@[simp] theorem State.setTxIdle_rngLine (s : State) (b : Bool) : (s.setTxIdle b).rngLine = s.rngLine := rfl
@[simp] theorem State.setTxIdle_ctlIngest (s : State) (b : Bool) : (s.setTxIdle b).ctlIngest = s.ctlIngest := rfl
@[simp] theorem State.setTxIdle_ctlEvents (s : State) (b : Bool) : (s.setTxIdle b).ctlEvents = s.ctlEvents := rfl
@[simp] theorem State.setTxIdle_ctlDatas (s : State) (b : Bool) : (s.setTxIdle b).ctlDatas = s.ctlDatas := rfl
@[simp] theorem State.setTxIdle_result (s : State) (b : Bool) : (s.setTxIdle b).result = s.result := rfl
@[simp] theorem State.setTxIdle_delivered (s : State) (b : Bool) : (s.setTxIdle b).delivered = s.delivered := rfl
@[simp] theorem State.setTxIdle_sent (s : State) (b : Bool) : (s.setTxIdle b).sent = s.sent := rfl
@[simp] theorem State.setTxIdle_ctlGot (s : State) (b : Bool) : (s.setTxIdle b).ctlGot = s.ctlGot := rfl

/-! `State.setTxLen` -/

@[simp] theorem State.setTxLen_cfg (s : State) (n : Nat) : (s.setTxLen n).cfg = s.cfg := rfl
@[simp] theorem State.setTxLen_high (s : State) (n : Nat) : (s.setTxLen n).high = s.high := rfl
@[simp] theorem State.setTxLen_low (s : State) (n : Nat) : (s.setTxLen n).low = s.low := rfl
@[simp] theorem State.setTxLen_rsStarted (s : State) (n : Nat) : (s.setTxLen n).rsStarted = s.rsStarted := rfl
@[simp] theorem State.setTxLen_rxState (s : State) (n : Nat) : (s.setTxLen n).rxState = s.rxState := rfl
@[simp] theorem State.setTxLen_rxReqValid (s : State) (n : Nat) : (s.setTxLen n).rxReqValid = s.rxReqValid := rfl
@[simp] theorem State.setTxLen_rxReqOff (s : State) (n : Nat) : (s.setTxLen n).rxReqOff = s.rxReqOff := rfl
@[simp] theorem State.setTxLen_rxReqLen (s : State) (n : Nat) : (s.setTxLen n).rxReqLen = s.rxReqLen := rfl
@[simp] theorem State.setTxLen_rxGot (s : State) (n : Nat) : (s.setTxLen n).rxGot = s.rxGot := rfl
@[simp] theorem State.setTxLen_rxbuf (s : State) (n : Nat) : (s.setTxLen n).rxbuf = s.rxbuf := rfl
@[simp] theorem State.setTxLen_txLastEvt (s : State) (n : Nat) : (s.setTxLen n).txLastEvt = s.txLastEvt := rfl
@[simp] theorem State.setTxLen_txIdle (s : State) (n : Nat) : (s.setTxLen n).txIdle = s.txIdle := rfl
@[simp] theorem State.setTxLen_txLen (s : State) (n : Nat) : (s.setTxLen n).txLen = n := rfl
@[simp] theorem State.setTxLen_txbuf (s : State) (n : Nat) : (s.setTxLen n).txbuf = s.txbuf := rfl
@[simp] theorem State.setTxLen_halted (s : State) (n : Nat) : (s.setTxLen n).halted = s.halted := rfl
@[simp] theorem State.setTxLen_faultCode (s : State) (n : Nat) : (s.setTxLen n).faultCode = s.faultCode := rfl
@[simp] theorem State.setTxLen_faultInfo (s : State) (n : Nat) : (s.setTxLen n).faultInfo = s.faultInfo := rfl
@[simp] theorem State.setTxLen_rngReady (s : State) (n : Nat) : (s.setTxLen n).rngReady = s.rngReady := rfl
@[simp] theorem State.setTxLen_rngData (s : State) (n : Nat) : (s.setTxLen n).rngData = s.rngData := rfl
@[simp] theorem State.setTxLen_txFlight (s : State) (n : Nat) : (s.setTxLen n).txFlight = s.txFlight := rfl
@[simp] theorem State.setTxLen_txDone (s : State) (n : Nat) : (s.setTxLen n).txDone = s.txDone := rfl
@[simp] theorem State.setTxLen_ctx (s : State) (n : Nat) : (s.setTxLen n).ctx = s.ctx := rfl
@[simp] theorem State.setTxLen_stack (s : State) (n : Nat) : (s.setTxLen n).stack = s.stack := rfl
@[simp] theorem State.setTxLen_script (s : State) (n : Nat) : (s.setTxLen n).script = s.script := rfl
@[simp] theorem State.setTxLen_sched (s : State) (n : Nat) : (s.setTxLen n).sched = s.sched := rfl
@[simp] theorem State.setTxLen_rxLine (s : State) (n : Nat) : (s.setTxLen n).rxLine = s.rxLine := rfl
@[simp] theorem State.setTxLen_rngLine (s : State) (n : Nat) : (s.setTxLen n).rngLine = s.rngLine := rfl
@[simp] theorem State.setTxLen_ctlIngest (s : State) (n : Nat) : (s.setTxLen n).ctlIngest = s.ctlIngest := rfl
@[simp] theorem State.setTxLen_ctlEvents (s : State) (n : Nat) : (s.setTxLen n).ctlEvents = s.ctlEvents := rfl
@[simp] theorem State.setTxLen_ctlDatas (s : State) (n : Nat) : (s.setTxLen n).ctlDatas = s.ctlDatas := rfl
@[simp] theorem State.setTxLen_result (s : State) (n : Nat) : (s.setTxLen n).result = s.result := rfl
@[simp] theorem State.setTxLen_delivered (s : State) (n : Nat) : (s.setTxLen n).delivered = s.delivered := rfl
@[simp] theorem State.setTxLen_sent (s : State) (n : Nat) : (s.setTxLen n).sent = s.sent := rfl
@[simp] theorem State.setTxLen_ctlGot (s : State) (n : Nat) : (s.setTxLen n).ctlGot = s.ctlGot := rfl

/-! `State.uartTx` -/

@[simp] theorem State.uartTx_cfg (s : State) (n : Nat) : (s.uartTx n).cfg = s.cfg := rfl
@[simp] theorem State.uartTx_high (s : State) (n : Nat) : (s.uartTx n).high = s.high := rfl
@[simp] theorem State.uartTx_low (s : State) (n : Nat) : (s.uartTx n).low = s.low := rfl
@[simp] theorem State.uartTx_rsStarted (s : State) (n : Nat) : (s.uartTx n).rsStarted = s.rsStarted := rfl
@[simp] theorem State.uartTx_rxState (s : State) (n : Nat) : (s.uartTx n).rxState = s.rxState := rfl
@[simp] theorem State.uartTx_rxReqValid (s : State) (n : Nat) : (s.uartTx n).rxReqValid = s.rxReqValid := rfl
@[simp] theorem State.uartTx_rxReqOff (s : State) (n : Nat) : (s.uartTx n).rxReqOff = s.rxReqOff := rfl
@[simp] theorem State.uartTx_rxReqLen (s : State) (n : Nat) : (s.uartTx n).rxReqLen = s.rxReqLen := rfl
@[simp] theorem State.uartTx_rxGot (s : State) (n : Nat) : (s.uartTx n).rxGot = s.rxGot := rfl
@[simp] theorem State.uartTx_rxbuf (s : State) (n : Nat) : (s.uartTx n).rxbuf = s.rxbuf := rfl
@[simp] theorem State.uartTx_txLastEvt (s : State) (n : Nat) : (s.uartTx n).txLastEvt = s.txLastEvt := rfl
@[simp] theorem State.uartTx_txIdle (s : State) (n : Nat) : (s.uartTx n).txIdle = s.txIdle := rfl
@[simp] theorem State.uartTx_txLen (s : State) (n : Nat) : (s.uartTx n).txLen = s.txLen := rfl
@[simp] theorem State.uartTx_txbuf (s : State) (n : Nat) : (s.uartTx n).txbuf = s.txbuf := rfl
@[simp] theorem State.uartTx_halted (s : State) (n : Nat) : (s.uartTx n).halted = s.halted := rfl
@[simp] theorem State.uartTx_faultCode (s : State) (n : Nat) : (s.uartTx n).faultCode = s.faultCode := rfl
@[simp] theorem State.uartTx_faultInfo (s : State) (n : Nat) : (s.uartTx n).faultInfo = s.faultInfo := rfl
@[simp] theorem State.uartTx_rngReady (s : State) (n : Nat) : (s.uartTx n).rngReady = s.rngReady := rfl
@[simp] theorem State.uartTx_rngData (s : State) (n : Nat) : (s.uartTx n).rngData = s.rngData := rfl
@[simp] theorem State.uartTx_txFlight (s : State) (n : Nat) : (s.uartTx n).txFlight = true := rfl
@[simp] theorem State.uartTx_txDone (s : State) (n : Nat) : (s.uartTx n).txDone = s.txDone := rfl
@[simp] theorem State.uartTx_ctx (s : State) (n : Nat) : (s.uartTx n).ctx = s.ctx := rfl
@[simp] theorem State.uartTx_stack (s : State) (n : Nat) : (s.uartTx n).stack = s.stack := rfl
@[simp] theorem State.uartTx_script (s : State) (n : Nat) : (s.uartTx n).script = s.script := rfl
@[simp] theorem State.uartTx_sched (s : State) (n : Nat) : (s.uartTx n).sched = s.sched := rfl
@[simp] theorem State.uartTx_rxLine (s : State) (n : Nat) : (s.uartTx n).rxLine = s.rxLine := rfl
@[simp] theorem State.uartTx_rngLine (s : State) (n : Nat) : (s.uartTx n).rngLine = s.rngLine := rfl
@[simp] theorem State.uartTx_ctlIngest (s : State) (n : Nat) : (s.uartTx n).ctlIngest = s.ctlIngest := rfl
@[simp] theorem State.uartTx_ctlEvents (s : State) (n : Nat) : (s.uartTx n).ctlEvents = s.ctlEvents := rfl
@[simp] theorem State.uartTx_ctlDatas (s : State) (n : Nat) : (s.uartTx n).ctlDatas = s.ctlDatas := rfl
@[simp] theorem State.uartTx_result (s : State) (n : Nat) : (s.uartTx n).result = s.result := rfl
@[simp] theorem State.uartTx_delivered (s : State) (n : Nat) : (s.uartTx n).delivered = s.delivered := rfl
@[simp] theorem State.uartTx_sent (s : State) (n : Nat) : (s.uartTx n).sent = s.sent ++ [Memory.readN s.txbuf 0 n] := rfl
@[simp] theorem State.uartTx_ctlGot (s : State) (n : Nat) : (s.uartTx n).ctlGot = s.ctlGot := rfl

/-! `State.takeTxEvent` -/

@[simp] theorem State.takeTxEvent_cfg (s : State) : (s.takeTxEvent).cfg = s.cfg := rfl
@[simp] theorem State.takeTxEvent_high (s : State) : (s.takeTxEvent).high = s.high := rfl
@[simp] theorem State.takeTxEvent_low (s : State) : (s.takeTxEvent).low = s.low := rfl
@[simp] theorem State.takeTxEvent_rsStarted (s : State) : (s.takeTxEvent).rsStarted = s.rsStarted := rfl
@[simp] theorem State.takeTxEvent_rxState (s : State) : (s.takeTxEvent).rxState = s.rxState := rfl
@[simp] theorem State.takeTxEvent_rxReqValid (s : State) : (s.takeTxEvent).rxReqValid = s.rxReqValid := rfl
@[simp] theorem State.takeTxEvent_rxReqOff (s : State) : (s.takeTxEvent).rxReqOff = s.rxReqOff := rfl
@[simp] theorem State.takeTxEvent_rxReqLen (s : State) : (s.takeTxEvent).rxReqLen = s.rxReqLen := rfl
@[simp] theorem State.takeTxEvent_rxGot (s : State) : (s.takeTxEvent).rxGot = s.rxGot := rfl
@[simp] theorem State.takeTxEvent_rxbuf (s : State) : (s.takeTxEvent).rxbuf = s.rxbuf := rfl
@[simp] theorem State.takeTxEvent_txLastEvt (s : State) : (s.takeTxEvent).txLastEvt = s.txLastEvt := rfl
@[simp] theorem State.takeTxEvent_txIdle (s : State) : (s.takeTxEvent).txIdle = s.txIdle := rfl
@[simp] theorem State.takeTxEvent_txLen (s : State) : (s.takeTxEvent).txLen = s.txLen := rfl
@[simp] theorem State.takeTxEvent_txbuf (s : State) : (s.takeTxEvent).txbuf = s.txbuf := rfl
@[simp] theorem State.takeTxEvent_halted (s : State) : (s.takeTxEvent).halted = s.halted := rfl
@[simp] theorem State.takeTxEvent_faultCode (s : State) : (s.takeTxEvent).faultCode = s.faultCode := rfl
@[simp] theorem State.takeTxEvent_faultInfo (s : State) : (s.takeTxEvent).faultInfo = s.faultInfo := rfl
@[simp] theorem State.takeTxEvent_rngReady (s : State) : (s.takeTxEvent).rngReady = s.rngReady := rfl
@[simp] theorem State.takeTxEvent_rngData (s : State) : (s.takeTxEvent).rngData = s.rngData := rfl
@[simp] theorem State.takeTxEvent_txFlight (s : State) : (s.takeTxEvent).txFlight = false := rfl
@[simp] theorem State.takeTxEvent_txDone (s : State) : (s.takeTxEvent).txDone = false := rfl
@[simp] theorem State.takeTxEvent_ctx (s : State) : (s.takeTxEvent).ctx = s.ctx := rfl
@[simp] theorem State.takeTxEvent_stack (s : State) : (s.takeTxEvent).stack = s.stack := rfl
@[simp] theorem State.takeTxEvent_script (s : State) : (s.takeTxEvent).script = s.script := rfl
@[simp] theorem State.takeTxEvent_sched (s : State) : (s.takeTxEvent).sched = s.sched := rfl
@[simp] theorem State.takeTxEvent_rxLine (s : State) : (s.takeTxEvent).rxLine = s.rxLine := rfl
@[simp] theorem State.takeTxEvent_rngLine (s : State) : (s.takeTxEvent).rngLine = s.rngLine := rfl
@[simp] theorem State.takeTxEvent_ctlIngest (s : State) : (s.takeTxEvent).ctlIngest = s.ctlIngest := rfl
@[simp] theorem State.takeTxEvent_ctlEvents (s : State) : (s.takeTxEvent).ctlEvents = s.ctlEvents := rfl
@[simp] theorem State.takeTxEvent_ctlDatas (s : State) : (s.takeTxEvent).ctlDatas = s.ctlDatas := rfl
@[simp] theorem State.takeTxEvent_result (s : State) : (s.takeTxEvent).result = s.result := rfl
@[simp] theorem State.takeTxEvent_delivered (s : State) : (s.takeTxEvent).delivered = s.delivered := rfl
@[simp] theorem State.takeTxEvent_sent (s : State) : (s.takeTxEvent).sent = s.sent := rfl
@[simp] theorem State.takeTxEvent_ctlGot (s : State) : (s.takeTxEvent).ctlGot = s.ctlGot := rfl

/-! `State.setPool` -/

@[simp] theorem State.setPool_cfg (s : State) (p : PoolId) (q : RingPool) : (s.setPool p q).cfg = s.cfg := by cases p <;> rfl
@[simp] theorem State.setPool_rsStarted (s : State) (p : PoolId) (q : RingPool) : (s.setPool p q).rsStarted = s.rsStarted := by cases p <;> rfl
@[simp] theorem State.setPool_rxState (s : State) (p : PoolId) (q : RingPool) : (s.setPool p q).rxState = s.rxState := by cases p <;> rfl
@[simp] theorem State.setPool_rxReqValid (s : State) (p : PoolId) (q : RingPool) : (s.setPool p q).rxReqValid = s.rxReqValid := by cases p <;> rfl
@[simp] theorem State.setPool_rxReqOff (s : State) (p : PoolId) (q : RingPool) : (s.setPool p q).rxReqOff = s.rxReqOff := by cases p <;> rfl
@[simp] theorem State.setPool_rxReqLen (s : State) (p : PoolId) (q : RingPool) : (s.setPool p q).rxReqLen = s.rxReqLen := by cases p <;> rfl
@[simp] theorem State.setPool_rxGot (s : State) (p : PoolId) (q : RingPool) : (s.setPool p q).rxGot = s.rxGot := by cases p <;> rfl
@[simp] theorem State.setPool_rxbuf (s : State) (p : PoolId) (q : RingPool) : (s.setPool p q).rxbuf = s.rxbuf := by cases p <;> rfl
@[simp] theorem State.setPool_txLastEvt (s : State) (p : PoolId) (q : RingPool) : (s.setPool p q).txLastEvt = s.txLastEvt := by cases p <;> rfl
@[simp] theorem State.setPool_txIdle (s : State) (p : PoolId) (q : RingPool) : (s.setPool p q).txIdle = s.txIdle := by cases p <;> rfl
@[simp] theorem State.setPool_txLen (s : State) (p : PoolId) (q : RingPool) : (s.setPool p q).txLen = s.txLen := by cases p <;> rfl
@[simp] theorem State.setPool_txbuf (s : State) (p : PoolId) (q : RingPool) : (s.setPool p q).txbuf = s.txbuf := by cases p <;> rfl
@[simp] theorem State.setPool_halted (s : State) (p : PoolId) (q : RingPool) : (s.setPool p q).halted = s.halted := by cases p <;> rfl
@[simp] theorem State.setPool_faultCode (s : State) (p : PoolId) (q : RingPool) : (s.setPool p q).faultCode = s.faultCode := by cases p <;> rfl
@[simp] theorem State.setPool_faultInfo (s : State) (p : PoolId) (q : RingPool) : (s.setPool p q).faultInfo = s.faultInfo := by cases p <;> rfl
@[simp] theorem State.setPool_rngReady (s : State) (p : PoolId) (q : RingPool) : (s.setPool p q).rngReady = s.rngReady := by cases p <;> rfl
@[simp] theorem State.setPool_rngData (s : State) (p : PoolId) (q : RingPool) : (s.setPool p q).rngData = s.rngData := by cases p <;> rfl
@[simp] theorem State.setPool_txFlight (s : State) (p : PoolId) (q : RingPool) : (s.setPool p q).txFlight = s.txFlight := by cases p <;> rfl
@[simp] theorem State.setPool_txDone (s : State) (p : PoolId) (q : RingPool) : (s.setPool p q).txDone = s.txDone := by cases p <;> rfl
@[simp] theorem State.setPool_ctx (s : State) (p : PoolId) (q : RingPool) : (s.setPool p q).ctx = s.ctx := by cases p <;> rfl
@[simp] theorem State.setPool_stack (s : State) (p : PoolId) (q : RingPool) : (s.setPool p q).stack = s.stack := by cases p <;> rfl
@[simp] theorem State.setPool_script (s : State) (p : PoolId) (q : RingPool) : (s.setPool p q).script = s.script := by cases p <;> rfl
@[simp] theorem State.setPool_sched (s : State) (p : PoolId) (q : RingPool) : (s.setPool p q).sched = s.sched := by cases p <;> rfl
@[simp] theorem State.setPool_rxLine (s : State) (p : PoolId) (q : RingPool) : (s.setPool p q).rxLine = s.rxLine := by cases p <;> rfl
@[simp] theorem State.setPool_rngLine (s : State) (p : PoolId) (q : RingPool) : (s.setPool p q).rngLine = s.rngLine := by cases p <;> rfl
@[simp] theorem State.setPool_ctlIngest (s : State) (p : PoolId) (q : RingPool) : (s.setPool p q).ctlIngest = s.ctlIngest := by cases p <;> rfl
@[simp] theorem State.setPool_ctlEvents (s : State) (p : PoolId) (q : RingPool) : (s.setPool p q).ctlEvents = s.ctlEvents := by cases p <;> rfl
@[simp] theorem State.setPool_ctlDatas (s : State) (p : PoolId) (q : RingPool) : (s.setPool p q).ctlDatas = s.ctlDatas := by cases p <;> rfl
@[simp] theorem State.setPool_result (s : State) (p : PoolId) (q : RingPool) : (s.setPool p q).result = s.result := by cases p <;> rfl
@[simp] theorem State.setPool_delivered (s : State) (p : PoolId) (q : RingPool) : (s.setPool p q).delivered = s.delivered := by cases p <;> rfl
@[simp] theorem State.setPool_sent (s : State) (p : PoolId) (q : RingPool) : (s.setPool p q).sent = s.sent := by cases p <;> rfl
@[simp] theorem State.setPool_ctlGot (s : State) (p : PoolId) (q : RingPool) : (s.setPool p q).ctlGot = s.ctlGot := by cases p <;> rfl

/-! `State.pulled` -/

@[simp] theorem State.pulled_cfg (s : State) (k : TxKind) (rest : List PullAnswer) (bs : List Byte) :
    (s.pulled k rest bs).cfg = s.cfg := by cases k <;> rfl
@[simp] theorem State.pulled_high (s : State) (k : TxKind) (rest : List PullAnswer) (bs : List Byte) :
    (s.pulled k rest bs).high = s.high := by cases k <;> rfl
@[simp] theorem State.pulled_low (s : State) (k : TxKind) (rest : List PullAnswer) (bs : List Byte) :
    (s.pulled k rest bs).low = s.low := by cases k <;> rfl
@[simp] theorem State.pulled_rsStarted (s : State) (k : TxKind) (rest : List PullAnswer) (bs : List Byte) :
    (s.pulled k rest bs).rsStarted = s.rsStarted := by cases k <;> rfl
@[simp] theorem State.pulled_rxState (s : State) (k : TxKind) (rest : List PullAnswer) (bs : List Byte) :
    (s.pulled k rest bs).rxState = s.rxState := by cases k <;> rfl
@[simp] theorem State.pulled_rxReqValid (s : State) (k : TxKind) (rest : List PullAnswer) (bs : List Byte) :
    (s.pulled k rest bs).rxReqValid = s.rxReqValid := by cases k <;> rfl
@[simp] theorem State.pulled_rxReqOff (s : State) (k : TxKind) (rest : List PullAnswer) (bs : List Byte) :
    (s.pulled k rest bs).rxReqOff = s.rxReqOff := by cases k <;> rfl
@[simp] theorem State.pulled_rxReqLen (s : State) (k : TxKind) (rest : List PullAnswer) (bs : List Byte) :
    (s.pulled k rest bs).rxReqLen = s.rxReqLen := by cases k <;> rfl
@[simp] theorem State.pulled_rxGot (s : State) (k : TxKind) (rest : List PullAnswer) (bs : List Byte) :
    (s.pulled k rest bs).rxGot = s.rxGot := by cases k <;> rfl
@[simp] theorem State.pulled_rxbuf (s : State) (k : TxKind) (rest : List PullAnswer) (bs : List Byte) :
    (s.pulled k rest bs).rxbuf = s.rxbuf := by cases k <;> rfl
@[simp] theorem State.pulled_txLastEvt (s : State) (k : TxKind) (rest : List PullAnswer) (bs : List Byte) :
    (s.pulled k rest bs).txLastEvt = s.txLastEvt := by cases k <;> rfl
@[simp] theorem State.pulled_txIdle (s : State) (k : TxKind) (rest : List PullAnswer) (bs : List Byte) :
    (s.pulled k rest bs).txIdle = s.txIdle := by cases k <;> rfl
@[simp] theorem State.pulled_txLen (s : State) (k : TxKind) (rest : List PullAnswer) (bs : List Byte) :
    (s.pulled k rest bs).txLen = s.txLen := by cases k <;> rfl
@[simp] theorem State.pulled_txbuf (s : State) (k : TxKind) (rest : List PullAnswer) (bs : List Byte) :
    (s.pulled k rest bs).txbuf = Memory.writeN s.txbuf 1 (bs.take (s.cfg.txbufSize - 1)) := by cases k <;> rfl
@[simp] theorem State.pulled_halted (s : State) (k : TxKind) (rest : List PullAnswer) (bs : List Byte) :
    (s.pulled k rest bs).halted = s.halted := by cases k <;> rfl
@[simp] theorem State.pulled_faultCode (s : State) (k : TxKind) (rest : List PullAnswer) (bs : List Byte) :
    (s.pulled k rest bs).faultCode = s.faultCode := by cases k <;> rfl
@[simp] theorem State.pulled_faultInfo (s : State) (k : TxKind) (rest : List PullAnswer) (bs : List Byte) :
    (s.pulled k rest bs).faultInfo = s.faultInfo := by cases k <;> rfl
@[simp] theorem State.pulled_rngReady (s : State) (k : TxKind) (rest : List PullAnswer) (bs : List Byte) :
    (s.pulled k rest bs).rngReady = s.rngReady := by cases k <;> rfl
@[simp] theorem State.pulled_rngData (s : State) (k : TxKind) (rest : List PullAnswer) (bs : List Byte) :
    (s.pulled k rest bs).rngData = s.rngData := by cases k <;> rfl
@[simp] theorem State.pulled_txFlight (s : State) (k : TxKind) (rest : List PullAnswer) (bs : List Byte) :
    (s.pulled k rest bs).txFlight = s.txFlight := by cases k <;> rfl
@[simp] theorem State.pulled_txDone (s : State) (k : TxKind) (rest : List PullAnswer) (bs : List Byte) :
    (s.pulled k rest bs).txDone = s.txDone := by cases k <;> rfl
@[simp] theorem State.pulled_ctx (s : State) (k : TxKind) (rest : List PullAnswer) (bs : List Byte) :
    (s.pulled k rest bs).ctx = s.ctx := by cases k <;> rfl
@[simp] theorem State.pulled_stack (s : State) (k : TxKind) (rest : List PullAnswer) (bs : List Byte) :
    (s.pulled k rest bs).stack = s.stack := by cases k <;> rfl
@[simp] theorem State.pulled_script (s : State) (k : TxKind) (rest : List PullAnswer) (bs : List Byte) :
    (s.pulled k rest bs).script = s.script := by cases k <;> rfl
@[simp] theorem State.pulled_sched (s : State) (k : TxKind) (rest : List PullAnswer) (bs : List Byte) :
    (s.pulled k rest bs).sched = s.sched := by cases k <;> rfl
@[simp] theorem State.pulled_rxLine (s : State) (k : TxKind) (rest : List PullAnswer) (bs : List Byte) :
    (s.pulled k rest bs).rxLine = s.rxLine := by cases k <;> rfl
@[simp] theorem State.pulled_rngLine (s : State) (k : TxKind) (rest : List PullAnswer) (bs : List Byte) :
    (s.pulled k rest bs).rngLine = s.rngLine := by cases k <;> rfl
@[simp] theorem State.pulled_ctlIngest (s : State) (k : TxKind) (rest : List PullAnswer) (bs : List Byte) :
    (s.pulled k rest bs).ctlIngest = s.ctlIngest := by cases k <;> rfl
@[simp] theorem State.pulled_result (s : State) (k : TxKind) (rest : List PullAnswer) (bs : List Byte) :
    (s.pulled k rest bs).result = s.result := by cases k <;> rfl
@[simp] theorem State.pulled_delivered (s : State) (k : TxKind) (rest : List PullAnswer) (bs : List Byte) :
    (s.pulled k rest bs).delivered = s.delivered := by cases k <;> rfl
@[simp] theorem State.pulled_sent (s : State) (k : TxKind) (rest : List PullAnswer) (bs : List Byte) :
    (s.pulled k rest bs).sent = s.sent := by cases k <;> rfl
@[simp] theorem State.pulled_ctlGot (s : State) (k : TxKind) (rest : List PullAnswer) (bs : List Byte) :
    (s.pulled k rest bs).ctlGot = s.ctlGot := by cases k <;> rfl

@[simp] theorem State.setPool_high_high (s : State) (q : RingPool) : (s.setPool .high q).high = q := rfl
@[simp] theorem State.setPool_high_low (s : State) (q : RingPool) : (s.setPool .high q).low = s.low := rfl
@[simp] theorem State.setPool_low_high (s : State) (q : RingPool) : (s.setPool .low q).high = s.high := rfl
@[simp] theorem State.setPool_low_low (s : State) (q : RingPool) : (s.setPool .low q).low = q := rfl
@[simp] theorem State.pool_high (s : State) : s.pool .high = s.high := rfl
@[simp] theorem State.pool_low (s : State) : s.pool .low = s.low := rfl
@[simp] theorem State.pool_setPool (s : State) (p : PoolId) (q : RingPool) : (s.setPool p q).pool p = q := by
  cases p <;> rfl

@[simp] theorem State.pool_returns (s : State) (r : Result) (p : PoolId) : (s.returns r).pool p = s.pool p := by
  cases p <;> rfl

@[simp] theorem State.pool_suspend (s : State) (a : Activation) (p : PoolId) : (s.suspend a).pool p = s.pool p := by
  cases p <;> rfl

@[simp] theorem State.runningCtx_suspend (s : State) (a : Activation) : (s.suspend a).runningCtx = a.ctx := rfl

@[simp] theorem State.runningCtx_setPool (s : State) (p : PoolId) (q : RingPool) :
    (s.setPool p q).runningCtx = s.runningCtx := by cases p <;> rfl

@[simp] theorem State.around_setPool (s : State) (p : PoolId) (q : RingPool) (c : Ctx) :
    (s.setPool p q).around c = s.around c := by cases p <;> rfl

theorem State.pool_setPool_ne (s : State) {p p' : PoolId} (h : p' ≠ p) (q : RingPool) :
    (s.setPool p q).pool p' = s.pool p' := by cases p <;> cases p' <;> first | rfl | exact absurd rfl h

/-- A pool of a state whose memory is well formed is well formed. -/
theorem State.MemoryWf.pool {s : State} (h : s.MemoryWf) (p : PoolId) : (s.pool p).Wf := by
  cases p
  · exact h.high
  · exact h.low

end Sys2Proof.Machine
end

