-- ==== Sys2Proof/Laws/Ops.lean ====
section
/-! SUPPORT. Laws/Ops.lean: for each shared operation, everything it can do, said once. -/

namespace Sys2Proof.Machine

/-- A vector take that succeeds (40 R118). -/
theorem State.take_of_le {s : State} {p : PoolId} {n : Nat} (h : n ≤ (s.pool p).count) :
    ∃ q, s.take p n = (.taken ((s.pool p).unread.take n), s.setPool p q) ∧ q.w = (s.pool p).w ∧
      q.slots = (s.pool p).slots ∧ q.r.val = ((s.pool p).r.val + n) % ringS ∧
      q.unread = (s.pool p).unread.drop n ∧ q.count + n = (s.pool p).count := by
  obtain ⟨q, h1, h2⟩ := RingPool.takev_of_le h
  exact ⟨q, by simp [State.take, h1], h2⟩

/-- A vector take that fails changes nothing (40 R118). -/
theorem State.take_of_gt {s : State} {p : PoolId} {n : Nat} (h : (s.pool p).count < n) :
    s.take p n = (.notTaken, s) := by simp [State.take, RingPool.takev_of_gt h]

/-- What a vector take can do. -/
theorem State.take_cases (s : State) (p : PoolId) (n : Nat) :
    ((s.pool p).count < n ∧ s.take p n = (.notTaken, s)) ∨
    (n ≤ (s.pool p).count ∧ ∃ q, s.take p n = (.taken ((s.pool p).unread.take n), s.setPool p q) ∧
      ((s.pool p).Wf → q.Wf) ∧ q.unread = (s.pool p).unread.drop n) := by
  rcases Nat.lt_or_ge (s.pool p).count n with h | h
  · exact .inl ⟨h, State.take_of_gt h⟩
  · obtain ⟨q, h1, -, hs, -, hu, -⟩ := State.take_of_le h
    exact .inr ⟨h, q, h1, fun hw => by simpa [RingPool.Wf, hs] using hw, hu⟩

/-- An enqueue on a pool that is not full (40 R114). -/
theorem State.enqueue_of_not_full {s : State} {p : PoolId} (h : (s.pool p).full = false) (b : Byte) :
    s.enqueue p b = (.ok, s.setPool p ((s.pool p).enqStore b).enqPublish) := by
  simp [State.enqueue, RingPool.enq_of_not_full h]

/-- An enqueue on a full pool (40 R115). -/
theorem State.enqueue_of_full {s : State} {p : PoolId} (h : (s.pool p).full = true) (b : Byte) :
    s.enqueue p b = (.capacity, s) := by simp [State.enqueue, RingPool.enq_of_full h]

/-- A dequeue on a pool that is not empty (40 R116). -/
theorem State.dequeue_of_not_empty {s : State} {p : PoolId} (h : (s.pool p).empty = false) :
    s.dequeue p = (.byte (s.pool p).deqLoad, s.setPool p (s.pool p).deqRelease) := by
  simp [State.dequeue, RingPool.deq_of_not_empty h]

/-- A dequeue on an empty pool (40 R117). -/
theorem State.dequeue_of_empty {s : State} {p : PoolId} (h : (s.pool p).empty = true) :
    s.dequeue p = (.underflow, s) := by simp [State.dequeue, RingPool.deq_of_empty h]

/-- Routing, first case: `high` has room (41 R132). -/
theorem State.produce_of_high {s : State} (h : s.high.full = false) (b : Byte) :
    s.produce b = { s with high := (s.high.enqStore b).enqPublish } := by
  simp [State.produce, h, State.enqueue_of_not_full (p := .high) h, State.setPool]

/-- Routing, second case: `high` is full and `low` has room (41 R132). -/
theorem State.produce_of_low {s : State} (h : s.high.full = true) (h' : s.low.full = false) (b : Byte) :
    s.produce b = { s with low := (s.low.enqStore b).enqPublish } := by
  simp [State.produce, h, h', State.enqueue_of_not_full (p := .low) h', State.setPool]

/-- Routing, third case: both are full and the byte is dropped (41 R132). -/
theorem State.produce_of_full {s : State} (h : s.high.full = true) (h' : s.low.full = true) (b : Byte) :
    s.produce b = s := by simp [State.produce, h, h']

/-- What routing can do: at most one pool changes, and a well-formed pool stays so. -/
theorem State.produce_cases (s : State) (b : Byte) :
    (∃ q, s.produce b = { s with high := q } ∧ (s.high.Wf → q.Wf)) ∨
    (∃ q, s.produce b = { s with low := q } ∧ (s.low.Wf → q.Wf)) := by
  have hw (p : RingPool) (hp : p.Wf) : (p.enqStore b).enqPublish.Wf :=
    ⟨Memory.write_wf hp.1 _ _, Memory.write_within hp.2 p.w.isLt b⟩
  cases h : s.high.full
  · exact .inl ⟨_, State.produce_of_high h b, hw _⟩
  · cases h' : s.low.full
    · exact .inr ⟨_, State.produce_of_low h h' b, hw _⟩
    · exact .inl ⟨s.high, State.produce_of_full h h' b, id⟩

/-- The latch after a fatal condition of a block that was not halted (60 R203). -/
theorem State.raiseFatal_of_running {s : State} (h : s.halted = false) (c : FatalCode) (info : Nat) :
    s.raiseFatal c info = s.latch c info := by
  simp [State.raiseFatal, h]

/-- The first fault is kept (60 R203). -/
theorem State.raiseFatal_of_halted {s : State} (h : s.halted = true) (c : FatalCode) (info : Nat) :
    s.raiseFatal c info = s := by simp [State.raiseFatal, h]

/-- Bytes the UART stores inside `RXBUF` (42 R151). -/
theorem State.storeRx_of_le {s : State} {bs : List Byte} (h : s.rxReqOff + s.rxGot + bs.length ≤ s.cfg.rxbufSize) :
    s.storeRx bs = some (s.fill bs) := by
  simp [State.storeRx, h]

theorem State.storeRx_eq_some {s t : State} {bs : List Byte} (h : s.storeRx bs = some t) :
    s.rxReqOff + s.rxGot + bs.length ≤ s.cfg.rxbufSize ∧
    t = s.fill bs := by
  unfold State.storeRx at h
  split at h
  · exact ⟨by assumption, (Option.some.inj h).symm⟩
  · cases h

/-- A pull changes the controller's answers to come and `TXBUF[1 ..)` only (43 R183). -/
theorem State.pull_spec (s : State) (k : TxKind) :
    s.pull k = ((nextAnswer (s.answers k)).1,
      s.pulled k (nextAnswer (s.answers k)).2 (nextAnswer (s.answers k)).1.written) := rfl

/-- A pull when an answer is to come. -/
theorem State.pull_of_cons {s : State} {k : TxKind} {a : PullAnswer} {rest : List PullAnswer}
    (h : s.answers k = a :: rest) : s.pull k = (a, s.pulled k rest a.written) := by
  rw [State.pull_spec, h]; rfl

/-- The buffers hold the five bytes of the longer header and the two of the shortest transmission (00_scope R5). -/
theorem Config.rxbufSize_ge (c : Config) : 5 ≤ c.rxbufSize := c.admissible.1
theorem Config.txbufSize_ge (c : Config) : 2 ≤ c.txbufSize := c.admissible.2.1

end Sys2Proof.Machine
end

