-- ==== Sys2Proof/Laws/Run.lean ====
section
/-! SUPPORT. Laws/Run.lean: what each program does when it runs without interruption. -/

namespace Sys2Proof.Machine

/-! Running a program -/

@[simp] theorem Prog.run_done (c : Ctx) (r : Result) (s : State) : (Prog.done r).run c s = .next (s.returns r) := rfl
@[simp] theorem Prog.run_fatal (c : Ctx) (code : FatalCode) (info : Nat) (s : State) :
    (Prog.fatal code info).run c s = .next ((s.raiseFatal code info).returns .nothing) := rfl
@[simp] theorem Prog.run_refuse (c : Ctx) (r : Refusal) (s : State) : (Prog.refuse r).run c s = .refused r := rfl
@[simp] theorem Prog.run_stay (c : Ctx) (call : Call) (s : State) :
    (Prog.stay call).run c s = .next (s.suspend ⟨c, call, []⟩) := rfl

theorem Prog.run_act {c : Ctx} {m : Micro} {k : Val → Prog} {s t : State} {v : Val} (h : s.perform m = .ok (v, t)) :
    (Prog.act m k).run c s = (k v).run c t := by simp only [Prog.run, h]

theorem Prog.run_act_fault {c : Ctx} {m : Micro} {k : Val → Prog} {s : State} {f : Fault} (h : s.perform m = .error f) :
    (Prog.act m k).run c s = .fault f := by simp only [Prog.run, h]

/-- An operation of a block that is not halted runs. -/
theorem State.performs_of_running {s : State} (h : s.halted = false) (c : Ctx) (p : Around → Prog) :
    s.performs c p = (p (s.around c)).run c s := by simp [State.performs, h]

/-- An operation of a halted block has no effect and returns nothing. -/
theorem State.performs_of_halted {s : State} (h : s.halted = true) (c : Ctx) (p : Around → Prog) :
    s.performs c p = .next (s.returns .nothing) := by simp [State.performs, h]

/-- Every meaning is its program, performed in the operation's context. -/
theorem exec_eq_performs (i : Instr) (s : State) :
    exec i s = s.performs (Instr.context i s.runningCtx) (Instr.prog i) := by cases i <;> rfl

theorem exec_of_running (i : Instr) {s : State} (h : s.halted = false) :
    exec i s = (Instr.prog i (s.around (Instr.context i s.runningCtx))).run (Instr.context i s.runningCtx) s := by
  rw [exec_eq_performs, State.performs_of_running h]

theorem exec_of_halted (i : Instr) {s : State} (h : s.halted = true) : exec i s = .next (s.returns .nothing) := by
  rw [exec_eq_performs, State.performs_of_halted h]

/-! The loads and stores of the block (20_memory R50) -/

theorem State.load_of_lt {s : State} {sp : Space} {a : Nat} (h : a < Config.size s.cfg sp) :
    s.load sp a = .ok (.byte (Memory.read (s.space sp) a), s) := by simp [State.load, h]

theorem State.store_of_lt {s : State} {sp : Space} {a : Nat} (h : a < Config.size s.cfg sp) (b : Byte) :
    s.store sp a b = .ok (.unit, s.setByte sp a b) := by simp [State.store, h]

@[simp] theorem Config.size_slotsOf (c : Config) (p : PoolId) : Config.size c (slotsOf p) = ringS := by cases p <;> rfl

@[simp] theorem State.space_slotsOf (s : State) (p : PoolId) : s.space (slotsOf p) = (s.pool p).slots := by
  cases p <;> rfl

@[simp] theorem State.setByte_slotsOf (s : State) (p : PoolId) (a : Nat) (b : Byte) :
    s.setByte (slotsOf p) a b = s.setSlot p a b := by cases p <;> rfl

/-! RingPool -/

@[simp] theorem Prog.run_isFull (c : Ctx) (p : PoolId) (k : Bool → Prog) (s : State) :
    (Prog.isFull p k).run c s = (k (s.pool p).full).run c s := rfl

@[simp] theorem Prog.run_count (c : Ctx) (p : PoolId) (k : Nat → Prog) (s : State) :
    (Prog.count p k).run c s = (k (s.pool p).count).run c s := rfl

@[simp] theorem Prog.run_init (c : Ctx) (p : PoolId) (k : Prog) (s : State) :
    (Prog.init p k).run c s = k.run c (s.setPool p (s.pool p).init) := by cases p <;> rfl

@[simp] theorem Prog.run_enq (c : Ctx) (p : PoolId) (b : Byte) (k : Result → Prog) (s : State) :
    (Prog.enq p b k).run c s = (k (s.enqueue p b).1).run c (s.enqueue p b).2 := by
  have hs : (s.perform (.store (slotsOf p) (s.pool p).w.val b)) = .ok (.unit, s.setSlot p (s.pool p).w.val b) := by
    rw [State.perform, State.store_of_lt (by rw [Config.size_slotsOf]; exact (s.pool p).w.isLt), State.setByte_slotsOf]
  rw [Prog.enq, Prog.run_act rfl, Prog.run_act rfl]
  simp only [Val.getIndex]
  by_cases h : nextIndex (s.pool p).w = (s.pool p).r
  · rw [State.enqueue_of_full (by simp [RingPool.full, h])]
    simp only [h, if_true]
  · rw [State.enqueue_of_not_full (by simp [RingPool.full, h])]
    simp only [h, if_false]
    rw [Prog.run_act hs, Prog.run_act rfl]
    cases p <;> rfl

@[simp] theorem Prog.run_deq (c : Ctx) (p : PoolId) (k : Result → Prog) (s : State) :
    (Prog.deq p k).run c s = (k (s.dequeue p).1).run c (s.dequeue p).2 := by
  have hl : (s.perform (.load (slotsOf p) (s.pool p).r.val)) = .ok (.byte (s.pool p).deqLoad, s) := by
    rw [State.perform, State.load_of_lt (by rw [Config.size_slotsOf]; exact (s.pool p).r.isLt), State.space_slotsOf, RingPool.deqLoad]
  rw [Prog.deq, Prog.run_act rfl, Prog.run_act rfl]
  simp only [Val.getIndex]
  by_cases h : (s.pool p).w = (s.pool p).r
  · rw [State.dequeue_of_empty (by simp [RingPool.empty, h])]
    simp only [h, if_true]
  · rw [State.dequeue_of_not_empty (by simp [RingPool.empty, h])]
    simp only [h, if_false]
    rw [Prog.run_act hl, Prog.run_act rfl]
    cases p <;> rfl

theorem State.setPool_setPool (s : State) (p : PoolId) (q q' : RingPool) : (s.setPool p q).setPool p q' = s.setPool p q' := by
  cases p <;> rfl

theorem Prog.run_deqN (c : Ctx) (p : PoolId) (n : Nat) (bs : List Byte) (k : Result → Prog) (s : State) (cs : List Byte)
    (q : RingPool) (h : RingPool.deqN n (s.pool p) = some (cs, q)) :
    (Prog.deqN p n bs k).run c s = (k (.taken (bs ++ cs))).run c (s.setPool p q) := by
  induction n generalizing s bs cs with
  | zero =>
    simp only [RingPool.deqN, Option.some.injEq, Prod.mk.injEq] at h
    obtain ⟨rfl, rfl⟩ := h
    cases p <;> simp [Prog.deqN, State.setPool]
  | succ n ih =>
    unfold RingPool.deqN at h
    split at h
    · cases h
    · rename_i b q1 hd
      split at h
      · cases h
      · rename_i bs' q' hn
        cases h
        have hd' : s.dequeue p = (.byte b, s.setPool p q1) := by simp [State.dequeue, hd]
        rw [Prog.deqN, Prog.run_deq, hd']
        simp only
        rw [ih (bs ++ [b]) (s.setPool p q1) bs' (by simpa using hn), State.setPool_setPool]
        simp

@[simp] theorem Prog.run_takev (c : Ctx) (p : PoolId) (n : Nat) (k : Result → Prog) (s : State) :
    (Prog.takev p n k).run c s = (k (s.take p n).1).run c (s.take p n).2 := by
  rw [Prog.takev, Prog.run_count]
  split
  · rename_i h
    rw [State.take_of_gt h]
  · rename_i h
    obtain ⟨q, h1, -⟩ := RingPool.deqN_of_le (Nat.not_lt.1 h)
    rw [Prog.run_deqN c p n [] k s _ q h1]
    simp [State.take, RingPool.takev, h, h1]

/-! RandomSource -/

@[simp] theorem Prog.run_produce (c : Ctx) (b : Byte) (k : Prog) (s : State) :
    (Prog.produce b k).run c s = k.run c (s.produce b) := by
  rw [Prog.produce, Prog.run_isFull, State.produce]
  cases hh : s.high.full
  · simp [hh]
  · cases hl : s.low.full <;> simp [hh, hl]

/-- The pump: nothing without a waiting byte; else a second producer is refused, and a sole one takes the byte and routes
it (41 R138, R139). -/
theorem Prog.run_pump (c : Ctx) (a : Around) (k : Prog) (s : State) :
    (Prog.pump a k).run c s =
      if s.rngReady = false then k.run c s
      else if a.producing = true then .refused .secondProducer
      else k.run c s.pump := by
  rw [Prog.pump, Prog.run_act rfl]
  simp only [Val.getFlag]
  cases s.rngReady
  · simp
  · cases a.producing
    · simp only [Bool.not_true, Bool.false_eq_true, if_false, Bool.true_eq_false]
      rw [Prog.run_act rfl, Prog.run_produce]
      rfl
    · simp

/-- A pass of the blocking getter that finds enough bytes (41 R138). -/
theorem Prog.run_getlobPass_of_le (c : Ctx) (a : Around) {n : Nat} (k : Result → Prog) (again : Prog) {s : State}
    (h : n ≤ s.low.count) :
    (Prog.getlobPass a n k again).run c s = (k (s.take .low n).1).run c (s.take .low n).2 := by
  obtain ⟨q, h1, -⟩ := State.take_of_le (s := s) (p := .low) h
  rw [Prog.getlobPass, Prog.run_takev, h1]

/-- A pass of the blocking getter that finds too few bytes: the pump, or nothing (41 R138, R139). -/
theorem Prog.run_getlobPass_of_gt (c : Ctx) (a : Around) {n : Nat} (k : Result → Prog) (again : Prog) {s : State}
    (h : s.low.count < n) :
    (Prog.getlobPass a n k again).run c s = if a.pumps then (Prog.pump a again).run c s else again.run c s := by
  rw [Prog.getlobPass, Prog.run_takev, State.take_of_gt (p := .low) h]
  simp only
  split <;> rfl

/-! H4 Framer -/

@[simp] theorem Prog.run_request (c : Ctx) (off n : Nat) (s : State) :
    (Prog.request off n).run c s = .next ((s.request off n).returns .nothing) := rfl

@[simp] theorem Prog.run_await (c : Ctx) (x : RxState) (off n : Nat) (s : State) :
    (Prog.await x off n).run c s = .next (((s.enter x).request off n).returns .nothing) := rfl

/-- The ingest call's status: failure is fatal, success requests the next type byte (42 R152). -/
theorem Prog.run_ingested (c : Ctx) (ty : Byte) (status : Nat) (s : State) :
    (Prog.ingested ty status).run c s =
      .next ((if status = 0 then (s.enter .awaitingType).request 0 1
        else s.raiseFatal .controllerReject ty.toNat).returns .nothing) := by
  unfold Prog.ingested
  by_cases h : status = 0
  · rw [if_neg (by simp [h]), if_pos h, Prog.run_await]
  · rw [if_pos h, if_neg h, Prog.run_fatal]

/-- While the controller has not answered, the transition waits (42 R152; log 11). -/
theorem Prog.run_awaitAnswer_of_nil {c : Ctx} {a : Around} {ty : Byte} {s : State} (h : s.ctlIngest = []) :
    (Prog.awaitAnswer a ty).run c s = .next (s.suspend ⟨c, .awaiting ty, []⟩) := by
  simp only [Prog.awaitAnswer, Prog.run, State.perform, State.takeAnswer, h, Val.getAnswer]

/-- The controller's answer says what its ingest code does (60 R216). -/
theorem Prog.run_awaitAnswer_of_cons {c : Ctx} {a : Around} {ty : Byte} {x : IngestAnswer} {rest : List IngestAnswer}
    {s : State} (h : s.ctlIngest = x :: rest) :
    (Prog.awaitAnswer a ty).run c s = (Prog.ingestCode a ty x.status x.calls).run c (s.setAnswers rest) := by
  simp only [Prog.awaitAnswer, Prog.run, State.perform, State.takeAnswer, h, Val.getAnswer]

theorem Prog.run_load (c : Ctx) {sp : Space} {a : Nat} (k : Val → Prog) {s : State} (h : a < Config.size s.cfg sp) :
    (Prog.act (.load sp a) k).run c s = (k (.byte (Memory.read (s.space sp) a))).run c s :=
  Prog.run_act (State.load_of_lt h)

theorem Prog.run_ingest (c : Ctx) {kind : IngestKind} {n : Nat} (k : Val → Prog) {s : State}
    (h : 1 + n ≤ s.cfg.rxbufSize) :
    (Prog.act (.ingest kind n) k).run c s = (k .unit).run c (s.passes ⟨kind, Memory.readN s.rxbuf 1 n⟩) :=
  Prog.run_act (by simp [State.perform, State.ingest, h])

/-- The delivery of a Command frame that lies in `RXBUF` (42 R152). -/
theorem Prog.run_deliver_cmd {c : Ctx} {a : Around} {s : State} (h0 : Memory.read s.rxbuf 0 = tCmd)
    (hf : cmdPayloadOff + cmdLength (Memory.read s.rxbuf 3) ≤ s.cfg.rxbufSize) :
    (Prog.deliver a).run c s = (Prog.awaitAnswer a tCmd).run c
      (s.passes ⟨.command, Memory.readN s.rxbuf 1 (cmdHdr + cmdLength (Memory.read s.rxbuf 3))⟩) := by
  have h5 := Config.rxbufSize_ge s.cfg
  simp only [cmdPayloadOff, cmdHdr] at *
  rw [Prog.deliver, Prog.run_load c _ (by simp only [Config.size]; omega)]
  simp only [Val.getByte, State.space, h0, if_true]
  rw [Prog.run_load c _ (by simp only [Config.size]; omega), Prog.run_ingest c _ (by simp only [State.space, cmdHdr]; omega)]
  rfl

/-- The delivery of an ACL-Data frame that lies in `RXBUF` (42 R152). -/
theorem Prog.run_deliver_acl {c : Ctx} {a : Around} {s : State} (h0 : Memory.read s.rxbuf 0 = tAcl)
    (hf : aclPayloadOff + aclLength (Memory.read s.rxbuf 3) (Memory.read s.rxbuf 4) ≤ s.cfg.rxbufSize) :
    (Prog.deliver a).run c s = (Prog.awaitAnswer a tAcl).run c
      (s.passes ⟨.data, Memory.readN s.rxbuf 1
        (aclHdr + aclLength (Memory.read s.rxbuf 3) (Memory.read s.rxbuf 4))⟩) := by
  have h5 := Config.rxbufSize_ge s.cfg
  simp only [aclPayloadOff, aclHdr] at *
  rw [Prog.deliver, Prog.run_load c _ (by simp only [Config.size]; omega)]
  simp only [Val.getByte, State.space, h0, if_true, if_neg (show ¬ tAcl = tCmd by decide)]
  rw [Prog.run_load c _ (by simp only [Config.size]; omega), Prog.run_load c _ (by simp only [Config.size]; omega),
    Prog.run_ingest c _ (by simp only [State.space, aclHdr]; omega)]
  rfl

/-- A payload request that fits, or the fatal condition (42 R162). -/
theorem Prog.run_requestPayload (c : Ctx) (a : Around) (off len : Nat) (s : State) :
    (Prog.requestPayload a off len).run c s =
      .next ((if a.cfg.rxbufSize < off + len then s.raiseFatal .rxOverlength len
        else (s.enter .awaitingPayload).request off len).returns .nothing) := by
  unfold Prog.requestPayload
  by_cases h : a.cfg.rxbufSize < off + len
  · rw [if_pos h, if_pos h, Prog.run_fatal]
  · rw [if_neg h, if_neg h, Prog.run_await]

theorem Memory.readN_five (m : Memory) :
    Memory.readN m 0 5 = [Memory.read m 0, Memory.read m 1, Memory.read m 2, Memory.read m 3, Memory.read m 4] := rfl

/-- The transition of an RX-complete is the one the framer's decoder reads from the five bytes of the frame (42 R153). -/
theorem Prog.run_transition (c : Ctx) (a : Around) (s : State) :
    ∃ i rest, decode (.framer s.rxState) (Memory.readN s.rxbuf 0 5) = .ok (i, rest) ∧ i.source = .framer s.rxState ∧
      (∀ c, Instr.context i c = .irqRx) ∧ (Prog.transition a).run c s = (Instr.prog i a).run c s := by
  have h5 := Config.rxbufSize_ge s.cfg
  rw [Memory.readN_five, Prog.transition, Prog.run_act rfl]
  cases hx : s.rxState <;> simp only [Val.getRxState, decode, decodeFrame]
  · rw [Prog.run_load c _ (by simp only [Config.size]; omega)]
    simp only [Val.getByte, State.space]
    by_cases h0 : Memory.read s.rxbuf 0 = tCmd
    · exact ⟨.rxTypeCmd, _, by rw [if_pos h0], rfl, fun _ => rfl, by simp only [h0, if_true]; rfl⟩
    · by_cases h1 : Memory.read s.rxbuf 0 = tAcl
      · exact ⟨.rxTypeAcl, _, by rw [if_neg h0, if_pos h1], rfl, fun _ => rfl, by simp only [h1, if_true]; rfl⟩
      · exact ⟨.rxTypeBad _, _, by rw [if_neg h0, if_neg h1], rfl, fun _ => rfl, by simp only [h0, h1, if_false]; rfl⟩
  · rw [Prog.run_load c _ (by simp only [Config.size]; omega), Prog.run_load c _ (by simp only [Config.size]; omega)]
    simp only [Val.getByte, State.space]
    by_cases h0 : Memory.read s.rxbuf 3 = 0#8 ∧ Memory.read s.rxbuf 4 = 0#8
    · exact ⟨.rxAclhdrZ _ _, _, by rw [if_pos h0], rfl, fun _ => rfl, by simp only [h0, and_self, if_true]; rfl⟩
    · exact ⟨.rxAclhdrNz _ _ _ _, _, by rw [if_neg h0], rfl, fun _ => rfl, by simp only [h0, if_false]; rfl⟩
  · rw [Prog.run_load c _ (by simp only [Config.size]; omega)]
    simp only [Val.getByte, State.space]
    by_cases h0 : Memory.read s.rxbuf 3 = 0#8
    · exact ⟨.rxCmdhdrZ _ _, _, by rw [if_pos h0], rfl, fun _ => rfl, by simp only [h0, if_true]; rfl⟩
    · exact ⟨.rxCmdhdrNz _ _ _, _, by rw [if_neg h0], rfl, fun _ => rfl, by simp only [h0, if_false]; rfl⟩
  · exact ⟨_, _, rfl, rfl, fun _ => rfl, rfl⟩

/-! Receiving (42 R151, R153, R165) -/

theorem State.fill_fill (s : State) (bs cs : List Byte) : (s.fill bs).fill cs = s.fill (bs ++ cs) := by
  simp [State.fill, Memory.writeN_append, Nat.add_assoc]

@[simp] theorem State.fill_nil (s : State) : s.fill [] = s := rfl

/-- What arriving bytes can be to the request they are of. -/
theorem State.receive_cases (s : State) (bs : List Byte) :
    (s.cfg.rxbufSize < s.rxReqOff + s.rxGot + bs.length ∧ s.receive bs = .error (.noSuchByte .rxbuf)) ∨
    (s.rxReqOff + s.rxGot + bs.length ≤ s.cfg.rxbufSize ∧ s.rxGot + bs.length = s.rxReqLen ∧
      s.receive bs = .ok (.receipt .filled, (s.fill bs).beginRx)) ∨
    (s.rxReqOff + s.rxGot + bs.length ≤ s.cfg.rxbufSize ∧ s.rxGot + bs.length ≠ s.rxReqLen ∧
      s.receive bs = .ok (.receipt .stored, s.fill bs)) := by
  unfold State.receive
  rcases Nat.lt_or_ge s.cfg.rxbufSize (s.rxReqOff + s.rxGot + bs.length) with hf | hf
  · exact .inl ⟨hf, by rw [State.storeRx, if_neg (by omega)]⟩
  · rw [State.storeRx_of_le hf]
    by_cases hg : s.rxGot + bs.length = s.rxReqLen
    · exact .inr (.inl ⟨hf, hg, by simp [hg]⟩)
    · exact .inr (.inr ⟨hf, hg, by simp [hg]⟩)

/-- Bytes that fill the request: RX-complete is taken. -/
theorem State.receive_filling {s : State} {bs : List Byte} (hg : s.rxGot + bs.length = s.rxReqLen)
    (hf : s.rxReqOff + s.rxReqLen ≤ s.cfg.rxbufSize) : s.receive bs = .ok (.receipt .filled, (s.fill bs).beginRx) := by
  rcases s.receive_cases bs with ⟨h, -⟩ | ⟨-, -, h⟩ | ⟨-, h, -⟩
  · omega
  · exact h
  · exact absurd hg h

/-- Bytes that do not fill the request are stored and counted. -/
theorem State.receive_partly {s : State} {bs : List Byte} (hg : s.rxGot + bs.length ≠ s.rxReqLen)
    (hf : s.rxReqOff + s.rxGot + bs.length ≤ s.cfg.rxbufSize) : s.receive bs = .ok (.receipt .stored, s.fill bs) := by
  rcases s.receive_cases bs with ⟨h, -⟩ | ⟨-, h, -⟩ | ⟨-, -, h⟩
  · omega
  · exact absurd h hg
  · exact h

/-! H4 Multiplexer -/

/-- A poll of a busy path does nothing (43 R181, step 1). -/
theorem run_txPoll_of_busy {c : Ctx} {a : Around} {s : State} (hb : s.txIdle = false) :
    (progTxPoll a).run c s = .next (s.returns .nothing) := by
  rw [progTxPoll, Prog.run_act rfl, hb]; rfl

/-- A frame of the given length is sent (43 R184). -/
theorem Prog.run_send (c : Ctx) (k : TxKind) {n : Nat} {s : State} (h : n ≤ s.cfg.txbufSize) :
    (Prog.send k n).run c s =
      .next ((((((s.setByte .txbuf 0 k.typeByte).setTxIdle false).setTxLen n).uartTx n)).returns .nothing) := by
  have h2 := Config.txbufSize_ge s.cfg
  have hs : s.perform (.store .txbuf 0 k.typeByte) = .ok (.unit, s.setByte .txbuf 0 k.typeByte) :=
    State.store_of_lt (by simp only [Config.size]; omega) _
  rw [Prog.send, Prog.run_act hs, Prog.run_act rfl, Prog.run_act rfl,
    Prog.run_act (v := .unit) (t := (((s.setByte .txbuf 0 k.typeByte).setTxIdle false).setTxLen n).uartTx n)
      (by simp only [State.perform, State.transmit]; exact if_pos h)]
  rfl

/-- A poll of an idle path, by the length of the controller's answer (43 R181 to R187). -/
theorem run_txPoll_of_idle {c : Ctx} {a : Around} {s : State} (ha : a.cfg = s.cfg) (hb : s.txIdle = true) {k : TxKind}
    (hk : s.pullKind = k) {x : PullAnswer} {rest : List PullAnswer} (hx : nextAnswer (s.answers k) = (x, rest)) :
    (progTxPoll a).run c s =
      let t := (s.pulled k rest x.written).noteKind k
      .next (State.returns
        (if x.len = 0 then t
         else if s.cfg.txbufSize < 1 + x.len then t.raiseFatal .txOverlength x.len
         else (((t.setByte .txbuf 0 k.typeByte).setTxIdle false).setTxLen (1 + x.len)).uartTx (1 + x.len)) .nothing) := by
  subst hk
  have hp : s.pull s.pullKind = (x, s.pulled s.pullKind rest x.written) := by rw [State.pull, hx]
  rw [progTxPoll, Prog.run_act rfl, hb]
  simp only [Val.getFlag, Bool.not_true, Bool.false_eq_true, if_false]
  rw [Prog.run_act rfl]
  rw [show txKind s.txLastEvt = s.pullKind from rfl,
    Prog.run_act (v := .length x.len) (t := s.pulled s.pullKind rest x.written) (by simp only [State.perform, hp]),
    Prog.run_act rfl]
  simp only [Val.getLength, ha]
  split
  · rfl
  · split
    · rfl
    · rename_i h
      rw [Prog.run_send c _ (by simp at h ⊢; omega)]

end Sys2Proof.Machine
end

