-- ==== Sys2Proof/Laws/Micro.lean ====
section
/-! SUPPORT. Laws/Micro.lean: everything a micro-step can change, and everything a program, run to its end or cut, can lead
to. -/

namespace Sys2Proof.Machine

/-! Micro-steps -/

/-- What no micro-step changes: the configuration, the contexts, the latch, the inputs not yet read. -/
structure State.Unmoved (s t : State) : Prop where
  cfg : t.cfg = s.cfg
  ctx : t.ctx = s.ctx
  stack : t.stack = s.stack
  halted : t.halted = s.halted
  faultCode : t.faultCode = s.faultCode
  faultInfo : t.faultInfo = s.faultInfo
  script : t.script = s.script
  sched : t.sched = s.sched
  rxLine : t.rxLine = s.rxLine
  rngLine : t.rngLine = s.rngLine

theorem State.Unmoved.refl (s : State) : s.Unmoved s := ⟨rfl, rfl, rfl, rfl, rfl, rfl, rfl, rfl, rfl, rfl⟩

theorem State.Unmoved.trans {s t u : State} (h : s.Unmoved t) (h' : t.Unmoved u) : s.Unmoved u :=
  ⟨h'.cfg.trans h.cfg, h'.ctx.trans h.ctx, h'.stack.trans h.stack, h'.halted.trans h.halted,
    h'.faultCode.trans h.faultCode, h'.faultInfo.trans h.faultInfo, h'.script.trans h.script, h'.sched.trans h.sched,
    h'.rxLine.trans h.rxLine, h'.rngLine.trans h.rngLine⟩

/-- The unit a byte space belongs to (20_memory R50). -/
def spacePart : Space → Part
  | .slotHigh => .pools
  | .slotLow => .pools
  | .rxbuf => .framer
  | .txbuf => .mux

/-- The unit whose state a micro-step reads or writes. -/
def Micro.part : Micro → Part
  | .readW _ | .readR _ | .writeW _ _ | .writeR _ _ | .startRng | .readRngReady | .takeRng => .pools
  | .load sp _ | .store sp _ _ => spacePart sp
  | .readRxState | .enter _ | .reqOff _ | .reqLen _ | .reqGot | .reqValid | .begin | .completeRequest _ | .storeByte _
  | .ingest _ _ | .takeAnswer | .gave _ => .framer
  | .readTxIdle | .readTxLast | .pull _ | .noteKind _ | .setTxIdle _ | .setTxLen _ | .uartTx _ | .takeTxEvent => .mux

theorem State.setSlot_eq (s : State) (p : PoolId) (a : Nat) (b : Byte) :
    ∃ h l, s.setSlot p a b = { s with high := h, low := l } := by
  cases p
  · exact ⟨_, _, rfl⟩
  · exact ⟨_, _, rfl⟩

/-- A micro-step of the pools changes the pools, `rs_started` (to true) and `rng_ready` (to false) only. -/
theorem State.perform_pools {s t : State} {m : Micro} {v : Val} (hm : m.part = .pools) (h : s.perform m = .ok (v, t)) :
    t = { s with high := t.high, low := t.low, rsStarted := t.rsStarted, rngReady := t.rngReady } ∧
      (s.rsStarted = true → t.rsStarted = true) ∧ (t.rngReady = true → s.rngReady = true) := by
  cases m with
  | readW p => cases h; exact ⟨rfl, id, id⟩
  | readR p => cases h; exact ⟨rfl, id, id⟩
  | writeW p i => cases h; cases p <;> exact ⟨rfl, id, id⟩
  | writeR p i => cases h; cases p <;> exact ⟨rfl, id, id⟩
  | startRng => cases h; exact ⟨rfl, fun _ => rfl, id⟩
  | readRngReady => cases h; exact ⟨rfl, id, id⟩
  | takeRng => cases h; exact ⟨rfl, id, fun h => by cases h⟩
  | load sp a =>
    simp only [State.perform, State.load] at h
    split at h <;> cases h
    exact ⟨rfl, id, id⟩
  | store sp a b =>
    simp only [State.perform, State.store] at h
    split at h <;> cases h
    cases sp with
    | slotHigh => exact ⟨rfl, id, id⟩
    | slotLow => exact ⟨rfl, id, id⟩
    | rxbuf => cases hm
    | txbuf => cases hm
  | _ => cases hm

/-- A micro-step of the framer changes the framer's registers and buffer, and the record of the controller's part, only. -/
theorem State.perform_framer {s t : State} {m : Micro} {v : Val} (hm : m.part = .framer) (h : s.perform m = .ok (v, t)) :
    t = { s with
      rxState := t.rxState, rxReqValid := t.rxReqValid, rxReqOff := t.rxReqOff, rxReqLen := t.rxReqLen
      rxGot := t.rxGot, rxbuf := t.rxbuf, delivered := t.delivered, ctlIngest := t.ctlIngest, ctlGot := t.ctlGot } := by
  have receive {bs : List Byte} (h : s.receive bs = .ok (v, t)) : t = { s with
      rxState := t.rxState, rxReqValid := t.rxReqValid, rxReqOff := t.rxReqOff, rxReqLen := t.rxReqLen
      rxGot := t.rxGot, rxbuf := t.rxbuf, delivered := t.delivered, ctlIngest := t.ctlIngest, ctlGot := t.ctlGot } := by
    rcases s.receive_cases bs with ⟨-, h'⟩ | ⟨-, -, h'⟩ | ⟨-, -, h'⟩ <;> rw [h'] at h <;> cases h <;> rfl
  cases m with
  | load sp a =>
    simp only [State.perform, State.load] at h
    split at h <;> cases h
    rfl
  | store sp a b =>
    simp only [State.perform, State.store] at h
    split at h <;> cases h
    cases sp with
    | rxbuf => rfl
    | slotHigh => cases hm
    | slotLow => cases hm
    | txbuf => cases hm
  | begin =>
    simp only [State.perform] at h
    split at h <;> cases h <;> rfl
  | completeRequest bs =>
    simp only [State.perform, State.completeRequest] at h
    split at h
    · exact receive h
    · cases h; rfl
  | storeByte b =>
    simp only [State.perform, State.storeByte] at h
    split at h
    · exact receive h
    · cases h; rfl
  | ingest kind n =>
    simp only [State.perform, State.ingest] at h
    split at h <;> cases h
    rfl
  | takeAnswer =>
    simp only [State.perform, State.takeAnswer] at h
    split at h <;> cases h <;> rfl
  | readRxState => cases h; rfl
  | enter x => cases h; rfl
  | reqOff n => cases h; rfl
  | reqLen n => cases h; rfl
  | reqGot => cases h; rfl
  | reqValid => cases h; rfl
  | gave r => cases h; rfl
  | _ => cases hm

/-- A micro-step of the multiplexer changes its registers and buffer, the transmission in flight, and the controller's
answers to pulls only. -/
theorem State.perform_mux {s t : State} {m : Micro} {v : Val} (hm : m.part = .mux) (h : s.perform m = .ok (v, t)) :
    t = { s with
      txLastEvt := t.txLastEvt, txIdle := t.txIdle, txLen := t.txLen, txbuf := t.txbuf, txFlight := t.txFlight
      txDone := t.txDone, sent := t.sent, ctlEvents := t.ctlEvents, ctlDatas := t.ctlDatas } := by
  cases m with
  | load sp a =>
    simp only [State.perform, State.load] at h
    split at h <;> cases h
    rfl
  | store sp a b =>
    simp only [State.perform, State.store] at h
    split at h <;> cases h
    cases sp with
    | txbuf => rfl
    | slotHigh => cases hm
    | slotLow => cases hm
    | rxbuf => cases hm
  | pull k =>
    cases h
    simp only [State.pull]
    cases k <;> rfl
  | uartTx n =>
    simp only [State.perform, State.transmit] at h
    split at h <;> cases h
    rfl
  | readTxIdle => cases h; rfl
  | readTxLast => cases h; rfl
  | noteKind k => cases h; rfl
  | setTxIdle b => cases h; rfl
  | setTxLen n => cases h; rfl
  | takeTxEvent => cases h; rfl
  | _ => cases hm

theorem State.perform_unmoved {s t : State} {m : Micro} {v : Val} (h : s.perform m = .ok (v, t)) : s.Unmoved t := by
  cases hm : m.part with
  | pools => rw [(State.perform_pools hm h).1]; exact ⟨rfl, rfl, rfl, rfl, rfl, rfl, rfl, rfl, rfl, rfl⟩
  | framer => rw [State.perform_framer hm h]; exact ⟨rfl, rfl, rfl, rfl, rfl, rfl, rfl, rfl, rfl, rfl⟩
  | mux => rw [State.perform_mux hm h]; exact ⟨rfl, rfl, rfl, rfl, rfl, rfl, rfl, rfl, rfl, rfl⟩

/-- A micro-step neither stops the generator nor makes a random byte wait. -/
theorem State.perform_random {s t : State} {m : Micro} {v : Val} (h : s.perform m = .ok (v, t)) :
    (s.rsStarted = true → t.rsStarted = true) ∧ (t.rngReady = true → s.rngReady = true) := by
  cases hm : m.part with
  | pools => exact (State.perform_pools hm h).2
  | framer => rw [State.perform_framer hm h]; exact ⟨id, id⟩
  | mux => rw [State.perform_mux hm h]; exact ⟨id, id⟩

/-- Where the framer is no part of what a micro-step touches, it stays (00_scope R11). -/
theorem State.perform_sameFramer {s t : State} {m : Micro} {v : Val} (hm : m.part ≠ .framer)
    (h : s.perform m = .ok (v, t)) : SameFramer s t := by
  cases hp : m.part with
  | pools => rw [(State.perform_pools hp h).1]; exact ⟨rfl, rfl, rfl, rfl, rfl, rfl, rfl⟩
  | framer => exact absurd hp hm
  | mux => rw [State.perform_mux hp h]; exact ⟨rfl, rfl, rfl, rfl, rfl, rfl, rfl⟩

/-- Where the multiplexer is no part of what a micro-step touches, it and its transmission stay (00_scope R11). -/
theorem State.perform_muxSeen {s t : State} {m : Micro} {v : Val} (hm : m.part ≠ .mux)
    (h : s.perform m = .ok (v, t)) : MuxSeen s t := by
  cases hp : m.part with
  | pools => rw [(State.perform_pools hp h).1]; exact ⟨⟨rfl, rfl, rfl, rfl, rfl⟩, rfl, rfl, rfl⟩
  | framer => rw [State.perform_framer hp h]; exact ⟨⟨rfl, rfl, rfl, rfl, rfl⟩, rfl, rfl, rfl⟩
  | mux => exact absurd hp hm

/-- Where the pools are no part of what a micro-step touches, they stay (00_scope R11). -/
theorem State.perform_sameRandom {s t : State} {m : Micro} {v : Val} (hm : m.part ≠ .pools)
    (h : s.perform m = .ok (v, t)) : SameRandom s t := by
  cases hp : m.part with
  | pools => exact absurd hp hm
  | framer => rw [State.perform_framer hp h]; exact ⟨rfl, rfl, rfl⟩
  | mux => rw [State.perform_mux hp h]; exact ⟨rfl, rfl, rfl⟩

theorem State.MemoryWf.setPool {s : State} (h : s.MemoryWf) {p : PoolId} {q : RingPool} (hq : q.Wf) :
    (s.setPool p q).MemoryWf := by
  cases p
  · exact ⟨hq, h.low, h.rxbuf, h.rxbufWithin, h.txbuf, h.txbufWithin⟩
  · exact ⟨h.high, hq, h.rxbuf, h.rxbufWithin, h.txbuf, h.txbufWithin⟩

/-- The memory of a state is well formed where its parts are those of one whose memory is. -/
theorem State.MemoryWf.congr {s t : State} (h : s.MemoryWf) (hh : t.high = s.high) (hl : t.low = s.low)
    (hr : t.rxbuf = s.rxbuf) (ht : t.txbuf = s.txbuf) (hc : t.cfg = s.cfg) : t.MemoryWf :=
  ⟨hh ▸ h.high, hl ▸ h.low, hr ▸ h.rxbuf, by rw [hr, hc]; exact h.rxbufWithin, ht ▸ h.txbuf,
    by rw [ht, hc]; exact h.txbufWithin⟩

theorem State.MemoryWf.fill {s : State} (h : s.MemoryWf) {bs : List Byte}
    (hf : s.rxReqOff + s.rxGot + bs.length ≤ s.cfg.rxbufSize) : (s.fill bs).MemoryWf :=
  ⟨h.high, h.low, Memory.writeN_wf h.rxbuf _ _, Memory.writeN_within h.rxbufWithin _ hf, h.txbuf, h.txbufWithin⟩

theorem State.MemoryWf.receive {s t : State} (h : s.MemoryWf) {bs : List Byte} {v : Val}
    (hr : s.receive bs = .ok (v, t)) : t.MemoryWf := by
  rcases s.receive_cases bs with ⟨-, h'⟩ | ⟨hf, -, h'⟩ | ⟨hf, -, h'⟩ <;> rw [h'] at hr <;> cases hr
  · exact (h.fill hf).congr rfl rfl rfl rfl rfl
  · exact h.fill hf

/-- Every micro-step keeps the four byte spaces in canonical form and in bounds. -/
theorem State.MemoryWf.perform {s t : State} {m : Micro} {v : Val} (hw : s.MemoryWf) (h : s.perform m = .ok (v, t)) :
    t.MemoryWf := by
  cases m with
  | writeW p i => cases h; exact hw.setPool (hw.pool p)
  | writeR p i => cases h; exact hw.setPool (hw.pool p)
  | load sp a =>
    simp only [State.perform, State.load] at h
    split at h <;> cases h
    exact hw
  | store sp a b =>
    simp only [State.perform, State.store] at h
    split at h <;> cases h
    rename_i ha
    cases sp with
    | slotHigh => exact hw.setPool (p := .high) ⟨Memory.write_wf hw.high.1 _ _, Memory.write_within hw.high.2 ha b⟩
    | slotLow => exact hw.setPool (p := .low) ⟨Memory.write_wf hw.low.1 _ _, Memory.write_within hw.low.2 ha b⟩
    | rxbuf =>
      exact ⟨hw.high, hw.low, Memory.write_wf hw.rxbuf _ _, Memory.write_within hw.rxbufWithin ha b, hw.txbuf, hw.txbufWithin⟩
    | txbuf =>
      exact ⟨hw.high, hw.low, hw.rxbuf, hw.rxbufWithin, Memory.write_wf hw.txbuf _ _, Memory.write_within hw.txbufWithin ha b⟩
  | begin =>
    simp only [State.perform] at h
    split at h <;> cases h <;> exact hw.congr rfl rfl rfl rfl rfl
  | completeRequest bs =>
    simp only [State.perform, State.completeRequest] at h
    split at h
    · exact hw.receive h
    · cases h; exact hw
  | storeByte b =>
    simp only [State.perform, State.storeByte] at h
    split at h
    · exact hw.receive h
    · cases h; exact hw
  | ingest kind n =>
    simp only [State.perform, State.ingest] at h
    split at h <;> cases h
    exact hw.congr rfl rfl rfl rfl rfl
  | takeAnswer =>
    simp only [State.perform, State.takeAnswer] at h
    split at h <;> cases h
    · exact hw
    · exact hw.congr rfl rfl rfl rfl rfl
  | pull k =>
    cases h
    have h2 := Config.txbufSize_ge s.cfg
    have hx (bs : List Byte) : Memory.Within (Memory.writeN s.txbuf 1 (bs.take (s.cfg.txbufSize - 1))) s.cfg.txbufSize :=
      Memory.writeN_within hw.txbufWithin _ (by rw [List.length_take]; omega)
    simp only [State.pull]
    cases k <;> exact ⟨hw.high, hw.low, hw.rxbuf, hw.rxbufWithin, Memory.writeN_wf hw.txbuf _ _, hx _⟩
  | uartTx n =>
    simp only [State.perform, State.transmit] at h
    split at h <;> cases h
    exact hw.congr rfl rfl rfl rfl rfl
  | _ => cases h; exact hw.congr rfl rfl rfl rfl rfl

/-! Programs -/

/-- What a program may do: the micro-steps it may make, the calls it may go on as, and whether it may raise a fatal
condition. -/
structure Allowed where
  micro : Micro → Prop
  stays : Call → Prop
  fatal : Prop

/-- A program does only what is allowed. -/
def Prog.Obeys (x : Allowed) : Prog → Prop
  | .done _ => True
  | .fatal _ _ => x.fatal
  | .refuse _ => True
  | .stay c => x.stays c
  | .act m k => x.micro m ∧ ∀ v, (k v).Obeys x

theorem Prog.Obeys.after {x : Allowed} {q : Prog} (h : q.Obeys x) (vs : List Val) : (q.after vs).Obeys x := by
  induction vs generalizing q with
  | nil => cases q <;> exact h
  | cons v vs ih =>
    cases q with
    | act m k => exact ih (h.2 v)
    | _ => exact h

/-- A micro-step by which bytes arrive in `RXBUF`: the only ones that write it. -/
def Micro.arrives : Micro → Bool
  | .completeRequest _ | .storeByte _ => true
  | .store sp _ _ => sp == .rxbuf
  | _ => false

/-- A micro-step that exists in every state. -/
def Micro.Total (m : Micro) : Prop := ∀ u : State, ∃ v t, u.perform m = .ok (v, t)

/-- The micro-steps of the pools are allowed, but for the start of the generator; none accesses a slot that does not exist
(20_memory R51). -/
def Allowed.Pools (x : Allowed) : Prop := ∀ m : Micro, m.part = .pools → m.Total → m ≠ .startRng → x.micro m

theorem State.perform_slot_load (u : State) (p : PoolId) (i : Fin ringS) :
    ∃ v t, u.perform (.load (slotsOf p) i.val) = .ok (v, t) :=
  ⟨_, _, State.load_of_lt (by rw [Config.size_slotsOf]; exact i.isLt)⟩

theorem State.perform_slot_store (u : State) (p : PoolId) (i : Fin ringS) (b : Byte) :
    ∃ v t, u.perform (.store (slotsOf p) i.val b) = .ok (v, t) :=
  ⟨_, _, State.store_of_lt (by rw [Config.size_slotsOf]; exact i.isLt) b⟩

/-- What a transition of the framer does is allowed; the arrival of bytes is not asked for. -/
structure Allowed.Framer (x : Allowed) : Prop where
  pools : x.Pools
  framer : ∀ m : Micro, m.part = .framer → m.arrives = false → x.micro m
  stays : ∀ c, Call.part c = .framer → x.stays c
  fatal : x.fatal

section
variable {x : Allowed}

theorem Prog.Obeys.request (hx : x.Framer) (off n : Nat) : (Prog.request off n).Obeys x :=
  ⟨hx.framer _ rfl rfl, fun _ => ⟨hx.framer _ rfl rfl, fun _ => ⟨hx.framer _ rfl rfl, fun _ => ⟨hx.framer _ rfl rfl, fun _ => trivial⟩⟩⟩⟩

theorem Prog.Obeys.await (hx : x.Framer) (y : RxState) (off n : Nat) : (Prog.await y off n).Obeys x :=
  ⟨hx.framer _ rfl rfl, fun _ => .request hx off n⟩

theorem Prog.Obeys.isFull (hx : x.Pools) {q : PoolId} {k : Bool → Prog} (h : ∀ b, (k b).Obeys x) :
    (Prog.isFull q k).Obeys x := ⟨hx _ rfl (fun _ => ⟨_, _, rfl⟩) nofun, fun _ => ⟨hx _ rfl (fun _ => ⟨_, _, rfl⟩) nofun, fun _ => h _⟩⟩

theorem Prog.Obeys.count (hx : x.Pools) {q : PoolId} {k : Nat → Prog} (h : ∀ n, (k n).Obeys x) :
    (Prog.count q k).Obeys x := ⟨hx _ rfl (fun _ => ⟨_, _, rfl⟩) nofun, fun _ => ⟨hx _ rfl (fun _ => ⟨_, _, rfl⟩) nofun, fun _ => h _⟩⟩

theorem Prog.Obeys.init (hx : x.Pools) {q : PoolId} {k : Prog} (h : k.Obeys x) : (Prog.init q k).Obeys x :=
  ⟨hx _ rfl (fun _ => ⟨_, _, rfl⟩) nofun, fun _ => ⟨hx _ rfl (fun _ => ⟨_, _, rfl⟩) nofun, fun _ => h⟩⟩

theorem spacePart_slotsOf (q : PoolId) : spacePart (slotsOf q) = .pools := by cases q <;> rfl

theorem Prog.Obeys.enq (hx : x.Pools) {q : PoolId} {b : Byte} {k : Result → Prog} (h : ∀ r, (k r).Obeys x) :
    (Prog.enq q b k).Obeys x := by
  refine ⟨hx _ rfl (fun _ => ⟨_, _, rfl⟩) nofun, fun w => ⟨hx _ rfl (fun _ => ⟨_, _, rfl⟩) nofun, fun r => ?_⟩⟩
  beta_reduce
  split
  · exact h _
  · exact ⟨hx _ (spacePart_slotsOf q) (fun u => u.perform_slot_store q _ b) nofun, fun _ => ⟨hx _ rfl (fun _ => ⟨_, _, rfl⟩) nofun, fun _ => h _⟩⟩

theorem Prog.Obeys.deq (hx : x.Pools) {q : PoolId} {k : Result → Prog} (h : ∀ r, (k r).Obeys x) :
    (Prog.deq q k).Obeys x := by
  refine ⟨hx _ rfl (fun _ => ⟨_, _, rfl⟩) nofun, fun w => ⟨hx _ rfl (fun _ => ⟨_, _, rfl⟩) nofun, fun r => ?_⟩⟩
  beta_reduce
  split
  · exact h _
  · exact ⟨hx _ (spacePart_slotsOf q) (fun u => u.perform_slot_load q _) nofun, fun _ => ⟨hx _ rfl (fun _ => ⟨_, _, rfl⟩) nofun, fun _ => h _⟩⟩

theorem Prog.Obeys.deqN (hx : x.Pools) {q : PoolId} {k : Result → Prog} (h : ∀ r, (k r).Obeys x) (n : Nat)
    (bs : List Byte) : (Prog.deqN q n bs k).Obeys x := by
  induction n generalizing bs with
  | zero => exact h _
  | succ n ih =>
    refine .deq hx fun r => ?_
    split
    · exact ih _
    · exact h _

theorem Prog.Obeys.takev (hx : x.Pools) {q : PoolId} {n : Nat} {k : Result → Prog} (h : ∀ r, (k r).Obeys x) :
    (Prog.takev q n k).Obeys x := by
  refine .count hx fun c => ?_
  split
  · exact h _
  · exact .deqN hx h n []

theorem Prog.Obeys.produce (hx : x.Pools) {b : Byte} {k : Prog} (h : k.Obeys x) : (Prog.produce b k).Obeys x := by
  refine .isFull hx fun full => ?_
  split
  · exact .enq hx fun _ => h
  · refine .isFull hx fun full => ?_
    split
    · exact .enq hx fun _ => h
    · exact h

theorem Prog.Obeys.pump (hx : x.Pools) {a : Around} {k : Prog} (h : k.Obeys x) : (Prog.pump a k).Obeys x := by
  refine ⟨hx _ rfl (fun _ => ⟨_, _, rfl⟩) nofun, fun v => ?_⟩
  beta_reduce
  split
  · exact h
  · split
    · trivial
    · exact ⟨hx _ rfl (fun _ => ⟨_, _, rfl⟩) nofun, fun _ => .produce hx h⟩

theorem Prog.Obeys.getlobPass (hx : x.Pools) {a : Around} {n : Nat} {k : Result → Prog} {again : Prog}
    (h : ∀ r, (k r).Obeys x) (h' : again.Obeys x) : (Prog.getlobPass a n k again).Obeys x := by
  refine .takev hx fun r => ?_
  split
  · exact h _
  · split
    · exact .pump hx h'
    · exact h'

theorem Prog.Obeys.ifSoleConsumer {a : Around} {q : PoolId} {k : Prog} (h : k.Obeys x) :
    (Prog.ifSoleConsumer a q k).Obeys x := by
  unfold Prog.ifSoleConsumer
  split
  · trivial
  · exact h

theorem Prog.Obeys.ingestCode (hx : x.Framer) (a : Around) (ty : Byte) (status : Nat) (calls : List GetCall) :
    (Prog.ingestCode a ty status calls).Obeys x := by
  induction calls with
  | nil =>
    unfold Prog.ingestCode Prog.ingested
    split
    · exact hx.fatal
    · exact .await hx _ _ _
  | cons c calls ih =>
    cases c with
    | high n => exact .ifSoleConsumer (.takev hx.pools fun _ => ⟨hx.framer _ rfl rfl, fun _ => ih⟩)
    | low n => exact .ifSoleConsumer (.takev hx.pools fun _ => ⟨hx.framer _ rfl rfl, fun _ => ih⟩)
    | lowBlocking n => exact .ifSoleConsumer (.getlobPass hx.pools (fun _ => ⟨hx.framer _ rfl rfl, fun _ => ih⟩) (hx.stays _ rfl))

theorem Prog.Obeys.awaitAnswer (hx : x.Framer) (a : Around) (ty : Byte) : (Prog.awaitAnswer a ty).Obeys x := by
  refine ⟨hx.framer _ rfl rfl, fun v => ?_⟩
  beta_reduce
  split
  · exact hx.stays _ rfl
  · exact .ingestCode hx _ _ _ _

theorem Prog.Obeys.deliver (hx : x.Framer) (a : Around) : (Prog.deliver a).Obeys x := by
  refine ⟨hx.framer _ rfl rfl, fun t => ?_⟩
  beta_reduce
  split
  · exact ⟨hx.framer _ rfl rfl, fun _ => ⟨hx.framer _ rfl rfl, fun _ => .awaitAnswer hx _ _⟩⟩
  · split
    · exact ⟨hx.framer _ rfl rfl, fun _ => ⟨hx.framer _ rfl rfl, fun _ => ⟨hx.framer _ rfl rfl, fun _ => .awaitAnswer hx _ _⟩⟩⟩
    · exact hx.fatal

theorem Prog.Obeys.requestPayload (hx : x.Framer) (a : Around) (off len : Nat) : (Prog.requestPayload a off len).Obeys x := by
  unfold Prog.requestPayload
  split
  · exact hx.fatal
  · exact .await hx _ _ _

theorem Prog.Obeys.transition (hx : x.Framer) (a : Around) : (Prog.transition a).Obeys x := by
  refine ⟨hx.framer _ rfl rfl, fun y => ?_⟩
  beta_reduce
  split
  · refine ⟨hx.framer _ rfl rfl, fun t => ?_⟩
    beta_reduce
    split
    · exact .await hx _ _ _
    · split
      · exact .await hx _ _ _
      · exact hx.fatal
  · refine ⟨hx.framer _ rfl rfl, fun l => ?_⟩
    beta_reduce
    split
    · exact .deliver hx a
    · exact .requestPayload hx _ _ _
  · refine ⟨hx.framer _ rfl rfl, fun l => ⟨hx.framer _ rfl rfl, fun m => ?_⟩⟩
    beta_reduce
    split
    · exact .deliver hx a
    · exact .requestPayload hx _ _ _
  · exact .deliver hx a

theorem Prog.Obeys.received (hx : x.Framer) (a : Around) (v : Val) : (Prog.received a v).Obeys x := by
  unfold Prog.received
  split
  · trivial
  · trivial
  · exact .transition hx a

theorem Prog.Obeys.send (hx : ∀ m : Micro, m.part = .mux → x.micro m) (k : TxKind) (n : Nat) : (Prog.send k n).Obeys x :=
  ⟨hx _ rfl, fun _ => ⟨hx _ rfl, fun _ => ⟨hx _ rfl, fun _ => ⟨hx _ rfl, fun _ => trivial⟩⟩⟩⟩

theorem Prog.Obeys.poll (hx : ∀ m : Micro, m.part = .mux → x.micro m) (hf : x.fatal) (a : Around) :
    (progTxPoll a).Obeys x := by
  refine ⟨hx _ rfl, fun idle => ?_⟩
  beta_reduce
  split
  · trivial
  · refine ⟨hx _ rfl, fun last => ⟨hx _ rfl, fun len => ⟨hx _ rfl, fun _ => ?_⟩⟩⟩
    beta_reduce
    split
    · trivial
    · split
      · exact hf
      · exact .send hx _ _

/-- The program of an operation, but for the start of the generator and the arrival of bytes. -/
theorem Prog.Obeys.instr (i : Instr) (a : Around) (hp : Instr.part i = .pools → x.Pools)
    (hf : Instr.part i = .framer → x.Framer) (hm : Instr.part i = .mux → (∀ m : Micro, m.part = .mux → x.micro m) ∧ x.fatal)
    (hs : Instr.part i = .pools → ∀ n, x.stays (.op (.rsGetlob n))) (hi : i = .rsInit → x.micro .startRng)
    (hc : ∀ bs, i = .rxComplete bs → x.micro (.completeRequest bs)) (hb : ∀ b, i = .rxByte b → x.micro (.storeByte b)) :
    (Instr.prog i a).Obeys x := by
  cases i with
  | rxTypeCmd => exact .await (hf rfl) _ _ _
  | rxTypeAcl => exact .await (hf rfl) _ _ _
  | rxTypeBad t => exact (hf rfl).fatal
  | rxCmdhdrZ g o => exact .deliver (hf rfl) a
  | rxCmdhdrNz g o l => exact .requestPayload (hf rfl) _ _ _
  | rxAclhdrZ h0 h1 => exact .deliver (hf rfl) a
  | rxAclhdrNz h0 h1 l m => exact .requestPayload (hf rfl) _ _ _
  | rxPayload => exact .deliver (hf rfl) a
  | ringInit p => exact .init (hp rfl) trivial
  | ringIsfull p => exact .isFull (hp rfl) (k := fun b => .done (.bool b)) fun _ => trivial
  | ringCount p => exact .count (hp rfl) (k := fun n => .done (.count n)) fun _ => trivial
  | ringEnq p b => exact .enq (hp rfl) (k := .done) fun _ => trivial
  | ringDeq p => exact .deq (hp rfl) (k := .done) fun _ => trivial
  | ringTakev p n => exact .takev (hp rfl) (k := .done) fun _ => trivial
  | rsInit => exact .init (hp rfl) (.init (hp rfl) ⟨hi rfl, fun _ => trivial⟩)
  | rsProduce b =>
    change (progRsProduce b a).Obeys x
    unfold progRsProduce
    split
    · trivial
    · exact .produce (hp rfl) trivial
  | rsGethi n => exact .takev (hp rfl) (k := .done) fun _ => trivial
  | rsGetlo n => exact .takev (hp rfl) (k := .done) fun _ => trivial
  | rsGetlob n => exact .getlobPass (hp rfl) (k := .done) (fun _ => trivial) (hs rfl n)
  | rxStart =>
    refine ⟨(hf rfl).framer _ rfl rfl, fun v => ?_⟩
    beta_reduce
    split
    · trivial
    · exact .request (hf rfl) _ _
  | rxComplete bs => exact ⟨hc bs rfl, fun v => .received (hf rfl) a v⟩
  | rxByte b => exact ⟨hb b rfl, fun v => .received (hf rfl) a v⟩
  | txPoll => exact .poll (hm rfl).1 (hm rfl).2 a
  | txComplete =>
    refine ⟨(hm rfl).1 _ rfl, fun v => ?_⟩
    beta_reduce
    split
    · exact ⟨(hm rfl).1 _ rfl, fun _ => trivial⟩
    · trivial

end

/-- What a program of a unit may do: its micro-steps are those of the unit or of the pools, it goes on as a call of the unit,
and only those of the framer and the multiplexer raise fatal conditions (60 R201). -/
abbrev Allowed.unit (p : Part) : Allowed := ⟨fun m => m.part = .pools ∨ m.part = p, fun c => Call.part c = p, p ≠ .pools⟩

/-- A program of a unit. -/
abbrev Prog.Within (p : Part) (q : Prog) : Prop := q.Obeys (.unit p)

theorem Allowed.unit_pools (p : Part) : (Allowed.unit p).Pools := fun _ h _ _ => .inl h

theorem Allowed.unit_framer : (Allowed.unit .framer).Framer := ⟨Allowed.unit_pools _, fun _ h _ => .inr h, fun _ h => h, by simp⟩

theorem Prog.Within.ingestCode (a : Around) (ty : Byte) (status : Nat) (calls : List GetCall) :
    (Prog.ingestCode a ty status calls).Within .framer := Prog.Obeys.ingestCode Allowed.unit_framer a ty status calls

theorem Prog.Within.awaitAnswer (a : Around) (ty : Byte) : (Prog.awaitAnswer a ty).Within .framer :=
  Prog.Obeys.awaitAnswer Allowed.unit_framer a ty

/-- The program of an operation is one of its unit. -/
theorem Prog.Within.instr (i : Instr) (a : Around) : (Instr.prog i a).Within (Instr.part i) := by
  refine Prog.Obeys.instr i a (fun h => ?_) (fun h => ?_) (fun h => ?_) (fun h n => ?_) (fun h => ?_) (fun bs h => ?_)
    fun b h => ?_
  · exact Allowed.unit_pools _
  · rw [h]; exact Allowed.unit_framer
  · rw [h]; exact ⟨fun _ h => .inr h, by simp⟩
  · rw [h]; rfl
  · exact .inl rfl
  · subst h; exact .inr rfl
  · subst h; exact .inr rfl

/-- The program of a call is one of its unit. -/
theorem Prog.Within.call (c : Call) (a : Around) : (Call.prog c a).Within (Call.part c) := by
  cases c with
  | op i => exact .instr i a
  | awaiting ty => exact .awaitAnswer a ty
  | ingest ty status calls => exact .ingestCode a ty status calls

/-- What is left of an activation is a program of its unit. -/
theorem Prog.Within.rest (a : Activation) (cfg : Config) (below : List Activation) :
    (a.rest cfg below).Within (Call.part a.call) := Prog.Obeys.after (Prog.Within.call _ _) _

/-! Running and cutting -/

/-- Uninterrupted is cut late enough: at most `n` micro-steps, for every `n` from some number on. -/
theorem Prog.run_eq_runFor (p : Prog) (a : Activation) (s : State) :
    ∃ n, ∀ m, n ≤ m → Prog.runFor m a p s = p.run a.ctx s := by
  induction p generalizing a s with
  | act m k ih =>
    cases hm : s.perform m with
    | error f =>
      refine ⟨1, fun n hn => ?_⟩
      obtain ⟨n, rfl⟩ := Nat.exists_eq_add_of_le' hn
      simp [Prog.runFor, Prog.run, hm]
    | ok vt =>
      obtain ⟨v, t⟩ := vt
      obtain ⟨n, hn⟩ := ih v { a with seen := a.seen ++ [v] } t
      refine ⟨n + 1, fun n' hn' => ?_⟩
      obtain ⟨j, rfl⟩ := Nat.exists_eq_add_of_le' (Nat.le_trans (Nat.le_add_left 1 n) hn')
      simp only [Prog.runFor, Prog.run, hm]
      exact hn j (by omega)
  | fatal c info => exact ⟨1, fun n hn => by obtain ⟨n, rfl⟩ := Nat.exists_eq_add_of_le' hn; rfl⟩
  | _ => exact ⟨0, fun n _ => by cases n <;> rfl⟩

theorem Prog.runFor_done (n : Nat) (a : Activation) (r : Result) (s : State) :
    Prog.runFor n a (.done r) s = .next (s.returns r) := by cases n <;> rfl
theorem Prog.runFor_fatal (n : Nat) (a : Activation) (c : FatalCode) (info : Nat) (s : State) :
    Prog.runFor (n + 1) a (.fatal c info) s = .next ((s.raiseFatal c info).returns .nothing) := rfl
theorem Prog.runFor_fatal_zero (a : Activation) (c : FatalCode) (info : Nat) (s : State) :
    Prog.runFor 0 a (.fatal c info) s = .next (s.suspend a) := rfl
theorem Prog.runFor_refuse (n : Nat) (a : Activation) (r : Refusal) (s : State) :
    Prog.runFor n a (.refuse r) s = .refused r := by cases n <;> rfl
theorem Prog.runFor_stay (n : Nat) (a : Activation) (c : Call) (s : State) :
    Prog.runFor n a (.stay c) s = .next (s.suspend ⟨a.ctx, c, []⟩) := by cases n <;> rfl
theorem Prog.runFor_zero (a : Activation) (m : Micro) (k : Val → Prog) (s : State) :
    Prog.runFor 0 a (.act m k) s = .next (s.suspend a) := rfl
theorem Prog.runFor_succ (n : Nat) (a : Activation) {m : Micro} (k : Val → Prog) {s t : State} {v : Val}
    (h : s.perform m = .ok (v, t)) :
    Prog.runFor (n + 1) a (.act m k) s = Prog.runFor n { a with seen := a.seen ++ [v] } (k v) t := by
  simp only [Prog.runFor, h]
theorem Prog.runFor_fault (n : Nat) (a : Activation) {m : Micro} (k : Val → Prog) {s : State} {f : Fault}
    (h : s.perform m = .error f) : Prog.runFor (n + 1) a (.act m k) s = .fault f := by
  simp only [Prog.runFor, h]

@[simp] theorem Prog.after_nil (p : Prog) : p.after [] = p := by cases p <;> rfl

theorem Prog.after_append (p : Prog) (vs : List Val) (v : Val) (m : Micro) (k : Val → Prog) (h : p.after vs = .act m k) :
    p.after (vs ++ [v]) = k v := by
  induction vs generalizing p with
  | nil =>
    have hp : p = .act m k := by cases p <;> exact h
    rw [hp]
    cases hk : k v <;> simp [Prog.after, hk]
  | cons w vs ih =>
    cases p with
    | act m' k' => exact ih (k' w) h
    | _ => simp [Prog.after] at h

/-! What the last operation returned -/

/-- No micro-step reads or writes what the last operation returned. -/
theorem State.perform_returns (s : State) (m : Micro) (r : Result) :
    (s.returns r).perform m =
      match s.perform m with
      | .ok (v, t) => .ok (v, t.returns r)
      | .error f => .error f := by
  have receive (bs : List Byte) : (s.returns r).receive bs =
      match s.receive bs with
      | .ok (v, t) => .ok (v, t.returns r)
      | .error f => .error f := by
    rcases s.receive_cases bs with ⟨h1, h⟩ | ⟨h1, h2, h⟩ | ⟨h1, h2, h⟩ <;> rw [h] <;>
      rcases (s.returns r).receive_cases bs with ⟨h3, h'⟩ | ⟨h3, h4, h'⟩ | ⟨h3, h4, h'⟩ <;>
      simp only [State.returns_rxReqOff, State.returns_rxGot, State.returns_cfg] at h3 <;>
      try simp only [State.returns_rxGot, State.returns_rxReqLen] at h4
    all_goals first | exact h' | omega
  cases m with
  | load sp a => 
    simp only [State.perform, State.load]
    have : (s.returns r).space sp = s.space sp := by cases sp <;> rfl
    rw [this, State.returns_cfg]
    by_cases h : a < Config.size s.cfg sp <;> simp [h]
  | store sp a b =>
    simp only [State.perform, State.store]
    have : (s.returns r).setByte sp a b = (s.setByte sp a b).returns r := by cases sp <;> rfl
    rw [this, State.returns_cfg]
    by_cases h : a < Config.size s.cfg sp <;> simp [h]
  | completeRequest bs =>
    simp only [State.perform]
    by_cases h : s.rxReqValid = true ∧ s.rxGot + bs.length = s.rxReqLen
    · rw [State.completeRequest, if_pos (by exact h), State.completeRequest, if_pos (show s.rxReqValid = true ∧ s.rxGot + bs.length = s.rxReqLen from h)]; exact receive bs
    · rw [State.completeRequest, if_neg (by exact h), State.completeRequest, if_neg (show ¬ (s.rxReqValid = true ∧ s.rxGot + bs.length = s.rxReqLen) from h)]
  | storeByte b =>
    simp only [State.perform]
    by_cases h : s.rxReqValid = true ∧ s.rxGot < s.rxReqLen
    · rw [State.storeByte, if_pos (by exact h), State.storeByte, if_pos (show s.rxReqValid = true ∧ s.rxGot < s.rxReqLen from h)]; exact receive [b]
    · rw [State.storeByte, if_neg (by exact h), State.storeByte, if_neg (show ¬ (s.rxReqValid = true ∧ s.rxGot < s.rxReqLen) from h)]
  | ingest kind n =>
    simp only [State.perform]
    by_cases h : 1 + n ≤ s.cfg.rxbufSize
    · rw [State.ingest, if_pos (by exact h), State.ingest, if_pos h]; rfl
    · rw [State.ingest, if_neg (by exact h), State.ingest, if_neg h]
  | takeAnswer =>
    simp only [State.perform, State.takeAnswer, State.returns_ctlIngest]
    split <;> rfl
  | begin =>
    simp only [State.perform]
    cases h : s.rxReqValid
    · rw [if_neg (by rw [State.returns_rxReqValid, h]; decide), if_neg (by decide)]; rfl
    · rw [if_pos (by exact h), if_pos rfl]; rfl
  | uartTx n =>
    simp only [State.perform]
    by_cases h : n ≤ s.cfg.txbufSize
    · rw [State.transmit, if_pos (by exact h), State.transmit, if_pos h]; rfl
    · rw [State.transmit, if_neg (by exact h), State.transmit, if_neg h]
  | pull k => cases k <;> rfl
  | writeW p i => cases p <;> rfl
  | writeR p i => cases p <;> rfl
  | readW p => cases p <;> rfl
  | readR p => cases p <;> rfl
  | _ => rfl

/-- A program goes as it goes whatever the last operation returned. -/
theorem Prog.run_returns (p : Prog) (c : Ctx) (s : State) (r : Result) : p.run c (s.returns r) = p.run c s := by
  induction p generalizing s with
  | act m k ih =>
    simp only [Prog.run, State.perform_returns]
    cases h : s.perform m with
    | error f => rfl
    | ok vt => exact ih vt.1 vt.2
  | fatal code info =>
    cases h : s.halted
    · rw [Prog.run_fatal, Prog.run_fatal, State.raiseFatal_of_running h, State.raiseFatal_of_running (by exact h)]; rfl
    · rw [Prog.run_fatal, Prog.run_fatal, State.raiseFatal_of_halted h, State.raiseFatal_of_halted (by exact h)]; rfl
  | _ => rfl

/-! Starting and going on -/

/-- What runs in a step when an operation starts: its program, cut somewhere after its first micro-step or not at all. -/
theorem State.launch_eq {s : State} (h : s.halted = false) (i : Instr) (cut : Option Nat) :
    ∃ n, s.launch i cut = Prog.runFor (n + 1) ⟨Instr.context i s.runningCtx, .op i, []⟩
      (Instr.prog i (s.around (Instr.context i s.runningCtx))) s := by
  cases cut with
  | some k => exact ⟨k, rfl⟩
  | none =>
    obtain ⟨n, hn⟩ := Prog.run_eq_runFor (Instr.prog i (s.around (Instr.context i s.runningCtx)))
      ⟨Instr.context i s.runningCtx, .op i, []⟩ s
    exact ⟨n, by rw [hn _ (Nat.le_succ n), State.launch, exec_of_running i h]⟩

/-- What runs in a step when an activation goes on. -/
theorem State.proceed_eq (s : State) (a : Activation) (cut : Option Nat) :
    ∃ n, s.proceed a cut = Prog.runFor (n + 1) a (a.rest s.cfg s.stack) s := by
  cases cut with
  | some k => exact ⟨k, rfl⟩
  | none =>
    obtain ⟨n, hn⟩ := Prog.run_eq_runFor (a.rest s.cfg s.stack) a s
    exact ⟨n, by rw [hn _ (Nat.le_succ n)]; rfl⟩

/-- Micro-steps made one after another, each allowed by `P`. -/
inductive Made (P : Micro → Prop) : State → State → Prop
  | refl (s : State) : Made P s s
  | step {s t u : State} {m : Micro} {v : Val} (allowed : P m) (made : s.perform m = .ok (v, t)) (rest : Made P t u) :
      Made P s u

/-- How a program ends a step: it returns, raises a fatal condition, or stays in progress in its context as a call of its
unit `p`. -/
inductive Ended (p : Part) (c : Ctx) (u : State) : State → Prop
  | returns (r : Result) : Ended p c u (u.returns r)
  | fatal (code : FatalCode) (info : Nat) (unit : p ≠ .pools) : Ended p c u ((u.raiseFatal code info).returns .nothing)
  | stays (call : Call) (seen : List Val) (unit : Call.part call = p) : Ended p c u (u.suspend ⟨c, call, seen⟩)

/-- Everything a program of a unit can lead to. -/
theorem Prog.runFor_eq_next {n : Nat} {a : Activation} {q : Prog} {s t : State} {p : Part} (hq : q.Within p)
    (ha : Call.part a.call = p) (h : Prog.runFor n a q s = .next t) :
    ∃ u, Made (fun m => m.part = .pools ∨ m.part = p) s u ∧ Ended p a.ctx u t := by
  induction q generalizing n a s with
  | done r => rw [Prog.runFor_done] at h; cases h; exact ⟨s, .refl s, .returns r⟩
  | fatal c info =>
    cases n with
    | zero => cases h; exact ⟨s, .refl s, .stays a.call a.seen ha⟩
    | succ n => cases h; exact ⟨s, .refl s, .fatal c info hq⟩
  | refuse r => rw [Prog.runFor_refuse] at h; cases h
  | stay c => rw [Prog.runFor_stay] at h; cases h; exact ⟨s, .refl s, .stays c [] hq⟩
  | act m k ih =>
    cases n with
    | zero => cases h; exact ⟨s, .refl s, .stays a.call a.seen ha⟩
    | succ n =>
      cases hm : s.perform m with
      | error f => rw [Prog.runFor_fault n a k hm] at h; cases h
      | ok vt =>
        obtain ⟨v, t'⟩ := vt
        rw [Prog.runFor_succ n a k hm] at h
        obtain ⟨u, hu, he⟩ := ih v (hq.2 v) (by exact ha) h
        exact ⟨u, .step hq.1 hm hu, he⟩

theorem Made.unmoved {P : Micro → Prop} {s t : State} (h : Made P s t) : s.Unmoved t := by
  induction h with
  | refl s => exact .refl s
  | step _ hm _ ih => exact (State.perform_unmoved hm).trans ih

theorem Made.memoryWf {P : Micro → Prop} {s t : State} (h : Made P s t) (hw : s.MemoryWf) : t.MemoryWf := by
  induction h with
  | refl s => exact hw
  | step _ hm _ ih => exact ih (hw.perform hm)

theorem Made.random {P : Micro → Prop} {s t : State} (h : Made P s t) :
    (s.rsStarted = true → t.rsStarted = true) ∧ (t.rngReady = true → s.rngReady = true) := by
  induction h with
  | refl s => exact ⟨id, id⟩
  | step _ hm _ ih => exact ⟨ih.1 ∘ (State.perform_random hm).1, (State.perform_random hm).2 ∘ ih.2⟩

theorem SameFramer.refl (s : State) : SameFramer s s := ⟨rfl, rfl, rfl, rfl, rfl, rfl, rfl⟩
theorem SameFramer.trans {s t u : State} (h : SameFramer s t) (h' : SameFramer t u) : SameFramer s u :=
  ⟨h'.rxState.trans h.rxState, h'.rxReqValid.trans h.rxReqValid, h'.rxReqOff.trans h.rxReqOff,
    h'.rxReqLen.trans h.rxReqLen, h'.rxGot.trans h.rxGot, h'.rxbuf.trans h.rxbuf, h'.delivered.trans h.delivered⟩
theorem SameMux.refl (s : State) : SameMux s s := ⟨rfl, rfl, rfl, rfl, rfl⟩
theorem SameMux.trans {s t u : State} (h : SameMux s t) (h' : SameMux t u) : SameMux s u :=
  ⟨h'.txLastEvt.trans h.txLastEvt, h'.txIdle.trans h.txIdle, h'.txLen.trans h.txLen, h'.txbuf.trans h.txbuf,
    h'.sent.trans h.sent⟩
theorem SameRandom.refl (s : State) : SameRandom s s := ⟨rfl, rfl, rfl⟩
theorem SameRandom.trans {s t u : State} (h : SameRandom s t) (h' : SameRandom t u) : SameRandom s u :=
  ⟨h'.high.trans h.high, h'.low.trans h.low, h'.rsStarted.trans h.rsStarted⟩
theorem SameLatch.refl (s : State) : SameLatch s s := ⟨rfl, rfl, rfl⟩
theorem SameLatch.trans {s t u : State} (h : SameLatch s t) (h' : SameLatch t u) : SameLatch s u :=
  ⟨h'.halted.trans h.halted, h'.faultCode.trans h.faultCode, h'.faultInfo.trans h.faultInfo⟩
theorem FramerSeen.refl (s : State) : FramerSeen s s := ⟨.refl s, rfl⟩
theorem FramerSeen.trans {s t u : State} (h : FramerSeen s t) (h' : FramerSeen t u) : FramerSeen s u :=
  ⟨h.1.trans h'.1, h'.2.trans h.2⟩
theorem MuxSeen.refl (s : State) : MuxSeen s s := ⟨.refl s, rfl, rfl, rfl⟩
theorem MuxSeen.trans {s t u : State} (h : MuxSeen s t) (h' : MuxSeen t u) : MuxSeen s u :=
  ⟨h.1.trans h'.1, h'.2.1.trans h.2.1, h'.2.2.1.trans h.2.2.1, h'.2.2.2.trans h.2.2.2⟩

theorem Made.framerSeen {P : Micro → Prop} {s t : State} (h : Made P s t) (hP : ∀ m, P m → m.part ≠ .framer) :
    FramerSeen s t := by
  induction h with
  | refl s => exact .refl s
  | step ha hm _ ih =>
    exact FramerSeen.trans ⟨State.perform_sameFramer (hP _ ha) hm, (State.perform_unmoved hm).cfg⟩ ih

theorem Made.muxSeen {P : Micro → Prop} {s t : State} (h : Made P s t) (hP : ∀ m, P m → m.part ≠ .mux) :
    MuxSeen s t := by
  induction h with
  | refl s => exact .refl s
  | step ha hm _ ih => exact MuxSeen.trans (State.perform_muxSeen (hP _ ha) hm) ih

theorem Made.sameRandom {P : Micro → Prop} {s t : State} (h : Made P s t) (hP : ∀ m, P m → m.part ≠ .pools) :
    SameRandom s t := by
  induction h with
  | refl s => exact .refl s
  | step ha hm _ ih => exact SameRandom.trans (State.perform_sameRandom (hP _ ha) hm) ih

/-- A program that runs leaves the stack as it was, or its own activation on top of it (20_memory R62). -/
theorem Prog.runFor_stack {n : Nat} {a : Activation} {q : Prog} {s t : State} {p : Part} (hq : q.Within p)
    (ha : Call.part a.call = p) (h : Prog.runFor n a q s = .next t) :
    t.stack = s.stack ∨ ∃ x, t.stack = x :: s.stack ∧ x.ctx = a.ctx ∧ Call.part x.call = p := by
  obtain ⟨u, hm, he⟩ := Prog.runFor_eq_next hq ha h
  have hs := hm.unmoved.stack
  cases he with
  | returns r => exact .inl hs
  | fatal c i _ => exact .inl (by rw [← hs]; unfold State.raiseFatal; split <;> rfl)
  | stays call seen unit => exact .inr ⟨⟨a.ctx, call, seen⟩, by rw [← hs]; rfl, rfl, unit⟩

/-- A program makes only micro-steps it may make; how it ends the step changes neither RandomSource nor `RXBUF`. -/
theorem Prog.runFor_obeys {x : Allowed} {q : Prog} {n : Nat} {a : Activation} {s t : State} (hq : q.Obeys x)
    (h : Prog.runFor n a q s = .next t) : ∃ u, Made x.micro s u ∧ SameRandom u t ∧ t.rxbuf = u.rxbuf := by
  induction q generalizing n a s with
  | done r => rw [Prog.runFor_done] at h; cases h; exact ⟨s, .refl s, ⟨rfl, rfl, rfl⟩, rfl⟩
  | fatal c info =>
    cases n with
    | zero => cases h; exact ⟨s, .refl s, ⟨rfl, rfl, rfl⟩, rfl⟩
    | succ n =>
      cases h
      refine ⟨s, .refl s, ?_⟩
      unfold State.raiseFatal
      split <;> exact ⟨⟨rfl, rfl, rfl⟩, rfl⟩
  | refuse r => rw [Prog.runFor_refuse] at h; cases h
  | stay c => rw [Prog.runFor_stay] at h; cases h; exact ⟨s, .refl s, ⟨rfl, rfl, rfl⟩, rfl⟩
  | act m k ih =>
    cases n with
    | zero => cases h; exact ⟨s, .refl s, ⟨rfl, rfl, rfl⟩, rfl⟩
    | succ n =>
      cases hm : s.perform m with
      | error f => rw [Prog.runFor_fault n a k hm] at h; cases h
      | ok vt =>
        obtain ⟨v, t'⟩ := vt
        rw [Prog.runFor_succ n a k hm] at h
        obtain ⟨u, hu, he⟩ := ih v (hq.2 v) h
        exact ⟨u, .step hq.1 hm hu, he⟩

/-- Only the arrival of bytes writes `RXBUF` (42 R151). -/
theorem State.perform_rxbuf {s t : State} {m : Micro} {v : Val} (hm : m.arrives = false) (h : s.perform m = .ok (v, t)) :
    t.rxbuf = s.rxbuf := by
  cases hp : m.part with
  | pools => rw [(State.perform_pools hp h).1]
  | mux => rw [State.perform_mux hp h]
  | framer =>
    cases m with
    | completeRequest bs => cases hm
    | storeByte b => cases hm
    | store sp a b =>
      cases sp with
      | rxbuf => cases hm
      | _ => cases hp
    | load sp a => simp only [State.perform, State.load] at h; split at h <;> cases h; rfl
    | begin => simp only [State.perform] at h; split at h <;> cases h <;> rfl
    | ingest k n => simp only [State.perform, State.ingest] at h; split at h <;> cases h; rfl
    | takeAnswer => simp only [State.perform, State.takeAnswer] at h; split at h <;> cases h <;> rfl
    | readRxState => cases h; rfl
    | enter x => cases h; rfl
    | reqOff n => cases h; rfl
    | reqLen n => cases h; rfl
    | reqGot => cases h; rfl
    | reqValid => cases h; rfl
    | gave r => cases h; rfl
    | _ => cases hp

/-- Only the start of the generator writes `rs_started` (41 R131). -/
theorem State.perform_rsStarted {s t : State} {m : Micro} {v : Val} (hm : m ≠ .startRng) (h : s.perform m = .ok (v, t)) :
    t.rsStarted = s.rsStarted := by
  cases hp : m.part with
  | framer => rw [State.perform_framer hp h]
  | mux => rw [State.perform_mux hp h]
  | pools =>
    cases m with
    | startRng => exact absurd rfl hm
    | readW p => cases h; rfl
    | readR p => cases h; rfl
    | writeW p i => cases h; cases p <;> rfl
    | writeR p i => cases h; cases p <;> rfl
    | readRngReady => cases h; rfl
    | takeRng => cases h; rfl
    | load sp a => simp only [State.perform, State.load] at h; split at h <;> cases h; rfl
    | store sp a b => simp only [State.perform, State.store] at h; split at h <;> cases h; cases sp <;> rfl
    | _ => cases hp

end Sys2Proof.Machine
end

