-- ==== Sys2Proof/Laws/Step.lean ====
section
/-! SUPPORT. Laws/Step.lean: everything a step can do, said once: the platform's part, the interrupt taken, what starts or
goes on. -/

namespace Sys2Proof.Machine

/-! The platform's part -/

/-- What one event of the platform can do (42 R151, 60 R208, R212, R213). -/
inductive EventDid (s : State) : State → Prop
  /-- Nothing. -/
  | quiet : EventDid s s
  /-- The UART stores a byte of the line in the outstanding request. -/
  | stored (b : Byte) (line : List Byte) (running : s.halted = false) (valid : s.rxReqValid = true)
      (room : s.rxGot < s.rxReqLen) (fits : s.rxReqOff + s.rxGot + 1 ≤ s.cfg.rxbufSize) (next : s.rxLine = b :: line) :
      EventDid s (State.fill { s with rxLine := line } [b])
  /-- The transmission in flight ends. -/
  | sent (flight : s.txFlight = true) : EventDid s { s with txFlight := false, txDone := true }
  /-- The RNG produces a byte. -/
  | drawn (b : Byte) (line : List Byte) (started : s.rsStarted = true) (ready : s.rngReady = false)
      (next : s.rngLine = b :: line) : EventDid s { s with rngReady := true, rngData := b, rngLine := line }
  /-- Platform initialisation fails. -/
  | failed (info : Nat) : EventDid s (s.raiseFatal .platformInit info)

theorem State.platform_eq_next {s t : State} {e : PlatEvent} (h : s.platform e = .next t) : EventDid s t := by
  cases e with
  | quiet => cases h; exact .quiet
  | uartTx =>
    cases h
    unfold State.uartTxTick
    split
    · rename_i hf; exact .sent hf
    · exact .quiet
  | rngByte =>
    cases h
    unfold State.rngTick
    split
    · rename_i hg
      split
      · exact .quiet
      · rename_i b line hl
        simp only [Bool.and_eq_true, Bool.not_eq_true'] at hg
        exact .drawn b line hg.1 hg.2 hl
    · exact .quiet
  | initFailure info => cases h; exact .failed info
  | uartRx =>
    change s.uartRxTick = .next t at h
    unfold State.uartRxTick at h
    split at h
    · rename_i hg
      simp only [Bool.and_eq_true, Bool.not_eq_true', decide_eq_true_eq] at hg
      split at h
      · cases h; exact .quiet
      · rename_i b line hl
        split at h
        · cases h
        · rename_i u hu
          obtain ⟨hf, rfl⟩ := State.storeRx_eq_some hu
          cases h
          exact .stored b line hg.1.1 hg.1.2 hg.2 hf hl
    · cases h; exact .quiet

/-- An event never refuses. -/
theorem State.platform_ne_refused {s : State} {e : PlatEvent} {r : Refusal} : s.platform e ≠ .refused r := by
  cases e with
  | uartRx =>
    change s.uartRxTick ≠ _
    unfold State.uartRxTick
    split
    · split
      · simp
      · split <;> simp
    · simp
  | _ => simp [State.platform]

/-- An event accesses no byte that does not exist when the outstanding request fits `RXBUF`. -/
theorem State.platform_ne_fault {s : State} {e : PlatEvent} {f : Fault}
    (h : s.halted = false → s.rxReqValid = true → s.rxReqOff + s.rxReqLen ≤ s.cfg.rxbufSize) :
    s.platform e ≠ .fault f := by
  cases e with
  | uartRx =>
    change s.uartRxTick ≠ .fault f
    unfold State.uartRxTick
    split
    · rename_i hg
      simp only [Bool.and_eq_true, Bool.not_eq_true', decide_eq_true_eq] at hg
      have hf := h hg.1.1 hg.1.2
      split
      · simp
      · rw [State.storeRx_of_le (by simp only [List.length_singleton]; omega)]
        simp
    · simp
  | _ => simp [State.platform]

/-- Events one after another. -/
inductive PlatformDid : State → State → Prop
  | refl (s : State) : PlatformDid s s
  | step {s t u : State} (first : EventDid s t) (rest : PlatformDid t u) : PlatformDid s u

theorem platformAll_eq_next {es : List PlatEvent} {s t : State} (h : platformAll es s = .next t) : PlatformDid s t := by
  induction es generalizing s with
  | nil => rw [← Host.Outcome.next.inj h]; exact .refl s
  | cons e es ih =>
    unfold platformAll at h
    split at h
    · rename_i u hu; exact .step (State.platform_eq_next hu) (ih h)
    · cases h
    · cases h

theorem State.platformTick_eq_next {s t : State} (h : s.platformTick = .next t) :
    PlatformDid { s with sched := s.sched.tail } t := platformAll_eq_next h

/-- A property that every event keeps is kept by the platform's part of a step. -/
theorem PlatformDid.keeps {P : State → Prop} {s t : State} (h : PlatformDid s t)
    (hP : ∀ {s t}, P s → EventDid s t → P t) (hs : P s) : P t := by
  induction h with
  | refl s => exact hs
  | step he _ ih => exact ih (hP hs he)

/-- With no schedule the platform does nothing. -/
theorem State.platformTick_of_nil {s : State} (h : s.sched = []) : s.platformTick = .next s := by
  cases s; cases h; rfl

/-! The interrupt taken -/

/-- The interrupt chosen is one of those asked for. -/
theorem Config.mostUrgent_mem {c : Config} {xs : List Ctx} {y : Ctx} (h : Config.mostUrgent c xs = some y) : y ∈ xs := by
  induction xs generalizing y with
  | nil => cases h
  | cons x xs ih =>
    unfold Config.mostUrgent at h
    split at h
    · cases h; exact List.mem_cons_self
    · rename_i z hz
      split at h
      · cases h; exact List.mem_cons_self
      · cases h; exact List.mem_cons_of_mem _ (ih hz)

/-- An interrupt taken is pending and can preempt the running context. -/
theorem State.nextIrq_eq_some {s : State} {y : Ctx} (h : s.nextIrq = some y) :
    s.pending y = true ∧ Config.canPreempt s.cfg y s.runningCtx = true := by
  have := (List.mem_filter.1 (Config.mostUrgent_mem h)).2
  simpa only [Bool.and_eq_true] using this

/-- The interrupt chosen is the most urgent of those asked for, and one is chosen if any is asked for (60 R214). -/
theorem Config.mostUrgent_spec (c : Config) (xs : List Ctx) :
    (Config.mostUrgent c xs = none → xs = []) ∧
      ∀ y, Config.mostUrgent c xs = some y → ∀ z ∈ xs, Config.prio c y ≤ Config.prio c z := by
  induction xs with
  | nil => exact ⟨fun _ => rfl, fun y h => by cases h⟩
  | cons x xs ih =>
    obtain ⟨none_spec, some_spec⟩ := ih
    constructor
    · intro h
      unfold Config.mostUrgent at h
      split at h
      · cases h
      · split at h <;> cases h
    · intro y h z hz
      unfold Config.mostUrgent at h
      split at h
      · rename_i hn
        cases h
        rw [none_spec hn] at hz
        rw [List.mem_singleton.1 hz]
      · rename_i w hw
        have hxs := some_spec w hw
        split at h <;> cases h <;> rcases List.mem_cons.1 hz with rfl | hz
        · exact Nat.le_refl _
        · have := hxs z hz; omega
        · omega
        · exact hxs z hz

/-! The step -/

/-- With an interrupt to take, the step is its handler's. -/
theorem step_of_irq {s u : State} {y : Ctx} (hs : s.platformTick = .next u) (hh : u.halted = false)
    (hn : u.nextIrq = some y) : step s = u.handle y s.slot.cut := by
  simp only [step, hs, State.advance, hh, hn, Bool.false_eq_true, if_false]

/-- With none, the step is that of the activation on top, or of the script. -/
theorem step_of_none {s u : State} (hs : s.platformTick = .next u) (hh : u.halted = false) (hn : u.nextIrq = none) :
    (∀ a below, u.stack = a :: below → step s = State.proceed { u with stack := below } a s.slot.cut) ∧
      (u.stack = [] → step s = u.fetchScript s.slot.cut) := by
  constructor
  · intro a below h
    simp only [step, hs, State.advance, hh, hn, h, Bool.false_eq_true, if_false]
  · intro h
    simp only [step, hs, State.advance, hh, hn, h, Bool.false_eq_true, if_false]


/-- What a step does after the platform's part: nothing, a handler, the activation on top, or an operation of the
script; in each case its program makes at least its first micro-step. -/
inductive StepDid (u : State) : State → Prop
  | idle : StepDid u u
  | rx (n : Nat) (t : State) (running : u.halted = false) (pending : u.rxPending = true)
      (preempts : Config.canPreempt u.cfg .irqRx u.runningCtx = true)
      (eq : Prog.runFor (n + 1) ⟨.irqRx, .op (.rxComplete []), []⟩ (progRxComplete [] (u.around .irqRx)) u = .next t) :
      StepDid u t
  | tx (n : Nat) (t : State) (running : u.halted = false) (pending : u.txDone = true)
      (preempts : Config.canPreempt u.cfg .irqTx u.runningCtx = true)
      (eq : Prog.runFor (n + 1) ⟨.irqTx, .op .txComplete, []⟩ (progTxComplete (u.around .irqTx)) u = .next t) :
      StepDid u t
  | rng (n : Nat) (t : State) (running : u.halted = false) (ready : u.rngReady = true) (started : u.rsStarted = true)
      (preempts : Config.canPreempt u.cfg .irqRng u.runningCtx = true)
      (eq : Prog.runFor (n + 1) ⟨.irqRng, .op (.rsProduce u.rngData), []⟩
        (progRsProduce u.rngData (u.around .irqRng)) u.takeRngByte = .next t) : StepDid u t
  | resume (n : Nat) (a : Activation) (below : List Activation) (t : State) (running : u.halted = false)
      (top : u.stack = a :: below)
      (eq : Prog.runFor (n + 1) a (a.rest u.cfg below) { u with stack := below } = .next t) : StepDid u t
  | call (n : Nat) (i : Instr) (rest : List Byte) (t : State) (running : u.halted = false) (empty : u.stack = [])
      (decoded : decode (.script u.rxReqLen) u.script = .ok (i, rest))
      (eq : Prog.runFor (n + 1) ⟨Instr.context i u.ctx, .op i, []⟩
        (Instr.prog i (u.around (Instr.context i u.ctx))) { u with script := rest } = .next t) : StepDid u t

theorem State.advance_eq_next {u t : State} {cut : Option Nat} (h : u.advance cut = .next t) : StepDid u t := by
  unfold State.advance at h
  split at h
  · cases h; exact .idle
  · rename_i hh
    have hh : u.halted = false := by simpa using hh
    split at h
    · rename_i y hy
      obtain ⟨hp, hc⟩ := State.nextIrq_eq_some hy
      cases y with
      | main => cases hp
      | irqRx =>
        obtain ⟨n, hn⟩ := State.launch_eq hh (.rxComplete []) cut
        exact .rx n t hh hp hc (hn.symm.trans h)
      | irqTx =>
        obtain ⟨n, hn⟩ := State.launch_eq hh .txComplete cut
        exact .tx n t hh hp hc (hn.symm.trans h)
      | irqRng =>
        obtain ⟨n, hn⟩ := State.launch_eq (s := u.takeRngByte) hh (.rsProduce u.rngData) cut
        have hp : (u.rngReady && u.rsStarted) = true := hp
        rw [Bool.and_eq_true] at hp
        exact .rng n t hh hp.1 hp.2 hc (hn.symm.trans h)
    · split at h
      · rename_i a below hs
        obtain ⟨n, hn⟩ := State.proceed_eq { u with stack := below } a cut
        exact .resume n a below t hh hs (hn.symm.trans h)
      · rename_i hs
        unfold State.fetchScript at h
        split at h
        · cases h; exact .idle
        · split at h
          · rename_i i rest hd
            obtain ⟨n, hn⟩ := State.launch_eq (s := { u with script := rest }) hh i cut
            have hr : State.runningCtx { u with script := rest } = u.ctx := by simp only [State.runningCtx, hs]
            rw [hr] at hn
            exact .call n i rest t hh hs hd (hn.symm.trans h)
          · cases h

/-- Everything a step can do. -/
theorem step_eq_next {s t : State} (h : step s = .next t) :
    ∃ u, PlatformDid { s with sched := s.sched.tail } u ∧ StepDid u t := by
  unfold step at h
  split at h
  · rename_i u hu
    exact ⟨u, State.platformTick_eq_next hu, State.advance_eq_next h⟩
  · cases h
  · cases h

end Sys2Proof.Machine
end

