-- ==== Sys2Proof/Laws/OnWay.lean ====
section
/-! SUPPORT. Laws/OnWay.lean: where a framer or multiplexer operation leads, however it is interrupted: what is left of it
after each of its micro-steps leaves its unit as it is between operations. -/

namespace Sys2Proof.Machine

/-! The framer between its operations depends on its own registers and buffer only -/

theorem State.FramerOk.congr {s u : State} (h : FramerSeen s u) (hs : s.FramerOk) : u.FramerOk := by
  obtain ⟨⟨h1, h2, h3, h4, h5, h6, -⟩, hc⟩ := h
  refine ⟨?_, ?_, ?_, ?_⟩
  · unfold State.SequencerShape
    rw [h1, h2, h3, h4, h6]
    exact hs.shape
  · rw [h2, h4, h5]; exact hs.got
  · rw [h2, h3, h4, hc]; exact hs.fits
  · rw [h1, h2]; exact hs.quiet

theorem IngestOk.congr {c : Call} {s u : State} (h : FramerSeen s u) (hs : IngestOk c s) : IngestOk c u := by
  cases c with
  | op i => exact hs
  | awaiting ty => simp only [IngestOk, h.1.rxbuf]; exact hs
  | ingest ty st cs => simp only [IngestOk, h.1.rxbuf]; exact hs

theorem State.FramerBusy.congr {s u : State} {p : Prog} (h : FramerSeen s u) (hs : s.FramerBusy p) : u.FramerBusy p := by
  cases p with
  | done r => exact State.FramerOk.congr h hs
  | fatal c info => exact h.1.rxReqValid.trans hs
  | refuse r => trivial
  | stay c => exact ⟨h.1.rxReqValid.trans hs.1, IngestOk.congr h hs.2⟩
  | act m k => exact ⟨h.1.rxReqValid.trans hs.1, fun v hv => hs.2 v (h.trans hv)⟩

/-- A framer operation may make micro-steps of the pools on its way. -/
theorem State.FramerBusy.pools {s : State} {m : Micro} {k : Val → Prog} (hm : m.part = .pools)
    (hok : ∀ u : State, ∃ v t, u.perform m = .ok (v, t)) (hb : s.rxReqValid = false) (hk : ∀ v, s.FramerBusy (k v)) :
    s.FramerBusy (.act m k) := by
  refine ⟨hb, fun u hu => ?_⟩
  obtain ⟨v, t, ht⟩ := hok u
  have hs : FramerSeen u t :=
    ⟨State.perform_sameFramer (by rw [hm]; decide) ht, (State.perform_unmoved ht).cfg⟩
  exact ⟨v, t, ht, (hk v).congr (hu.trans hs)⟩

theorem State.FramerBusy.count {s : State} {p : PoolId} {k : Nat → Prog} (hb : s.rxReqValid = false)
    (hk : ∀ n, s.FramerBusy (k n)) : s.FramerBusy (.count p k) :=
  .pools rfl (fun _ => ⟨_, _, rfl⟩) hb fun _ => .pools rfl (fun _ => ⟨_, _, rfl⟩) hb fun _ => hk _

theorem State.FramerBusy.isFull {s : State} {p : PoolId} {k : Bool → Prog} (hb : s.rxReqValid = false)
    (hk : ∀ b, s.FramerBusy (k b)) : s.FramerBusy (.isFull p k) :=
  .pools rfl (fun _ => ⟨_, _, rfl⟩) hb fun _ => .pools rfl (fun _ => ⟨_, _, rfl⟩) hb fun _ => hk _

/-- A slot at a ring index exists (20_memory R51). -/
theorem State.FramerBusy.enq {s : State} {p : PoolId} {b : Byte} {k : Result → Prog} (hb : s.rxReqValid = false)
    (hk : ∀ r, s.FramerBusy (k r)) : s.FramerBusy (.enq p b k) := by
  refine .pools rfl (fun _ => ⟨_, _, rfl⟩) hb fun w => .pools rfl (fun _ => ⟨_, _, rfl⟩) hb fun r => ?_
  split
  · exact hk _
  · exact .pools (spacePart_slotsOf p) (fun u => u.perform_slot_store p _ _) hb
      fun _ => .pools rfl (fun _ => ⟨_, _, rfl⟩) hb fun _ => hk _

theorem State.FramerBusy.deq {s : State} {p : PoolId} {k : Result → Prog} (hb : s.rxReqValid = false)
    (hk : ∀ r, s.FramerBusy (k r)) : s.FramerBusy (.deq p k) := by
  refine .pools rfl (fun _ => ⟨_, _, rfl⟩) hb fun w => .pools rfl (fun _ => ⟨_, _, rfl⟩) hb fun r => ?_
  split
  · exact hk _
  · exact .pools (spacePart_slotsOf p) (fun u => u.perform_slot_load p _) hb
      fun _ => .pools rfl (fun _ => ⟨_, _, rfl⟩) hb fun _ => hk _

theorem State.FramerBusy.deqN {s : State} {p : PoolId} {k : Result → Prog} (hb : s.rxReqValid = false)
    (hk : ∀ r, s.FramerBusy (k r)) (n : Nat) (bs : List Byte) : s.FramerBusy (.deqN p n bs k) := by
  induction n generalizing bs with
  | zero => exact hk _
  | succ n ih =>
    refine .deq hb fun r => ?_
    split
    · exact ih _
    · exact hk _

theorem State.FramerBusy.takev {s : State} {p : PoolId} {n : Nat} {k : Result → Prog} (hb : s.rxReqValid = false)
    (hk : ∀ r, s.FramerBusy (k r)) : s.FramerBusy (.takev p n k) := by
  refine .count hb fun c => ?_
  split
  · exact hk _
  · exact .deqN hb hk n []

theorem State.FramerBusy.produce {s : State} {b : Byte} {k : Prog} (hb : s.rxReqValid = false) (hk : s.FramerBusy k) :
    s.FramerBusy (.produce b k) := by
  refine .isFull hb fun full => ?_
  split
  · exact .enq hb fun _ => hk
  · refine .isFull hb fun full => ?_
    split
    · exact .enq hb fun _ => hk
    · exact hk

theorem State.FramerBusy.getlobPass {s : State} {a : Around} {n : Nat} {k : Result → Prog} {again : Prog}
    (hb : s.rxReqValid = false) (hk : ∀ r, s.FramerBusy (k r)) (ha : s.FramerBusy again) :
    s.FramerBusy (.getlobPass a n k again) := by
  refine .takev hb fun r => ?_
  split
  · exact hk _
  · split
    · refine .pools rfl (fun _ => ⟨_, _, rfl⟩) hb fun v => ?_
      split
      · exact ha
      · split
        · trivial
        · exact .pools rfl (fun _ => ⟨_, _, rfl⟩) hb fun _ => .produce hb ha
    · exact ha

/-! The framer's own programs -/

/-- A request leaves the framer as the request it issues says. -/
theorem State.FramerBusy.request {s : State} {off n : Nat} (hb : s.rxReqValid = false)
    (hg : (s.request off n).FramerOk) : s.FramerBusy (.request off n) := by
  refine ⟨hb, fun u1 h1 => ⟨_, _, rfl, ⟨h1.1.rxReqValid.trans hb, fun u2 h2 => ⟨_, _, rfl, ⟨?_, fun u3 h3 =>
    ⟨_, _, rfl, ⟨?_, fun u4 h4 => ⟨_, _, rfl, ?_⟩⟩⟩⟩⟩⟩⟩⟩
  · exact h2.1.rxReqValid.trans (h1.1.rxReqValid.trans hb)
  · exact h3.1.rxReqValid.trans (h2.1.rxReqValid.trans (h1.1.rxReqValid.trans hb))
  · refine State.FramerOk.congr (s := s.request off n) (u := { u4 with rxReqValid := true })
      ⟨⟨?_, rfl, ?_, ?_, ?_, ?_, ?_⟩, ?_⟩ hg
    · exact h4.1.rxState.trans (h3.1.rxState.trans (h2.1.rxState.trans h1.1.rxState))
    · exact h4.1.rxReqOff.trans (h3.1.rxReqOff.trans h2.1.rxReqOff)
    · exact h4.1.rxReqLen.trans h3.1.rxReqLen
    · exact h4.1.rxGot
    · exact h4.1.rxbuf.trans (h3.1.rxbuf.trans (h2.1.rxbuf.trans h1.1.rxbuf))
    · exact h4.1.delivered.trans (h3.1.delivered.trans (h2.1.delivered.trans h1.1.delivered))
    · exact h4.2.trans (h3.2.trans (h2.2.trans h1.2))

theorem State.FramerBusy.await {s : State} {x : RxState} {off n : Nat} (hb : s.rxReqValid = false)
    (hg : ((s.enter x).request off n).FramerOk) : s.FramerBusy (.await x off n) := by
  refine ⟨hb, fun u hu => ⟨_, _, rfl, ?_⟩⟩
  refine State.FramerBusy.request (hu.1.rxReqValid.trans hb) (State.FramerOk.congr ?_ hg)
  exact ⟨⟨rfl, rfl, rfl, rfl, rfl, hu.1.rxbuf, hu.1.delivered⟩, hu.2⟩

/-- A request issued in the shape of its receive state. -/
theorem State.framerOk_request {s : State} {x : RxState} {off n : Nat} (hn : off + n ≤ s.cfg.rxbufSize)
    (hs : ((s.enter x).request off n).SequencerShape) : ((s.enter x).request off n).FramerOk :=
  ⟨fun _ => hs, fun _ => Nat.zero_le _, fun _ => hn, fun h => by cases h⟩

theorem State.framerOk_nextFrame (s : State) : ((s.enter .awaitingType).request 0 1).FramerOk :=
  State.framerOk_request (by have := Config.rxbufSize_ge s.cfg; omega) ⟨rfl, rfl⟩

theorem State.FramerBusy.ingestCode {s : State} (hb : s.rxReqValid = false) (a : Around) {ty : Byte} (status : Nat)
    (calls : List GetCall) (hi : (ty = tCmd ∨ ty = tAcl) ∧ Memory.read s.rxbuf 0 = ty) :
    s.FramerBusy (.ingestCode a ty status calls) := by
  have gave {s : State} (r : Result) {k : Prog} (hb : s.rxReqValid = false) (hk : s.FramerBusy k) :
      s.FramerBusy (.act (.gave r) fun _ => k) :=
    ⟨hb, fun u hu => ⟨_, _, rfl, hk.congr (hu.trans ⟨⟨rfl, rfl, rfl, rfl, rfl, rfl, rfl⟩, rfl⟩)⟩⟩
  have sole {s : State} {p : PoolId} {k : Prog} (hk : s.FramerBusy k) : s.FramerBusy (.ifSoleConsumer a p k) := by
    unfold Prog.ifSoleConsumer
    split
    · trivial
    · exact hk
  induction calls with
  | nil =>
    unfold Prog.ingestCode Prog.ingested
    split
    · exact hb
    · exact .await hb s.framerOk_nextFrame
  | cons c calls ih =>
    cases c with
    | high n => exact sole (.takev hb fun r => gave r hb ih)
    | low n => exact sole (.takev hb fun r => gave r hb ih)
    | lowBlocking n => exact sole (.getlobPass hb (fun r => gave r hb ih) ⟨hb, hi⟩)

theorem State.FramerBusy.awaitAnswer {s : State} (hb : s.rxReqValid = false) (a : Around) {ty : Byte}
    (hi : (ty = tCmd ∨ ty = tAcl) ∧ Memory.read s.rxbuf 0 = ty) : s.FramerBusy (.awaitAnswer a ty) := by
  refine ⟨hb, fun u hu => ?_⟩
  have hub : u.rxReqValid = false := hu.1.rxReqValid.trans hb
  have hui : (ty = tCmd ∨ ty = tAcl) ∧ Memory.read u.rxbuf 0 = ty := by rw [hu.1.rxbuf]; exact hi
  cases hc : u.ctlIngest with
  | nil => exact ⟨.answer none, u, by simp only [State.perform, State.takeAnswer, hc], hub, hui⟩
  | cons x rest =>
    exact ⟨.answer (some x), u.setAnswers rest, by simp only [State.perform, State.takeAnswer, hc],
      State.FramerBusy.ingestCode (s := u.setAnswers rest) hub a x.status x.calls hui⟩

/-- An ingest call in progress, resumed. -/
theorem State.FramerBusy.ingest {s : State} (hb : s.rxReqValid = false) {c : Call} (hi : IngestOk c s) (a : Around) :
    s.FramerBusy (Call.prog c a) := by
  cases c with
  | op i => cases hi
  | awaiting ty => exact .awaitAnswer hb a hi
  | ingest ty st calls => exact .ingestCode hb a st calls hi

/-- A load from `RXBUF` on the way. -/
theorem State.FramerBusy.load {s : State} {i : Nat} {k : Val → Prog} (hb : s.rxReqValid = false)
    (hi : i < s.cfg.rxbufSize) (hk : s.FramerBusy (k (.byte (Memory.read s.rxbuf i)))) :
    s.FramerBusy (.act (.load .rxbuf i) k) := by
  refine ⟨hb, fun u hu => ⟨_, _, State.load_of_lt (by rw [hu.2]; exact hi), ?_⟩⟩
  simp only [State.space, hu.1.rxbuf]
  exact hk.congr hu

/-- A delivery of a frame whose bytes lie in `RXBUF`. -/
theorem State.FramerBusy.deliver {s : State} (hb : s.rxReqValid = false) (a : Around)
    (hc : Memory.read s.rxbuf 0 = tCmd → cmdPayloadOff + cmdLength (Memory.read s.rxbuf 3) ≤ s.cfg.rxbufSize)
    (hd : Memory.read s.rxbuf 0 = tAcl →
      aclPayloadOff + aclLength (Memory.read s.rxbuf 3) (Memory.read s.rxbuf 4) ≤ s.cfg.rxbufSize) :
    s.FramerBusy (.deliver a) := by
  have h5 := Config.rxbufSize_ge s.cfg
  have ingest {kind : IngestKind} {n : Nat} {ty : Byte} (hn : 1 + n ≤ s.cfg.rxbufSize) (hty : ty = tCmd ∨ ty = tAcl)
      (h0 : Memory.read s.rxbuf 0 = ty) : s.FramerBusy (.act (.ingest kind n) fun _ => .awaitAnswer a ty) := by
    refine ⟨hb, fun u hu => ⟨.unit, u.passes ⟨kind, Memory.readN u.rxbuf 1 n⟩, ?_, ?_⟩⟩
    · simp only [State.perform, State.ingest]
      rw [hu.2]
      exact if_pos hn
    · exact State.FramerBusy.awaitAnswer (s := u.passes _) (hu.1.rxReqValid.trans hb) a ⟨hty, by rw [← h0, ← hu.1.rxbuf]; rfl⟩
  refine .load hb (by omega) ?_
  split
  · rename_i h0
    have := hc h0
    simp only [cmdPayloadOff] at this
    exact .load hb (by omega) (ingest (by simp only [Val.getByte]; omega) (.inl rfl) h0)
  · split
    · rename_i h0
      have := hd h0
      simp only [aclPayloadOff] at this
      exact .load hb (by omega) (.load hb (by omega) (ingest (by simp only [Val.getByte]; omega) (.inr rfl) h0))
    · exact hb

/-- A payload request or the fatal condition. -/
theorem State.FramerBusy.requestPayload {s : State} (hb : s.rxReqValid = false) {a : Around} (ha : a.cfg = s.cfg)
    {off len : Nat} (hs : ((s.enter .awaitingPayload).request off len).SequencerShape) :
    s.FramerBusy (.requestPayload a off len) := by
  unfold Prog.requestPayload
  rw [ha]
  split
  · exact hb
  · exact .await hb (State.framerOk_request (by omega) hs)

/-- The transition after an RX-complete that found the sequencer in shape. -/
theorem State.FramerBusy.transition {s : State} (hb : s.rxReqValid = false) {a : Around} (ha : a.cfg = s.cfg)
    (hs : s.SequencerShape) (hf : s.rxReqOff + s.rxReqLen ≤ s.cfg.rxbufSize) : s.FramerBusy (.transition a) := by
  have h5 := Config.rxbufSize_ge s.cfg
  have h01 : tCmd ≠ tAcl := by decide
  refine ⟨hb, fun u hu => ⟨.rxState u.rxState, u, rfl, State.FramerBusy.congr hu ?_⟩⟩
  rw [hu.1.rxState]
  unfold State.SequencerShape at hs
  cases hx : s.rxState with
  | awaitingType =>
    refine .load hb (by omega) ?_
    split
    · rename_i h0
      exact .await hb (State.framerOk_request (by simp only [cmdHdr]; omega) ⟨rfl, rfl, h0⟩)
    · split
      · rename_i h0
        exact .await hb (State.framerOk_request (by simp only [aclHdr]; omega) ⟨rfl, rfl, h0⟩)
      · exact hb
  | awaitingCmdHeader =>
    simp only [hx] at hs
    refine .load hb (by omega) ?_
    split
    · rename_i h3
      have h3 : Memory.read s.rxbuf 3 = 0#8 := h3
      refine .deliver hb a (fun _ => ?_) (fun h => absurd (hs.2.2.symm.trans h) h01)
      rw [h3]
      simp [cmdLength, cmdPayloadOff, cmdHdr]; omega
    · rename_i h3
      have b3 := (Memory.read s.rxbuf 3).isLt
      have : ¬ (Memory.read s.rxbuf 3).toNat = 0 := fun a => h3 (BitVec.eq_of_toNat_eq a)
      have hl : 1 ≤ cmdLength (Memory.read s.rxbuf 3) ∧ cmdLength (Memory.read s.rxbuf 3) ≤ 255 := by
        simp only [cmdLength]; omega
      exact .requestPayload hb ha (.inl ⟨rfl, hl.1, hl.2, hs.2.2, rfl⟩)
  | awaitingAclHeader =>
    simp only [hx] at hs
    refine .load hb (by omega) (.load hb (by omega) ?_)
    split
    · rename_i h3
      have h3 : Memory.read s.rxbuf 3 = 0#8 ∧ Memory.read s.rxbuf 4 = 0#8 := h3
      refine .deliver hb a (fun h => absurd (h.symm.trans hs.2.2) h01) (fun _ => ?_)
      rw [h3.1, h3.2]
      simp [aclLength, aclPayloadOff, aclHdr]; omega
    · rename_i h3
      have b3 := (Memory.read s.rxbuf 3).isLt
      have b4 := (Memory.read s.rxbuf 4).isLt
      have : ¬ ((Memory.read s.rxbuf 3).toNat = 0 ∧ (Memory.read s.rxbuf 4).toNat = 0) :=
        fun ⟨a, b⟩ => h3 ⟨BitVec.eq_of_toNat_eq a, BitVec.eq_of_toNat_eq b⟩
      have hl : 1 ≤ aclLength (Memory.read s.rxbuf 3) (Memory.read s.rxbuf 4) ∧
          aclLength (Memory.read s.rxbuf 3) (Memory.read s.rxbuf 4) ≤ 65535 := by
        simp only [aclLength]; omega
      exact .requestPayload hb ha (.inr ⟨rfl, hl.1, hl.2, hs.2.2, rfl⟩)
  | awaitingPayload =>
    simp only [hx] at hs
    rcases hs with ⟨ho, -, -, h0, hl⟩ | ⟨ho, -, -, h0, hl⟩
    · exact .deliver hb a (fun _ => by rw [hl, ← ho]; exact hf) (fun h => absurd (h0.symm.trans h) h01)
    · exact .deliver hb a (fun h => absurd (h.symm.trans h0) h01) (fun _ => by rw [hl, ← ho]; exact hf)

/-! Arriving bytes -/

/-- Bytes stored in the outstanding request leave the bytes before it. -/
theorem State.fill_read_lt {s : State} (hw : Memory.Wf s.rxbuf) (bs : List Byte) {i : Nat} (hi : i < s.rxReqOff) :
    Memory.read (s.fill bs).rxbuf i = Memory.read s.rxbuf i := by
  rw [State.fill_rxbuf, Memory.read_writeN hw, if_neg (by omega)]

/-- Bytes stored in the outstanding request keep the sequencer's shape. -/
theorem State.SequencerShape.fill {s : State} (hw : Memory.Wf s.rxbuf) (bs : List Byte) (hs : s.SequencerShape) :
    (s.fill bs).SequencerShape := by
  have hr := @State.fill_read_lt s hw bs
  unfold State.SequencerShape at hs ⊢
  rw [State.fill_rxState]
  cases hx : s.rxState <;> simp only [hx] at hs ⊢ <;> simp only [State.fill_rxReqOff, State.fill_rxReqLen]
  · exact hs
  · rw [hr (by omega)]; exact hs
  · rw [hr (by omega)]; exact hs
  · rcases hs with ⟨ho, h⟩ | ⟨ho, h⟩
    · rw [hr (by rw [ho]; decide), hr (by rw [ho]; decide)]
      exact .inl ⟨ho, h⟩
    · rw [hr (by rw [ho]; decide), hr (by rw [ho]; decide), hr (by rw [ho]; decide)]
      exact .inr ⟨ho, h⟩

theorem State.FramerOk.fill {s : State} (hs : s.FramerOk) (hw : Memory.Wf s.rxbuf) {bs : List Byte}
    (hv : s.rxReqValid = true) (hg : s.rxGot + bs.length ≤ s.rxReqLen) : (s.fill bs).FramerOk :=
  ⟨fun _ => (hs.shape hv).fill hw bs, fun _ => hg, hs.fits, fun h => by rw [State.fill_rxReqValid, hv] at h; cases h⟩

/-- After the first micro-step of an arrival, what is left is on its way. -/
theorem State.receive_onWay {s : State} (hs : s.FramerOk) (hw : Memory.Wf s.rxbuf) {bs : List Byte}
    (hv : s.rxReqValid = true) (hg : s.rxGot + bs.length ≤ s.rxReqLen) {a : Around} (ha : a.cfg = s.cfg) :
    ∃ v t, s.receive bs = .ok (v, t) ∧ t.FramerBusy (.received a v) := by
  have hf := hs.fits hv
  have hk := hs.fill hw hv hg
  rcases s.receive_cases bs with ⟨h, -⟩ | ⟨-, h, h'⟩ | ⟨-, h, h'⟩
  · omega
  · exact ⟨_, _, h', State.FramerBusy.transition (s := (s.fill bs).beginRx) rfl ha (hk.shape hv) hf⟩
  · exact ⟨_, _, h', hk⟩

theorem State.completeRequest_onWay {s : State} (hs : s.FramerOk) (hw : Memory.Wf s.rxbuf) (bs : List Byte) {a : Around}
    (ha : a.cfg = s.cfg) : ∃ v t, s.perform (.completeRequest bs) = .ok (v, t) ∧ t.FramerBusy (.received a v) := by
  simp only [State.perform, State.completeRequest]
  split
  · rename_i h
    exact State.receive_onWay hs hw h.1 (by omega) ha
  · exact ⟨_, _, rfl, trivial⟩

theorem State.storeByte_onWay {s : State} (hs : s.FramerOk) (hw : Memory.Wf s.rxbuf) (b : Byte) {a : Around}
    (ha : a.cfg = s.cfg) : ∃ v t, s.perform (.storeByte b) = .ok (v, t) ∧ t.FramerBusy (.received a v) := by
  simp only [State.perform, State.storeByte]
  split
  · rename_i h
    exact State.receive_onWay hs hw h.1 (by simp only [List.length_singleton]; omega) ha
  · exact ⟨_, _, rfl, trivial⟩

theorem State.begin_onWay (s : State) :
    ∃ v t, s.perform .begin = .ok (v, t) ∧ t.FramerBusy (if v.getFlag then .done .nothing else .request 0 1) := by
  simp only [State.perform]
  cases hv : s.rxReqValid
  · exact ⟨_, _, rfl, State.FramerBusy.request (s := s.enter .awaitingType) hv s.framerOk_nextFrame⟩
  · exact ⟨_, _, rfl, s.framerOk_nextFrame⟩

/-! The multiplexer -/

theorem State.MuxOk.congr {s u : State} (h : MuxSeen s u) (hs : s.MuxOk) : u.MuxOk := by
  obtain ⟨⟨-, h2, h3, h4, -⟩, h6, h7, hc⟩ := h
  refine ⟨?_, ?_, ?_, ?_⟩
  · rw [h2, h6, h7]; exact hs.busy
  · rw [h6, h7]; exact hs.single
  · rw [h2, h3, hc]; exact hs.length
  · rw [h2, h4]; exact hs.typeByte

theorem State.MuxBusy.congr {s u : State} {p : Prog} (h : MuxSeen s u) (hs : s.MuxBusy p) : u.MuxBusy p := by
  cases p with
  | done r => exact State.MuxOk.congr h hs
  | fatal c info => exact ⟨h.2.1.trans hs.1, h.2.2.1.trans hs.2⟩
  | refuse r => trivial
  | stay c => exact hs.2.elim
  | act m k =>
    exact ⟨⟨h.2.1.trans hs.1.1, h.2.2.1.trans hs.1.2⟩, fun v hv => hs.2 v (h.trans hv)⟩

theorem State.MuxBusy.send {s : State} (hb : s.txFlight = false ∧ s.txDone = false) (hw : Memory.Wf s.txbuf) (k : TxKind)
    {n : Nat} (h2 : 2 ≤ n) (hn : n ≤ s.cfg.txbufSize) : s.MuxBusy (.send k n) := by
  have hsz := Config.txbufSize_ge s.cfg
  refine ⟨hb, fun u1 h1 => ⟨_, _, State.store_of_lt (sp := .txbuf) (by rw [h1.2.2.2]; simp only [Config.size]; omega) _,
    ⟨⟨h1.2.1.trans hb.1, h1.2.2.1.trans hb.2⟩, fun u2 h2' => ⟨_, _, rfl, ⟨⟨?_, ?_⟩, fun u3 h3 => ⟨_, _, rfl,
      ⟨⟨?_, ?_⟩, fun u4 h4 => ?_⟩⟩⟩⟩⟩⟩⟩
  · exact h2'.2.1.trans (h1.2.1.trans hb.1)
  · exact h2'.2.2.1.trans (h1.2.2.1.trans hb.2)
  · exact h3.2.1.trans (h2'.2.1.trans (h1.2.1.trans hb.1))
  · exact h3.2.2.1.trans (h2'.2.2.1.trans (h1.2.2.1.trans hb.2))
  · have hc : u4.cfg = s.cfg := h4.2.2.2.trans (h3.2.2.2.trans (h2'.2.2.2.trans h1.2.2.2))
    have hd : u4.txDone = false := h4.2.2.1.trans (h3.2.2.1.trans (h2'.2.2.1.trans (h1.2.2.1.trans hb.2)))
    have hi : u4.txIdle = false := h4.1.txIdle.trans h3.1.txIdle
    have hl : u4.txLen = n := h4.1.txLen
    have ht : u4.txbuf = Memory.write s.txbuf 0 k.typeByte := by
      rw [h4.1.txbuf]
      exact h3.1.txbuf.trans (h2'.1.txbuf.trans (congrArg (Memory.write · 0 k.typeByte) h1.1.txbuf))
    refine ⟨.unit, u4.uartTx n, by simp only [State.perform, State.transmit]; rw [if_pos (by rw [hc]; exact hn)], ?_, ?_, ?_, ?_⟩
    · exact ⟨fun _ => .inl rfl, fun _ => hi⟩
    · rintro ⟨-, h⟩
      exact absurd (hd.symm.trans h) (by decide)
    · intro _
      rw [State.uartTx_txLen, State.uartTx_cfg, hl, hc]
      exact ⟨h2, hn⟩
    · intro _
      rw [State.uartTx_txbuf, ht, Memory.read_write_same hw]
      cases k
      · exact .inl rfl
      · exact .inr rfl

/-- A poll that has found the path idle. -/
theorem State.MuxBusy.poll {s : State} (hb : s.txFlight = false ∧ s.txDone = false) (hi : s.txIdle = true)
    (hw : Memory.Wf s.txbuf) {a : Around} (ha : a.cfg = s.cfg) :
    s.MuxBusy (.act .readTxLast fun last =>
      .act (.pull (txKind last.getFlag)) fun len =>
        .act (.noteKind (txKind last.getFlag)) fun _ =>
          if len.getLength = 0 then .done .nothing
          else if 1 + len.getLength > a.cfg.txbufSize then .fatal .txOverlength len.getLength
          else .send (txKind last.getFlag) (1 + len.getLength)) := by
  refine ⟨hb, fun u1 h1 => ⟨_, _, rfl, ⟨⟨h1.2.1.trans hb.1, h1.2.2.1.trans hb.2⟩, fun u2 h2 => ⟨_, _, rfl, ?_⟩⟩⟩⟩
  have h12 := MuxSeen.trans h1 h2
  have hp (k : TxKind) : (u2.pull k).2.txFlight = u2.txFlight ∧ (u2.pull k).2.txDone = u2.txDone ∧
      (u2.pull k).2.txIdle = u2.txIdle ∧ (u2.pull k).2.cfg = u2.cfg ∧
      (u2.pull k).2.txbuf = Memory.writeN u2.txbuf 1 ((u2.pull k).1.written.take (u2.cfg.txbufSize - 1)) := by
    simp only [State.pull]
    cases k <;> exact ⟨rfl, rfl, rfl, rfl, rfl⟩
  generalize txKind (Val.flag u1.txLastEvt).getFlag = k at *
  obtain ⟨p1, p2, p3, p4, p5⟩ := hp k
  refine ⟨⟨p1.trans (h12.2.1.trans hb.1), p2.trans (h12.2.2.1.trans hb.2)⟩, fun u3 h3 => ⟨_, _, rfl, ?_⟩⟩
  have f3 : u3.txFlight = false := h3.2.1.trans (p1.trans (h12.2.1.trans hb.1))
  have d3 : u3.txDone = false := h3.2.2.1.trans (p2.trans (h12.2.2.1.trans hb.2))
  have i3 : u3.txIdle = true := h3.1.txIdle.trans (p3.trans (h12.1.txIdle.trans hi))
  have c3 : u3.cfg = s.cfg := h3.2.2.2.trans (p4.trans h12.2.2.2)
  simp only [Val.getLength, ha]
  split
  · refine ⟨?_, ?_, ?_, ?_⟩
    · rw [State.noteKind_txIdle, State.noteKind_txFlight, State.noteKind_txDone, i3, f3, d3]; simp
    · rw [State.noteKind_txFlight, f3]; simp
    · intro h; rw [State.noteKind_txIdle, i3] at h; cases h
    · intro h; rw [State.noteKind_txIdle, i3] at h; cases h
  · split
    · exact ⟨f3, d3⟩
    · refine State.MuxBusy.send (s := u3.noteKind k) ⟨f3, d3⟩ ?_ k (by omega) (by rw [State.noteKind_cfg, c3]; omega)
      rw [State.noteKind_txbuf, h3.1.txbuf, p5, h12.1.txbuf]
      exact Memory.writeN_wf hw _ _

theorem State.readTxIdle_onWay {s : State} (hs : s.MuxOk) (hw : Memory.Wf s.txbuf) {a : Around} (ha : a.cfg = s.cfg) :
    ∃ k, progTxPoll a = .act .readTxIdle k ∧ s.MuxBusy (k (.flag s.txIdle)) := by
  refine ⟨_, rfl, ?_⟩
  simp only [Val.getFlag]
  cases hi : s.txIdle
  · exact hs
  · have hf : s.txFlight = false := by
      rcases Bool.eq_false_or_eq_true s.txFlight with h | h
      · exact absurd (hi.symm.trans (hs.busy.2 (.inl h))) (by decide)
      · exact h
    have hd : s.txDone = false := by
      rcases Bool.eq_false_or_eq_true s.txDone with h | h
      · exact absurd (hi.symm.trans (hs.busy.2 (.inr h))) (by decide)
      · exact h
    exact State.MuxBusy.poll ⟨hf, hd⟩ hi hw ha

theorem State.takeTxEvent_onWay (s : State) (a : Around) :
    ∃ k, progTxComplete a = .act .takeTxEvent k ∧ s.takeTxEvent.MuxBusy (k (.flag (s.txFlight || s.txDone))) := by
  refine ⟨_, rfl, ?_⟩
  split
  · refine ⟨⟨rfl, rfl⟩, fun u hu => ⟨_, _, rfl, ?_, ?_, ?_, ?_⟩⟩
    · rw [State.setTxIdle_txIdle, State.setTxIdle_txFlight, State.setTxIdle_txDone, hu.2.1, hu.2.2.1]
      simp
    · rw [State.setTxIdle_txFlight, hu.2.1]; simp
    · intro h; cases h
    · intro h; cases h
  · trivial

end Sys2Proof.Machine
end

