-- ==== Sys2Proof/Laws/Invariant.lean ====
section
/-! SUPPORT. Laws/Invariant.lean: what keeps the invariant of Safety.lean: the events of the platform, an operation that
starts, an activation that goes on. The two claims about `step` are put together from these. -/

namespace Sys2Proof.Machine

/-! A program run from a state in which it is on its way -/

/-- A framer operation that has made its first micro-step. -/
def State.Framing (s : State) (q : Prog) : Prop := s.rxReqValid = false ∧ s.FramerBusy q

/-- A multiplexer operation that has made its first micro-step. -/
def State.Muxing (s : State) (q : Prog) : Prop := (s.txFlight = false ∧ s.txDone = false) ∧ s.MuxBusy q

theorem State.Framing.congr {s u : State} {q : Prog} (h : FramerSeen s u) (hs : s.Framing q) : u.Framing q :=
  ⟨h.1.rxReqValid.trans hs.1, State.FramerBusy.congr h hs.2⟩

theorem State.Muxing.congr {s u : State} {q : Prog} (h : MuxSeen s u) (hs : s.Muxing q) : u.Muxing q :=
  ⟨⟨h.2.1.trans hs.1.1, h.2.2.1.trans hs.1.2⟩, State.MuxBusy.congr h hs.2⟩

/-- How a program of unit `p` ends a step from which the unit is left as `good` says, or suspended as `busy` says. -/
inductive EndedWell (p : Part) (good : State → Prop) (busy : State → Prog → Prop) (c : Ctx) (u : State) : State → Prop
  | returns (r : Result) (h : good u) : EndedWell p good busy c u (u.returns r)
  | fatal (code : FatalCode) (info : Nat) : EndedWell p good busy c u ((u.raiseFatal code info).returns .nothing)
  | stays (a : Activation) (hc : a.ctx = c) (hp : Call.part a.call = p) (h : busy u (a.rest u.cfg u.stack)) :
      EndedWell p good busy c u (u.suspend a)

/-- What a program needs, to end well wherever it is cut: `way` says where it is. -/
structure Way (p : Part) (good : State → Prop) (busy : State → Prog → Prop) (way : State → Prog → Prop) : Prop where
  done : ∀ s r, way s (.done r) → good s
  fatal : ∀ s c i, way s (.fatal c i) → busy s (.fatal c i)
  stay : ∀ s c a, way s (.stay c) → busy s (Call.prog c a)
  act : ∀ s m k, way s (.act m k) → busy s (.act m k) ∧ ∃ v t, s.perform m = .ok (v, t) ∧ way t (k v)

theorem Way.runFor {p : Part} {good : State → Prop} {busy way : State → Prog → Prop} (w : Way p good busy way) {q : Prog}
    {n : Nat} {a : Activation} {s : State} (hb : way s q) (hw : q.Within p) (ha : Call.part a.call = p)
    (hr : a.rest s.cfg s.stack = q) :
    (∀ f, Prog.runFor n a q s ≠ .fault f) ∧ ∀ t, Prog.runFor n a q s = .next t →
      ∃ u, Made (fun m => m.part = .pools ∨ m.part = p) s u ∧ EndedWell p good busy a.ctx u t := by
  induction q generalizing n a s with
  | done r => rw [Prog.runFor_done]; exact ⟨by simp, fun t h => ⟨s, .refl s, by cases h; exact .returns r (w.done s r hb)⟩⟩
  | fatal c i =>
    cases n with
    | zero =>
      refine ⟨by simp [Prog.runFor_fatal_zero], fun t h => ⟨s, .refl s, ?_⟩⟩
      cases h
      exact .stays a rfl ha (by rw [hr]; exact w.fatal s c i hb)
    | succ n => exact ⟨by simp [Prog.runFor_fatal], fun t h => ⟨s, .refl s, by cases h; exact .fatal c i⟩⟩
  | refuse r => rw [Prog.runFor_refuse]; exact ⟨by simp, fun t h => by cases h⟩
  | stay c =>
    rw [Prog.runFor_stay]
    refine ⟨by simp, fun t h => ⟨s, .refl s, ?_⟩⟩
    cases h
    refine .stays _ rfl hw ?_
    rw [Activation.rest, Prog.after_nil]
    exact w.stay s c _ hb
  | act m k ih =>
    obtain ⟨hs, v, t', hp, ht⟩ := w.act s m k hb
    cases n with
    | zero =>
      refine ⟨by simp [Prog.runFor_zero], fun t h => ⟨s, .refl s, ?_⟩⟩
      cases h
      exact .stays a rfl ha (by rw [hr]; exact hs)
    | succ n =>
      rw [Prog.runFor_succ n a k hp]
      have hu := State.perform_unmoved hp
      obtain ⟨h1, h2⟩ := ih v (n := n) (a := { a with seen := a.seen ++ [v] }) ht (hw.2 v) ha
        (by rw [hu.cfg, hu.stack]; exact Prog.after_append _ _ _ _ _ hr)
      refine ⟨h1, fun t h => ?_⟩
      obtain ⟨u, hm, hf⟩ := h2 t h
      exact ⟨u, .step hw.1 hp hm, hf⟩

theorem Way.framer : Way .framer State.FramerOk State.Framing State.FramerBusy where
  done _ _ h := h
  fatal _ _ _ h := ⟨h, h⟩
  stay _ _ _ h := ⟨h.1, .ingest h.1 h.2 _⟩
  act s _ _ h := ⟨⟨h.1, h⟩, h.2 s (.refl s)⟩

theorem Way.mux : Way .mux State.MuxOk State.Muxing State.MuxBusy where
  done _ _ h := h
  fatal _ _ _ h := ⟨h, h⟩
  stay _ _ _ h := h.2.elim
  act s _ _ h := ⟨⟨h.1, h⟩, h.2 s (.refl s)⟩

/-- Every micro-step exists in every state. -/
abbrev Prog.Total (q : Prog) : Prop := q.Obeys ⟨Micro.Total, fun _ => True, True⟩

theorem Prog.Total.instr {i : Instr} (h : Instr.part i = .pools) (a : Around) : (Instr.prog i a).Total :=
  Prog.Obeys.instr i a (fun _ _ _ h _ => h) (fun e => by rw [h] at e; cases e) (fun e => by rw [h] at e; cases e)
    (fun _ _ => trivial) (fun _ _ => ⟨_, _, rfl⟩) (fun _ e => by subst e; cases h) (fun _ e => by subst e; cases h)

theorem Way.pools : Way .pools (fun _ => True) (fun _ _ => True) (fun _ q => q.Total) where
  done _ _ _ := trivial
  fatal _ _ _ _ := trivial
  stay _ _ _ _ := trivial
  act s _ _ h := ⟨trivial, let ⟨v, t, ht⟩ := h.1 s; ⟨v, t, ht, h.2 v⟩⟩

/-! The invariant while a program of one unit runs -/

/-- The invariant but for unit `p`, whose operation is off the stack and running. -/
structure State.InvBut (p : Part) (s : State) : Prop where
  memory : s.MemoryWf
  latch : s.LatchOk
  random : s.rngReady = true → s.rsStarted = true
  nested : s.Nested
  oneEach : s.OneEach
  running : s.halted = false
  none : p ≠ .pools → s.NoneOf p
  framer : p ≠ .framer → s.NoneOf .framer → s.FramerOk
  framing : ∀ a below, a :: below <:+ s.stack → Call.part a.call = .framer → s.Framing (a.rest s.cfg below)
  mux : p ≠ .mux → s.NoneOf .mux → s.MuxOk
  muxing : ∀ a below, a :: below <:+ s.stack → Call.part a.call = .mux → s.Muxing (a.rest s.cfg below)

theorem mem_of_cons_suffix {a : Activation} {l s : List Activation} (h : a :: l <:+ s) : a ∈ s :=
  h.subset List.mem_cons_self

/-- Context `c` is an interrupt more urgent than everything in progress. -/
def State.Above (s : State) (c : Ctx) : Prop :=
  ∀ b ∈ s.stack, c ≠ .main ∧ Config.canPreempt s.cfg c b.ctx = true

theorem State.Above.unmoved {s t : State} {c : Ctx} (h : s.Above c) (hm : s.Unmoved t) : t.Above c := by
  unfold State.Above
  rw [hm.stack, hm.cfg]
  exact h

/-- Nothing is asked of the unit `p` itself. -/
theorem State.InvBut.congr {p : Part} {s t : State} (h : s.InvBut p) (memory : t.MemoryWf) (latch : t.LatchOk)
    (random : t.rngReady = true → t.rsStarted = true) (stack : t.stack = s.stack) (halted : t.halted = s.halted)
    (cfg : t.cfg = s.cfg) (framer : p ≠ .framer → FramerSeen s t) (mux : p ≠ .mux → MuxSeen s t) : t.InvBut p where
  memory := memory
  latch := latch
  random := random
  nested := by unfold State.Nested; rw [stack, cfg]; exact h.nested
  oneEach := by unfold State.OneEach; rw [stack]; exact h.oneEach
  running := halted.trans h.running
  none := by unfold State.NoneOf; rw [stack]; exact h.none
  framer hp hn := State.FramerOk.congr (framer hp) (h.framer hp (by unfold State.NoneOf at *; rw [stack] at hn; exact hn))
  framing a b hs ha := by
    rw [stack] at hs
    rw [cfg]
    by_cases hp : p = .framer
    · exact absurd ha (hp ▸ h.none (by rw [hp]; decide) a (mem_of_cons_suffix hs))
    · exact State.Framing.congr (framer hp) (h.framing a b hs ha)
  mux hp hn := State.MuxOk.congr (mux hp) (h.mux hp (by unfold State.NoneOf at *; rw [stack] at hn; exact hn))
  muxing a b hs ha := by
    rw [stack] at hs
    rw [cfg]
    by_cases hp : p = .mux
    · exact absurd ha (hp ▸ h.none (by rw [hp]; decide) a (mem_of_cons_suffix hs))
    · exact State.Muxing.congr (mux hp) (h.muxing a b hs ha)

/-- Micro-steps of a unit leave the rest of the invariant. -/
theorem State.InvBut.made {p : Part} {s u : State} (h : s.InvBut p)
    (hm : Made (fun m => m.part = .pools ∨ m.part = p) s u) : u.InvBut p := by
  have un := hm.unmoved
  have hr := hm.random
  have other {q : Part} (hq : q ≠ .pools) (hp : p ≠ q) (m : Micro) (h : m.part = .pools ∨ m.part = p) : m.part ≠ q := by
    rintro rfl
    rcases h with h | h
    · exact hq h
    · exact hp h.symm
  refine h.congr (hm.memoryWf h.memory) ⟨?_, ?_⟩ (fun e => hr.1 (h.random (hr.2 e))) un.stack un.halted un.cfg
    (fun hp => hm.framerSeen (other (by decide) hp)) fun hp => hm.muxSeen (other (by decide) hp)
  · rw [un.halted, un.faultCode, un.faultInfo]; exact h.latch.1
  · rw [un.halted, un.faultCode]; exact h.latch.2

theorem FramerSeen.returns (s : State) (r : Result) : FramerSeen s (s.returns r) := ⟨⟨rfl, rfl, rfl, rfl, rfl, rfl, rfl⟩, rfl⟩
theorem MuxSeen.returns (s : State) (r : Result) : MuxSeen s (s.returns r) := ⟨⟨rfl, rfl, rfl, rfl, rfl⟩, rfl, rfl, rfl⟩
theorem FramerSeen.suspend (s : State) (a : Activation) : FramerSeen s (s.suspend a) :=
  ⟨⟨rfl, rfl, rfl, rfl, rfl, rfl, rfl⟩, rfl⟩
theorem MuxSeen.suspend (s : State) (a : Activation) : MuxSeen s (s.suspend a) :=
  ⟨⟨rfl, rfl, rfl, rfl, rfl⟩, rfl, rfl, rfl⟩

/-- The operation of the unit returns, with the unit as it is between its operations. -/
theorem State.InvBut.inv {p : Part} {u : State} (h : u.InvBut p) (hf : p = .framer → u.FramerOk) (hm : p = .mux → u.MuxOk)
    (r : Result) : (u.returns r).Inv where
  memory := h.memory.congr rfl rfl rfl rfl rfl
  latch := ⟨h.latch.1, h.latch.2⟩
  random := h.random
  nested := h.nested
  oneEach := h.oneEach
  framer _ hn := by
    by_cases hp : p = .framer
    · exact State.FramerOk.congr (.returns u r) (hf hp)
    · exact State.FramerOk.congr (.returns u r) (h.framer hp hn)
  framing _ a b hs ha := State.Framing.congr (.returns u r) (h.framing a b hs ha)
  mux _ hn := by
    by_cases hp : p = .mux
    · exact State.MuxOk.congr (.returns u r) (hm hp)
    · exact State.MuxOk.congr (.returns u r) (h.mux hp hn)
  muxing _ a b hs ha := State.Muxing.congr (.returns u r) (h.muxing a b hs ha)

/-- Of a halted block only the byte spaces, the latch and the order of what stays suspended are asked. -/
theorem State.inv_of_halted {u : State} (memory : u.MemoryWf) (code : 1 ≤ u.faultCode ∧ u.faultCode ≤ 5)
    (random : u.rngReady = true → u.rsStarted = true) (nested : u.Nested) (oneEach : u.OneEach) (h : u.halted = true) :
    u.Inv :=
  have no {q : Prop} (e : u.halted = false) : q := by rw [h] at e; cases e
  ⟨memory, ⟨no, fun _ => code⟩, random, nested, oneEach, no, no, no, no⟩

theorem FatalCode.code_range (c : FatalCode) : 1 ≤ c.code ∧ c.code ≤ 5 := by cases c <;> decide

/-- A fatal condition keeps the invariant (60 R203). -/
theorem State.inv_raiseFatal {u : State} (memory : u.MemoryWf) (random : u.rngReady = true → u.rsStarted = true)
    (nested : u.Nested) (oneEach : u.OneEach) (running : u.halted = false) (c : FatalCode) (info : Nat) :
    (u.raiseFatal c info).Inv := by
  rw [State.raiseFatal_of_running running]
  exact State.inv_of_halted (memory.congr rfl rfl rfl rfl rfl) c.code_range random nested oneEach rfl

/-- However a program of the unit ends the step, the invariant holds. -/
theorem State.InvBut.ended {p : Part} {u t : State} {c : Ctx} {good : State → Prop} {busy : State → Prog → Prop}
    (h : u.InvBut p) (hn : u.Above c) (hgf : p = .framer → ∀ u, good u → State.FramerOk u)
    (hgm : p = .mux → ∀ u, good u → State.MuxOk u) (hbf : p = .framer → ∀ u q, busy u q → State.Framing u q)
    (hbm : p = .mux → ∀ u q, busy u q → State.Muxing u q) (hf : EndedWell p good busy c u t) : t.Inv := by
  cases hf with
  | returns r hg => exact h.inv (fun e => hgf e u hg) (fun e => hgm e u hg) r
  | fatal code info =>
    rw [State.raiseFatal_of_running h.running]
    exact State.inv_of_halted (h.memory.congr rfl rfl rfl rfl rfl) code.code_range h.random h.nested h.oneEach rfl
  | stays a hc hp hb =>
    refine ⟨h.memory.congr rfl rfl rfl rfl rfl, ⟨h.latch.1, h.latch.2⟩, h.random, ?_, ?_, fun _ hn => ?_,
      fun _ a' b hs ha => ?_, fun _ hn => ?_, fun _ a' b hs ha => ?_⟩
    · exact List.pairwise_cons.2 ⟨fun b hb => by rw [hc]; exact hn b hb, h.nested⟩
    · refine List.pairwise_cons.2 ⟨fun b hb e => ?_, h.oneEach⟩
      by_cases hpp : p = .pools
      · rw [hp, hpp]
      · exact absurd (e.symm.trans hp) (h.none hpp b hb)
    · by_cases hpp : p = .framer
      · exact absurd (hp.trans hpp) (hn a List.mem_cons_self)
      · exact State.FramerOk.congr (.suspend u a) (h.framer hpp fun b hb => hn b (List.mem_cons_of_mem _ hb))
    · rcases List.suffix_cons_iff.1 hs with e | e
      · cases e; exact State.Framing.congr (.suspend u a) (hbf (hp.symm.trans ha) _ _ hb)
      · exact State.Framing.congr (.suspend u a) (h.framing a' b e ha)
    · by_cases hpp : p = .mux
      · exact absurd (hp.trans hpp) (hn a List.mem_cons_self)
      · exact State.MuxOk.congr (.suspend u a) (h.mux hpp fun b hb => hn b (List.mem_cons_of_mem _ hb))
    · rcases List.suffix_cons_iff.1 hs with e | e
      · cases e; exact State.Muxing.congr (.suspend u a) (hbm (hp.symm.trans ha) _ _ hb)
      · exact State.Muxing.congr (.suspend u a) (h.muxing a' b e ha)

/-! The platform -/

/-- A state with nothing of unit `p` in progress. -/
theorem State.Inv.except {s : State} {p : Part} (h : s.Inv) (hh : s.halted = false) (hn : p ≠ .pools → s.NoneOf p) :
    s.InvBut p :=
  ⟨h.memory, h.latch, h.random, h.nested, h.oneEach, hh, hn, fun _ => h.framer hh, h.framing hh, fun _ => h.mux hh,
    h.muxing hh⟩

/-- A change of neither the framer nor the multiplexer keeps the invariant. -/
theorem State.Inv.congr {s t : State} (h : s.Inv) (memory : t.MemoryWf) (latch : t.LatchOk)
    (random : t.rngReady = true → t.rsStarted = true) (stack : t.stack = s.stack) (halted : t.halted = s.halted)
    (f : FramerSeen s t) (m : MuxSeen s t) : t.Inv := by
  refine ⟨memory, latch, random, ?_, ?_, fun e hn => ?_, fun e a b hs ha => ?_, fun e hn => ?_, fun e a b hs ha => ?_⟩
  · unfold State.Nested; rw [stack, f.2]; exact h.nested
  · unfold State.OneEach; rw [stack]; exact h.oneEach
  · exact State.FramerOk.congr f (h.framer (halted ▸ e) (by unfold State.NoneOf at *; rw [stack] at hn; exact hn))
  · rw [f.2]; exact State.Framing.congr f (h.framing (halted ▸ e) a b (stack ▸ hs) ha)
  · exact State.MuxOk.congr m (h.mux (halted ▸ e) (by unfold State.NoneOf at *; rw [stack] at hn; exact hn))
  · rw [f.2]; exact State.Muxing.congr m (h.muxing (halted ▸ e) a b (stack ▸ hs) ha)

/-- A change of the platform's own flags and of the inputs keeps the invariant. -/
theorem State.Inv.inputs {s : State} (h : s.Inv) (ready : Bool) (hr : ready = true → s.rsStarted = true) (data : Byte)
    (script : List Byte) (sched : List Slot) (rngLine : List Byte) :
    State.Inv { s with rngReady := ready, rngData := data, script := script, sched := sched, rngLine := rngLine } :=
  h.congr (h.memory.congr rfl rfl rfl rfl rfl) ⟨h.latch.1, h.latch.2⟩ hr rfl rfl
    ⟨⟨rfl, rfl, rfl, rfl, rfl, rfl, rfl⟩, rfl⟩ ⟨⟨rfl, rfl, rfl, rfl, rfl⟩, rfl, rfl, rfl⟩

/-- With a request outstanding no operation of the framer is in progress (10_state R29). -/
theorem State.Inv.none_of_request {s : State} (h : s.Inv) (hh : s.halted = false) (hv : s.rxReqValid = true) :
    s.NoneOf .framer := by
  intro a ha hp
  obtain ⟨l1, l2, e⟩ := List.append_of_mem ha
  exact absurd (hv.symm.trans (h.framing hh a l2 ⟨l1, e.symm⟩ hp).1) (by decide)

/-- With a transmission in flight, or its event pending, no operation of the multiplexer is in progress (43 R189). -/
theorem State.Inv.none_of_transmission {s : State} (h : s.Inv) (hh : s.halted = false)
    (hv : s.txFlight = true ∨ s.txDone = true) : s.NoneOf .mux := by
  intro a ha hp
  obtain ⟨l1, l2, e⟩ := List.append_of_mem ha
  have := (h.muxing hh a l2 ⟨l1, e.symm⟩ hp).1
  rw [this.1, this.2] at hv
  simp at hv

theorem State.noneOf_of_nil {s : State} (h : s.stack = []) (p : Part) : s.NoneOf p := by
  unfold State.NoneOf
  rw [h]
  simp

/-- Every event of the platform keeps the invariant. -/
theorem State.Inv.event {s t : State} (hi : s.Inv) (h : EventDid s t) : t.Inv := by
  cases h with
  | quiet => exact hi
  | stored b line running valid room fits next =>
    have hn := State.Inv.none_of_request hi running valid
    have m : MuxSeen s (State.fill { s with rxLine := line } [b]) := ⟨⟨rfl, rfl, rfl, rfl, rfl⟩, rfl, rfl, rfl⟩
    have fill : FramerSeen s { s with rxLine := line } := ⟨⟨rfl, rfl, rfl, rfl, rfl, rfl, rfl⟩, rfl⟩
    have memory : State.MemoryWf { s with rxLine := line } := hi.memory.congr rfl rfl rfl rfl rfl
    refine ⟨memory.fill fits, ⟨hi.latch.1, hi.latch.2⟩, hi.random, hi.nested, hi.oneEach, fun _ _ => ?_,
      fun _ a b hs ha => absurd ha (hn a (mem_of_cons_suffix hs)), fun h hn => State.MuxOk.congr m (hi.mux h hn),
      fun h a b hs ha => State.Muxing.congr m (hi.muxing h a b hs ha)⟩
    exact State.FramerOk.fill (State.FramerOk.congr fill (hi.framer running hn)) hi.memory.rxbuf valid room
  | sent flight =>
    have f : FramerSeen s { s with txFlight := false, txDone := true } := ⟨⟨rfl, rfl, rfl, rfl, rfl, rfl, rfl⟩, rfl⟩
    refine ⟨hi.memory.congr rfl rfl rfl rfl rfl, ⟨hi.latch.1, hi.latch.2⟩, hi.random, hi.nested, hi.oneEach,
      fun h hn => State.FramerOk.congr f (hi.framer h hn), fun h a b hs ha => State.Framing.congr f (hi.framing h a b hs ha),
      fun h hn => ?_, fun h a b hs ha => absurd ha (hi.none_of_transmission h (.inl flight) a (mem_of_cons_suffix hs))⟩
    have hm := hi.mux h hn
    exact ⟨⟨fun _ => .inr rfl, fun _ => hm.busy.2 (.inl flight)⟩, (fun h => by cases h.1), hm.length, hm.typeByte⟩
  | drawn b line started ready next => exact hi.inputs true (fun _ => started) b s.script s.sched line
  | failed info =>
    cases hh : s.halted
    · exact State.inv_raiseFatal hi.memory hi.random hi.nested hi.oneEach hh _ _
    · rw [State.raiseFatal_of_halted hh]; exact hi

/-- The platform's part of a step keeps the invariant. -/
theorem State.Inv.platform {s u : State} (hi : s.Inv) (h : PlatformDid { s with sched := s.sched.tail } u) : u.Inv :=
  h.keeps State.Inv.event (hi.inputs s.rngReady hi.random s.rngData s.script s.sched.tail s.rngLine)

/-- The platform accesses no byte that does not exist. -/
theorem platformAll_ne_fault {es : List PlatEvent} {s : State} {f : Fault} (hi : s.Inv) : platformAll es s ≠ .fault f := by
  induction es generalizing s with
  | nil => simp [platformAll]
  | cons e es ih =>
    unfold platformAll
    split
    · rename_i t ht; exact ih (hi.event (State.platform_eq_next ht))
    · rename_i g hg
      exact absurd hg (State.platform_ne_fault fun hh hv => (hi.framer hh (hi.none_of_request hh hv)).fits hv)
    · simp

/-! Nesting (20_memory R62, 60 R214) -/

/-- The activation on top taken off the stack. -/
theorem State.Inv.except_pop {s : State} {a : Activation} {below : List Activation} (hi : s.Inv) (hh : s.halted = false)
    (hs : s.stack = a :: below) : State.InvBut (Call.part a.call) { s with stack := below } := by
  have hnest := hi.nested
  have hone := hi.oneEach
  unfold State.Nested at hnest
  unfold State.OneEach at hone
  rw [hs] at hnest hone
  have h1 := List.pairwise_cons.1 hnest
  have h2 := List.pairwise_cons.1 hone
  have f : FramerSeen s { s with stack := below } := ⟨⟨rfl, rfl, rfl, rfl, rfl, rfl, rfl⟩, rfl⟩
  have m : MuxSeen s { s with stack := below } := ⟨⟨rfl, rfl, rfl, rfl, rfl⟩, rfl, rfl, rfl⟩
  refine ⟨hi.memory.congr rfl rfl rfl rfl rfl, ⟨hi.latch.1, hi.latch.2⟩, hi.random, h1.2, h2.2, hh,
    fun hp b hb e => hp (h2.1 b hb e.symm), fun hp hn => ?_, fun x b hx hp => ?_, fun hp hn => ?_, fun x b hx hp => ?_⟩
  · refine State.FramerOk.congr f (hi.framer hh fun b hb => ?_)
    rw [hs] at hb
    rcases List.mem_cons.1 hb with rfl | hb
    · exact hp
    · exact hn b hb
  · exact State.Framing.congr f (hi.framing hh x b (hs ▸ hx.trans (List.suffix_cons _ _)) hp)
  · refine State.MuxOk.congr m (hi.mux hh fun b hb => ?_)
    rw [hs] at hb
    rcases List.mem_cons.1 hb with rfl | hb
    · exact hp
    · exact hn b hb
  · exact State.Muxing.congr m (hi.muxing hh x b (hs ▸ hx.trans (List.suffix_cons _ _)) hp)

/-- The activation on top is above those below it. -/
theorem State.Inv.nested_pop {s : State} {a : Activation} {below : List Activation} (hi : s.Inv)
    (hs : s.stack = a :: below) : State.Above { s with stack := below } a.ctx := by
  have := hi.nested
  unfold State.Nested at this
  rw [hs] at this
  exact (List.pairwise_cons.1 this).1

/-- An interrupt can preempt what is strictly less urgent (00_scope R6). -/
theorem Config.canPreempt_iff (c : Config) {y x : Ctx} (hy : y ≠ .main) :
    Config.canPreempt c y x = true ↔ Config.prio c y < Config.prio c x := by
  obtain ⟨-, -, -, -, -, h1, h2, h3⟩ := c.admissible
  unfold Config.canPreempt
  cases x <;> cases y <;> simp_all [Config.prio] <;> exact decide_eq_true_iff

/-- What can preempt the running context is above everything in progress. -/
theorem State.Inv.nested_push {s : State} (hi : s.Inv) {y : Ctx} (hy : y ≠ .main)
    (hc : Config.canPreempt s.cfg y s.runningCtx = true) : s.Above y := by
  intro b hb
  refine ⟨hy, ?_⟩
  cases hs : s.stack with
  | nil => rw [hs] at hb; cases hb
  | cons a below =>
    have hr : s.runningCtx = a.ctx := by simp only [State.runningCtx, hs]
    rw [hr] at hc
    rw [hs] at hb
    rcases List.mem_cons.1 hb with rfl | hb
    · exact hc
    · obtain ⟨h1, h2⟩ := State.Inv.nested_pop hi hs b hb
      rw [Config.canPreempt_iff _ hy] at *
      rw [Config.canPreempt_iff _ h1] at h2
      exact Nat.lt_trans hc h2

/-! What runs keeps the invariant, and accesses no byte that does not exist -/

/-- An outcome that is no fault, and where it is a next state, one that meets the invariant. -/
def KeepsInv (o : Out) : Prop := (∀ f, o ≠ .fault f) ∧ ∀ t, o = .next t → t.Inv

theorem State.InvBut.framer_runFor {s : State} {q : Prog} {n : Nat} {a : Activation} (h : s.InvBut .framer)
    (hn : s.Above a.ctx) (hb : s.FramerBusy q) (hw : q.Within .framer) (hp : Call.part a.call = .framer)
    (hr : a.rest s.cfg s.stack = q) : KeepsInv (Prog.runFor n a q s) := by
  obtain ⟨h1, h2⟩ := Way.framer.runFor (n := n) hb hw hp hr
  refine ⟨h1, fun t ht => ?_⟩
  obtain ⟨u, hm, hf⟩ := h2 t ht
  have un := hm.unmoved
  exact (h.made hm).ended (hn.unmoved un) (fun _ _ h => h) (fun e => by cases e) (fun _ _ _ h => h) (fun e => by cases e) hf

theorem State.InvBut.mux_runFor {s : State} {q : Prog} {n : Nat} {a : Activation} (h : s.InvBut .mux)
    (hn : s.Above a.ctx) (hb : s.MuxBusy q) (hw : q.Within .mux) (hp : Call.part a.call = .mux)
    (hr : a.rest s.cfg s.stack = q) : KeepsInv (Prog.runFor n a q s) := by
  obtain ⟨h1, h2⟩ := Way.mux.runFor (n := n) hb hw hp hr
  refine ⟨h1, fun t ht => ?_⟩
  obtain ⟨u, hm, hf⟩ := h2 t ht
  have un := hm.unmoved
  exact (h.made hm).ended (hn.unmoved un) (fun e => by cases e) (fun _ _ h => h) (fun e => by cases e) (fun _ _ _ h => h) hf

theorem State.InvBut.pools_runFor {s : State} {q : Prog} {n : Nat} {a : Activation} (h : s.InvBut .pools)
    (hn : s.Above a.ctx) (hb : q.Total) (hw : q.Within .pools) (hp : Call.part a.call = .pools)
    (hr : a.rest s.cfg s.stack = q) : KeepsInv (Prog.runFor n a q s) := by
  obtain ⟨h1, h2⟩ := Way.pools.runFor (n := n) (s := s) hb hw hp hr
  refine ⟨h1, fun t ht => ?_⟩
  obtain ⟨u, hm, hf⟩ := h2 t ht
  have un := hm.unmoved
  exact (h.made hm).ended (hn.unmoved un) (fun e => by cases e) (fun e => by cases e) (fun e => by cases e) (fun e => by cases e) hf

theorem State.InvBut.framer_first {s t : State} {i : Instr} {m : Micro} {k : Val → Prog} {v : Val} {n : Nat} {c : Ctx}
    (hi : s.InvBut .framer) (hp : Instr.part i = .framer) (hn : s.Above c) (he : Instr.prog i (s.around c) = .act m k)
    (hm : s.perform m = .ok (v, t)) (hb : t.FramerBusy (k v)) :
    KeepsInv (Prog.runFor (n + 1) ⟨c, .op i, []⟩ (Instr.prog i (s.around c)) s) := by
  have hw := Prog.Within.instr i (s.around c)
  rw [he, hp] at hw
  have un := State.perform_unmoved hm
  rw [he, Prog.runFor_succ n _ k hm]
  refine State.InvBut.framer_runFor (hi.made (.step hw.1 hm (.refl _))) (hn.unmoved un) hb (hw.2 v) hp ?_
  have hx : Instr.prog i ⟨s.cfg, c, s.stack⟩ = .act m k := he
  simp only [Activation.rest, Call.prog, un.cfg, un.stack, hx, List.nil_append, Prog.after]

theorem State.InvBut.mux_first {s t : State} {i : Instr} {m : Micro} {k : Val → Prog} {v : Val} {n : Nat} {c : Ctx}
    (hi : s.InvBut .mux) (hp : Instr.part i = .mux) (hn : s.Above c) (he : Instr.prog i (s.around c) = .act m k)
    (hm : s.perform m = .ok (v, t)) (hb : t.MuxBusy (k v)) :
    KeepsInv (Prog.runFor (n + 1) ⟨c, .op i, []⟩ (Instr.prog i (s.around c)) s) := by
  have hw := Prog.Within.instr i (s.around c)
  rw [he, hp] at hw
  have un := State.perform_unmoved hm
  rw [he, Prog.runFor_succ n _ k hm]
  refine State.InvBut.mux_runFor (hi.made (.step hw.1 hm (.refl _))) (hn.unmoved un) hb (hw.2 v) hp ?_
  have hx : Instr.prog i ⟨s.cfg, c, s.stack⟩ = .act m k := he
  simp only [Activation.rest, Call.prog, un.cfg, un.stack, hx, List.nil_append, Prog.after]

/-- An operation starts, and runs to its end or to where it is cut. -/
theorem State.Inv.starts {s : State} {i : Instr} {n : Nat} {c : Ctx} (hi : s.Inv) (hh : s.halted = false)
    (ho : i.isOperation = true) (hn : s.Above c) (he : Instr.part i ≠ .pools → s.NoneOf (Instr.part i)) :
    KeepsInv (Prog.runFor (n + 1) ⟨c, .op i, []⟩ (Instr.prog i (s.around c)) s) := by
  have hex := State.Inv.except hi hh he
  by_cases hpp : Instr.part i = .pools
  · rw [hpp] at hex
    exact State.InvBut.pools_runFor hex hn (Prog.Total.instr hpp _) (hpp ▸ Prog.Within.instr i _) hpp
      (by rw [Activation.rest, Prog.after_nil]; rfl)
  · have hno := he hpp
    cases i with
    | rxStart =>
      obtain ⟨v, t, hp, hb⟩ := s.begin_onWay
      exact State.InvBut.framer_first hex rfl hn rfl hp hb
    | rxComplete bs =>
      obtain ⟨v, t, hp, hb⟩ := State.completeRequest_onWay (hi.framer hh hno) hi.memory.rxbuf bs (a := s.around c) rfl
      exact State.InvBut.framer_first hex rfl hn rfl hp hb
    | rxByte b =>
      obtain ⟨v, t, hp, hb⟩ := State.storeByte_onWay (hi.framer hh hno) hi.memory.rxbuf b (a := s.around c) rfl
      exact State.InvBut.framer_first hex rfl hn rfl hp hb
    | txPoll =>
      obtain ⟨k, he, hb⟩ := State.readTxIdle_onWay (hi.mux hh hno) hi.memory.txbuf (a := s.around c) rfl
      exact State.InvBut.mux_first hex rfl hn he rfl hb
    | txComplete =>
      obtain ⟨k, he, hb⟩ := State.takeTxEvent_onWay s (s.around c)
      exact State.InvBut.mux_first hex rfl hn he rfl hb
    | _ => first | exact absurd rfl hpp | cases ho

/-- The activation on top goes on, to its end or to where it is cut. -/
theorem State.Inv.goesOn {s : State} {a : Activation} {below : List Activation} {n : Nat} (hi : s.Inv)
    (hh : s.halted = false) (hs : s.stack = a :: below) :
    KeepsInv (Prog.runFor (n + 1) a (a.rest s.cfg below) { s with stack := below }) := by
  have hex := State.Inv.except_pop hi hh hs
  have hn := State.Inv.nested_pop hi hs
  have hw := Prog.Within.rest a s.cfg below
  cases hp : Call.part a.call with
  | framer =>
    rw [hp] at hex hw
    have hb := hi.framing hh a below (by rw [hs]) hp
    have f : FramerSeen s { s with stack := below } := ⟨⟨rfl, rfl, rfl, rfl, rfl, rfl, rfl⟩, rfl⟩
    exact State.InvBut.framer_runFor hex hn (State.FramerBusy.congr f hb.2) hw hp rfl
  | mux =>
    rw [hp] at hex hw
    have hb := hi.muxing hh a below (by rw [hs]) hp
    have m : MuxSeen s { s with stack := below } := ⟨⟨rfl, rfl, rfl, rfl, rfl⟩, rfl, rfl, rfl⟩
    exact State.InvBut.mux_runFor hex hn (State.MuxBusy.congr m hb.2) hw hp rfl
  | pools =>
    rw [hp] at hex hw
    refine State.InvBut.pools_runFor hex hn ?_ hw hp rfl
    refine Prog.Obeys.after (x := ⟨Micro.Total, fun _ => True, True⟩) ?_ _
    cases hc : a.call with
    | op i => rw [hc] at hp; exact Prog.Total.instr hp _
    | awaiting ty => rw [hc] at hp; cases hp
    | ingest ty st cs => rw [hc] at hp; cases hp

end Sys2Proof.Machine
end

