-- ==== Sys2Proof/Laws/PerInstr.lean ====
section
/-! SUPPORT. Laws/PerInstr.lean: the shape of every instruction's encoding, one lemma per constructor. -/

namespace Sys2Proof.Laws

/-- A framer transition is encoded in the bytes its receive state has read from offset 0 on: one for a type byte, four for
a Command header, five for an ACL-Data header, none for a payload (30_encoding section 4). An operation is one of the
sixteen op-select bytes and then its operands, at most two bytes, or the bytes of the request for `RX.COMPLETE`
(30_encoding R96). -/
def EncodingShape.Statement (i : Instr) : Prop :=
  match i.source with
  | .framer .awaitingType => (encode i).length = 1
  | .framer .awaitingCmdHeader => (encode i).length = 1 + cmdHdr
  | .framer .awaitingAclHeader => (encode i).length = 1 + aclHdr
  | .framer .awaitingPayload => (encode i).length = 0
  | .script n => ∃ op operands, encode i = op :: operands ∧ isOpSelect op = true ∧
      (operands.length ≤ 2 ∨ operands.length = n)

theorem EncodingShape.rxTypeCmd : EncodingShape.Statement .rxTypeCmd := rfl
theorem EncodingShape.rxTypeAcl : EncodingShape.Statement .rxTypeAcl := rfl
theorem EncodingShape.rxTypeBad (t : Byte) : EncodingShape.Statement (.rxTypeBad t) := rfl
theorem EncodingShape.rxCmdhdrZ (g : Byte) (o : Byte) : EncodingShape.Statement (.rxCmdhdrZ g o) := rfl
theorem EncodingShape.rxCmdhdrNz (g : Byte) (o : Byte) (l : Byte) : EncodingShape.Statement (.rxCmdhdrNz g o l) := rfl
theorem EncodingShape.rxAclhdrZ (h0 : Byte) (h1 : Byte) : EncodingShape.Statement (.rxAclhdrZ h0 h1) := rfl
theorem EncodingShape.rxAclhdrNz (h0 : Byte) (h1 : Byte) (l : Byte) (m : Byte) : EncodingShape.Statement (.rxAclhdrNz h0 h1 l m) := rfl
theorem EncodingShape.rxPayload : EncodingShape.Statement .rxPayload := rfl
theorem EncodingShape.ringInit (p : PoolId) : EncodingShape.Statement (.ringInit p) := ⟨_, _, rfl, rfl, .inl (by simp)⟩
theorem EncodingShape.ringIsfull (p : PoolId) : EncodingShape.Statement (.ringIsfull p) := ⟨_, _, rfl, rfl, .inl (by simp)⟩
theorem EncodingShape.ringCount (p : PoolId) : EncodingShape.Statement (.ringCount p) := ⟨_, _, rfl, rfl, .inl (by simp)⟩
theorem EncodingShape.ringEnq (p : PoolId) (b : Byte) : EncodingShape.Statement (.ringEnq p b) := ⟨_, _, rfl, rfl, .inl (by simp)⟩
theorem EncodingShape.ringDeq (p : PoolId) : EncodingShape.Statement (.ringDeq p) := ⟨_, _, rfl, rfl, .inl (by simp)⟩
theorem EncodingShape.ringTakev (p : PoolId) (n : Nat) : EncodingShape.Statement (.ringTakev p n) := ⟨_, _, rfl, rfl, .inl (by simp)⟩
theorem EncodingShape.rsInit : EncodingShape.Statement .rsInit := ⟨_, _, rfl, rfl, .inl (by simp)⟩
theorem EncodingShape.rsProduce (b : Byte) : EncodingShape.Statement (.rsProduce b) := ⟨_, _, rfl, rfl, .inl (by simp)⟩
theorem EncodingShape.rsGethi (n : Nat) : EncodingShape.Statement (.rsGethi n) := ⟨_, _, rfl, rfl, .inl (by simp)⟩
theorem EncodingShape.rsGetlo (n : Nat) : EncodingShape.Statement (.rsGetlo n) := ⟨_, _, rfl, rfl, .inl (by simp)⟩
theorem EncodingShape.rsGetlob (n : Nat) : EncodingShape.Statement (.rsGetlob n) := ⟨_, _, rfl, rfl, .inl (by simp)⟩
theorem EncodingShape.rxStart : EncodingShape.Statement .rxStart := ⟨_, _, rfl, rfl, .inl (by simp)⟩
theorem EncodingShape.rxComplete (bs : List Byte) : EncodingShape.Statement (.rxComplete bs) := ⟨_, _, rfl, rfl, .inr rfl⟩
theorem EncodingShape.rxByte (b : Byte) : EncodingShape.Statement (.rxByte b) := ⟨_, _, rfl, rfl, .inl (by simp)⟩
theorem EncodingShape.txPoll : EncodingShape.Statement .txPoll := ⟨_, _, rfl, rfl, .inl (by simp)⟩
theorem EncodingShape.txComplete : EncodingShape.Statement .txComplete := ⟨_, _, rfl, rfl, .inl (by simp)⟩

end Sys2Proof.Laws
end

