-- ==== Sys2Proof/Tests/Slice0.lean ====
section
/-! SUPPORT. Tests/Slice0.lean: the WellFormed smoke test, words written out from the encoding tables, one or two steps per
operation with results taken from spec/95_test_vectors.md, and a witness for the hypotheses of every statement. -/

namespace Sys2Proof.Tests

open Sys2Proof Sys2Proof.Machine

/-- One admissible configuration: sizes and priorities of 95_test_vectors P5 and P6. -/
def cfg16 : Config :=
  { rxbufSize := 16, txbufSize := 8, prioRx := 1, prioTx := 3, prioRng := 2, prioMain := 4, admissible := by decide }

/-- Right after reset, with that configuration. -/
def t0 : State := { State.reset with cfg := cfg16 }

/-- The state an operation leads to (`t0` where it stops). -/
def next : Out → State
  | .next t => t
  | _ => t0

/-- An operation stops with this refusal. -/
def refuses (r : Refusal) : Out → Bool
  | .refused q => q == r
  | _ => false

/-- A pool with these indices and these bytes from slot `a` on. -/
def poolAt (w r : Fin ringS) (a : Nat) (bs : List Byte) : RingPool := { w := w, r := r, slots := Memory.writeN [] a bs }

/-- A state with this pool `high` and this pool `low`. -/
def pools (h l : RingPool) : State := { t0 with high := h, low := l }

/-- A state with a request outstanding, `got` bytes of it stored, and these bytes in `RXBUF`. -/
def rxAt (x : RxState) (off len got : Nat) (bytes : List Byte) (answers : List IngestAnswer := [⟨[], 0⟩]) : State :=
  { t0 with
    rxState := x, rxReqValid := true, rxReqOff := off, rxReqLen := len, rxGot := got, rxbuf := Memory.writeN [] 0 bytes
    ctlIngest := answers }

/-- A state of the multiplexer, with a transmission in flight unless it is idle, and the controller's next answers. -/
def txAt (idle lastEvt : Bool) (es ds : List PullAnswer) : State :=
  { t0 with txIdle := idle, txFlight := !idle, txLastEvt := lastEvt, ctlEvents := es, ctlDatas := ds }

/-- After reset with the generator started and the RNG interrupt the most urgent. -/
def urgentRng : State :=
  { State.reset with
    cfg := { rxbufSize := 16, txbufSize := 8, prioRx := 2, prioTx := 3, prioRng := 1, prioMain := 4, admissible := by decide }
    rsStarted := true }

/-- Ingest code of a Command frame, with these getters to call and these answers had. -/
def inIngest (calls : List GetCall) (seen : List Val) : Activation := ⟨.irqRx, .ingest tCmd 0 calls, seen⟩

/-- A Command frame that ends at the last byte of `RXBUF`, with the controller's answers and the pools. -/
def cmdFrame (answers : List IngestAnswer) (h l : RingPool) : State :=
  { rxAt .awaitingPayload 4 12 12 [0x01#8, 0x03#8, 0x0C#8, 0x0C#8] answers with high := h, low := l }

/-- An ACL-Data frame that ends at the last byte of `RXBUF`. -/
def aclFrame (answers : List IngestAnswer) : State :=
  rxAt .awaitingPayload 5 11 11 [0x02#8, 0x10#8, 0x00#8, 0x0B#8, 0x00#8] answers

/-- What the Command frame is delivered as. -/
def cmdPassed : Delivery := ⟨.command, [0x03#8, 0x0C#8, 0x0C#8] ++ List.replicate 12 0#8⟩

/-- What the ACL-Data frame is delivered as. -/
def aclPassed : Delivery := ⟨.data, [0x10#8, 0x00#8, 0x0B#8, 0x00#8] ++ List.replicate 11 0#8⟩

theorem holds_cmd (s : State) (h : s.rxbuf = Memory.writeN [] 0 [0x01#8, 0x03#8, 0x0C#8, 0x0C#8]) (hc : s.cfg = cfg16) :
    s.Holds tCmd cmdPassed := by
  unfold State.Holds
  rw [h, hc]
  exact ⟨rfl, .inl ⟨rfl, by decide, rfl⟩⟩

theorem holds_acl (s : State) (h : s.rxbuf = Memory.writeN [] 0 [0x02#8, 0x10#8, 0x00#8, 0x0B#8, 0x00#8])
    (hc : s.cfg = cfg16) : s.Holds tAcl aclPassed := by
  unfold State.Holds
  rw [h, hc]
  exact ⟨rfl, .inr ⟨rfl, by decide, rfl⟩⟩

/-- A full pool at indices (11, 12). -/
def fullPool : RingPool := poolAt 11 12 0 []

/-! ## WellFormed refuses an ill-formed term for each of its checks -/

theorem test_illformed_typeBad_command : (Instr.rxTypeBad 0x01#8).wellFormed = false := by decide
theorem test_illformed_typeBad_aclData : (Instr.rxTypeBad 0x02#8).wellFormed = false := by decide
theorem test_illformed_cmdhdrNz_zero : (Instr.rxCmdhdrNz 0x20#8 0x0C#8 0x00#8).wellFormed = false := by decide
theorem test_illformed_aclhdrNz_zero : (Instr.rxAclhdrNz 0x10#8 0x00#8 0x00#8 0x00#8).wellFormed = false := by decide
theorem test_illformed_takev_wide : (Instr.ringTakev .low 256).wellFormed = false := by decide
theorem test_illformed_gethi_wide : (Instr.rsGethi 256).wellFormed = false := by decide
theorem test_illformed_getlo_wide : (Instr.rsGetlo 256).wellFormed = false := by decide
theorem test_illformed_getlob_wide : (Instr.rsGetlob 256).wellFormed = false := by decide
theorem test_wellformed_kept :
    (Instr.rxTypeBad 0x04#8).wellFormed = true ∧ (Instr.rxAclhdrNz 0x01#8 0x20#8 0x00#8 0x01#8).wellFormed = true ∧
    (Instr.ringTakev .low 255).wellFormed = true := by decide

/-! ## Every constructor, from a word written out from its encoding (30_encoding sections 4 and 6) -/

theorem test_decode_rxTypeCmd : decode (.framer .awaitingType) [0b00000001#8] = .ok (.rxTypeCmd, []) := rfl
theorem test_decode_rxTypeAcl : decode (.framer .awaitingType) [0b00000010#8] = .ok (.rxTypeAcl, []) := rfl
theorem test_decode_rxTypeBad :
    decode (.framer .awaitingType) [0b10000001#8] = .ok (.rxTypeBad 0x81#8, []) := rfl
theorem test_decode_rxCmdhdrZ :
    decode (.framer .awaitingCmdHeader) [0b00000001#8, 0x01#8, 0x03#8, 0b00000000#8] = .ok (.rxCmdhdrZ 0x01#8 0x03#8, []) := rfl
theorem test_decode_rxCmdhdrNz :
    decode (.framer .awaitingCmdHeader) [0b00000001#8, 0x20#8, 0x0C#8, 0b11111111#8] = .ok (.rxCmdhdrNz 0x20#8 0x0C#8 0xFF#8, []) := rfl
theorem test_decode_rxAclhdrZ :
    decode (.framer .awaitingAclHeader) [0b00000010#8, 0x10#8, 0x00#8, 0b00000000#8, 0b00000000#8] = .ok (.rxAclhdrZ 0x10#8 0x00#8, []) := rfl
theorem test_decode_rxAclhdrNz :
    decode (.framer .awaitingAclHeader) [0b00000010#8, 0x01#8, 0x20#8, 0b00000000#8, 0b00000001#8] = .ok (.rxAclhdrNz 0x01#8 0x20#8 0x00#8 0x01#8, []) := rfl
theorem test_decode_rxPayload : decode (.framer .awaitingPayload) [] = .ok (.rxPayload, []) := rfl
theorem test_decode_ringInit : decode (.script 0) [0b00010000#8, 0b00000000#8] = .ok (.ringInit .high, []) := rfl
theorem test_decode_ringIsfull :
    decode (.script 0) [0b00010001#8, 0b00000001#8] = .ok (.ringIsfull .low, []) := rfl
theorem test_decode_ringCount :
    decode (.script 0) [0b00010010#8, 0b00000000#8] = .ok (.ringCount .high, []) := rfl
theorem test_decode_ringEnq :
    decode (.script 0) [0b00010011#8, 0b00000000#8, 0x41#8] = .ok (.ringEnq .high 0x41#8, []) := rfl
theorem test_decode_ringDeq : decode (.script 0) [0b00010100#8, 0b00000001#8] = .ok (.ringDeq .low, []) := rfl
theorem test_decode_ringTakev :
    decode (.script 0) [0b00010101#8, 0b00000000#8, 0b01000000#8] = .ok (.ringTakev .high 64, []) := rfl
theorem test_decode_rsInit : decode (.script 0) [0b00100000#8] = .ok (.rsInit, []) := rfl
theorem test_decode_rsProduce : decode (.script 0) [0b00100001#8, 0x5A#8] = .ok (.rsProduce 0x5A#8, []) := rfl
theorem test_decode_rsGethi : decode (.script 0) [0b00100010#8, 0b00000010#8] = .ok (.rsGethi 2, []) := rfl
theorem test_decode_rsGetlo : decode (.script 0) [0b00100011#8, 0b00000100#8] = .ok (.rsGetlo 4, []) := rfl
theorem test_decode_rsGetlob : decode (.script 0) [0b00100100#8, 0b00000010#8] = .ok (.rsGetlob 2, []) := rfl
theorem test_decode_rxStart : decode (.script 0) [0b00110000#8] = .ok (.rxStart, []) := rfl
theorem test_decode_rxComplete :
    decode (.script 3) [0b00110001#8, 0x01#8, 0x03#8, 0x00#8] = .ok (.rxComplete [0x01#8, 0x03#8, 0x00#8], []) := rfl
theorem test_decode_rxByte : decode (.script 0) [0b00110010#8, 0xAA#8] = .ok (.rxByte 0xAA#8, []) := rfl
theorem test_decode_txPoll : decode (.script 0) [0b01000000#8] = .ok (.txPoll, []) := rfl
theorem test_decode_txComplete : decode (.script 0) [0b01000001#8] = .ok (.txComplete, []) := rfl
theorem test_decode_unknown :
    decode (.script 0) [0x16#8] = .error (.unknownOpSelect 0x16#8) ∧
    decode (.script 0) [0x12#8, 0x02#8] = .error (.unknownPool 0x02#8) ∧ decode (.script 0) [0x21#8] = .error .missingOperand := ⟨rfl, rfl, rfl⟩
theorem test_table_words :
    decodeTableWord 8 0x01 = some .rxTypeCmd ∧ decodeTableWord 8 0x00 = some (.rxTypeBad 0x00#8) ∧
    decodeTableWord 32 0x01000000 = some (.rxCmdhdrZ 0#8 0#8) ∧ decodeTableWord 40 0x0200000001 = some (.rxAclhdrNz 0#8 0#8 0#8 1#8) ∧
    decodeTableWord 0 0 = some .rxPayload ∧ decodeTableWord 8 0x13 = some (.ringEnq .high 0#8) ∧
    decodeTableWord 8 0x31 = some (.rxComplete [0#8]) := by decide

/-! ## One step per operation; results of 95_test_vectors -/

/-- V1. -/
theorem test_ringInit :
    let t := next (exec (.ringInit .high) (pools (poolAt 7 3 3 [0xA1#8]) RingPool.reset))
    t.high = poolAt 0 0 3 [0xA1#8] := by decide
/-- Section 2.1, indices (11, 12). -/
theorem test_ringIsfull :
    let t := next (exec (.ringIsfull .low) (pools RingPool.reset fullPool))
    t.result = .bool true := by decide
/-- Section 2.1, indices (10, 12). -/
theorem test_ringIsfull_one_free :
    let t := next (exec (.ringIsfull .high) (pools (poolAt 10 12 0 []) RingPool.reset))
    t.result = .bool false := by decide
/-- Section 2.1, indices (3, 60). -/
theorem test_ringCount_wraps :
    let t := next (exec (.ringCount .high) (pools (poolAt 3 60 0 []) RingPool.reset))
    t.result = .count 8 := by decide
/-- Section 2.1, indices (64, 64). -/
theorem test_ringCount_equal :
    let t := next (exec (.ringCount .low) (pools RingPool.reset (poolAt 64 64 0 [])))
    t.result = .count 0 := by decide
/-- V2. -/
theorem test_ringEnq_wraps :
    let t := next (exec (.ringEnq .high 0x5A#8) (pools (poolAt 64 10 0 []) RingPool.reset))
    t.high = poolAt 0 10 64 [0x5A#8] ∧ t.high.count = 55 ∧ t.result = .ok := by decide
/-- V4. -/
theorem test_ringEnq_full :
    let t := next (exec (.ringEnq .low 0x77#8) (pools RingPool.reset fullPool))
    t.low = fullPool ∧ t.result = .capacity := by decide
/-- V5. -/
theorem test_ringDeq_wraps :
    let t := next (exec (.ringDeq .high) (pools (poolAt 2 64 64 [0x11#8]) RingPool.reset))
    t.high = poolAt 2 0 64 [0x11#8] ∧ t.result = .byte 0x11#8 := by decide
/-- V6. -/
theorem test_ringDeq_empty :
    let t := next (exec (.ringDeq .low) (pools RingPool.reset (poolAt 7 7 0 [])))
    t.low = poolAt 7 7 0 [] ∧ t.result = .underflow := by decide
/-- V9. -/
theorem test_ringTakev_wraps :
    let t := next (exec (.ringTakev .low 4) (pools RingPool.reset { w := 3, r := 63, slots := Memory.writeN (Memory.writeN [] 63 [0xA1#8, 0xA2#8]) 0 [0xA3#8, 0xA4#8, 0xA5#8] }))
    t.result = .taken [0xA1#8, 0xA2#8, 0xA3#8, 0xA4#8] ∧ t.low.r = 2 ∧ t.low.count = 1 := by decide
/-- V8. -/
theorem test_ringTakev_short :
    let t := next (exec (.ringTakev .high 65) (pools fullPool RingPool.reset))
    t.high = fullPool ∧ t.result = .notTaken := by decide
/-- V20. -/
theorem test_rsInit :
    let t := next (exec (.rsInit) (pools fullPool (poolAt 3 1 0 [])))
    t.high.count = 0 ∧ t.low.count = 0 ∧ t.high.w = 0 ∧ t.low.r = 0 ∧ t.rsStarted = true := by decide
/-- V22. -/
theorem test_rsProduce_low :
    let t := next (exec (.rsProduce 0x7E#8) (pools fullPool (poolAt 10 0 0 [])))
    t.high = fullPool ∧ t.low = poolAt 11 0 10 [0x7E#8] := by decide
/-- V23. -/
theorem test_rsProduce_dropped :
    let t := next (exec (.rsProduce 0x7E#8) (pools fullPool fullPool))
    t.high = fullPool ∧ t.low = fullPool ∧ t.halted = false := by decide
/-- P6 step 6. -/
theorem test_rsGethi :
    let t := next (exec (.rsGethi 2) (pools (poolAt 2 0 0 [0x5A#8, 0x5B#8]) fullPool))
    t.result = .taken [0x5A#8, 0x5B#8] ∧ t.high.count = 0 ∧ t.low = fullPool := by decide
/-- V25. -/
theorem test_rsGethi_short :
    let t := next (exec (.rsGethi 8) (pools (poolAt 5 0 0 []) fullPool))
    t.result = .notTaken ∧ t.high.count = 5 := by decide
/-- V27: the other pool does not serve. -/
theorem test_rsGetlo :
    let t := next (exec (.rsGetlo 1) (pools fullPool RingPool.reset))
    t.result = .notTaken ∧ t.high = fullPool := by decide
/-- P5, pass 5. -/
theorem test_rsGetlob :
    let t := next (exec (.rsGetlob 2) (pools fullPool (poolAt 2 0 0 [0xB3#8, 0xB4#8])))
    t.result = .taken [0xB3#8, 0xB4#8] ∧ t.low.count = 0 ∧ t.stack = [] := by decide
/-- P5, pass 3. -/
theorem test_rsGetlob_pumps :
    let t := next (exec (.rsGetlob 2) ({ pools fullPool RingPool.reset with ctx := .irqRx, rngReady := true, rngData := 0xB3#8, rsStarted := true }))
    t.stack = [⟨.irqRx, .op (.rsGetlob 2), []⟩] ∧ t.rngReady = false ∧ t.low = poolAt 1 0 0 [0xB3#8] := by decide
/-- Section 2.4. -/
theorem test_rxTypeCmd :
    let t := next (exec (.rxTypeCmd) (rxAt .awaitingType 0 1 1 [0x01#8]))
    t.rxState = .awaitingCmdHeader ∧ t.rxReqOff = 1 ∧ t.rxReqLen = 3 ∧ t.rxGot = 0 := by decide
/-- Section 2.4. -/
theorem test_rxTypeAcl :
    let t := next (exec (.rxTypeAcl) (rxAt .awaitingType 0 1 1 [0x02#8]))
    t.rxState = .awaitingAclHeader ∧ t.rxReqOff = 1 ∧ t.rxReqLen = 4 ∧ t.rxGot = 0 := by decide
/-- Section 2.4. -/
theorem test_rxTypeBad :
    let t := next (exec (.rxTypeBad 0x81#8) (rxAt .awaitingType 0 1 1 [0x81#8]))
    t.halted = true ∧ t.faultCode = 1 ∧ t.faultInfo = 0x81 ∧ t.rxState = .awaitingType := by decide
/-- S4. -/
theorem test_rxCmdhdrZ :
    let t := next (exec (.rxCmdhdrZ 0x01#8 0x03#8) (rxAt .awaitingCmdHeader 1 3 3 [0x01#8, 0x01#8, 0x03#8, 0x00#8]))
    t.delivered = [⟨.command, [0x01#8, 0x03#8, 0x00#8]⟩] ∧ t.rxState = .awaitingType ∧ t.rxReqLen = 1 := by decide
/-- V51. -/
theorem test_rxCmdhdrZ_rejected :
    let t := next (exec (.rxCmdhdrZ 0x01#8 0x03#8) (rxAt .awaitingCmdHeader 1 3 3 [0x01#8, 0x01#8, 0x03#8, 0x00#8] [⟨[], 1⟩]))
    t.delivered.length = 1 ∧ t.faultCode = 2 ∧ t.faultInfo = 0x01 ∧ t.rxState = .awaitingCmdHeader := by decide
/-- R162 at the boundary, as V42: the payload ends at the last byte of the buffer. -/
theorem test_rxCmdhdrNz :
    let t := next (exec (.rxCmdhdrNz 0x03#8 0x0C#8 0x0C#8) (rxAt .awaitingCmdHeader 1 3 3 [0x01#8, 0x03#8, 0x0C#8, 0x0C#8]))
    t.rxState = .awaitingPayload ∧ t.rxReqOff = 4 ∧ t.rxReqLen = 12 := by decide
/-- As V43. -/
theorem test_rxCmdhdrNz_over :
    let t := next (exec (.rxCmdhdrNz 0x00#8 0x00#8 0x0D#8) (rxAt .awaitingCmdHeader 1 3 3 [0x01#8, 0x00#8, 0x00#8, 0x0D#8]))
    t.faultCode = 3 ∧ t.faultInfo = 13 ∧ t.rxState = .awaitingCmdHeader := by decide
/-- V45. -/
theorem test_rxAclhdrZ :
    let t := next (exec (.rxAclhdrZ 0x10#8 0x00#8) (rxAt .awaitingAclHeader 1 4 4 [0x02#8, 0x10#8, 0x00#8, 0x00#8, 0x00#8]))
    t.delivered = [⟨.data, [0x10#8, 0x00#8, 0x00#8, 0x00#8]⟩] ∧ t.rxState = .awaitingType := by decide
/-- V46. -/
theorem test_rxAclhdrNz :
    let t := next (exec (.rxAclhdrNz 0x01#8 0x20#8 0x01#8 0x00#8) (rxAt .awaitingAclHeader 1 4 4 [0x02#8, 0x01#8, 0x20#8, 0x01#8, 0x00#8]))
    t.rxState = .awaitingPayload ∧ t.rxReqOff = 5 ∧ t.rxReqLen = 1 := by decide
/-- V50: the length is little-endian. -/
theorem test_rxAclhdrNz_over :
    let t := next (exec (.rxAclhdrNz 0x00#8 0x00#8 0x34#8 0x12#8) (rxAt .awaitingAclHeader 1 4 4 [0x02#8, 0x00#8, 0x00#8, 0x34#8, 0x12#8]))
    t.faultCode = 3 ∧ t.faultInfo = 4660 := by decide
/-- S5. -/
theorem test_rxPayload :
    let t := next (exec (.rxPayload) (rxAt .awaitingPayload 5 2 2 [0x02#8, 0x10#8, 0x00#8, 0x02#8, 0x00#8, 0xAA#8, 0xBB#8]))
    t.delivered = [⟨.data, [0x10#8, 0x00#8, 0x02#8, 0x00#8, 0xAA#8, 0xBB#8]⟩] ∧ t.rxState = .awaitingType := by decide
/-- P2 step 1. -/
theorem test_rxStart :
    let t := next (exec (.rxStart) (t0))
    t.rxState = .awaitingType ∧ t.rxReqValid = true ∧ t.rxReqOff = 0 ∧ t.rxReqLen = 1 ∧ t.rxGot = 0 := by decide
/-- V44: the payload byte 0x04 is no type byte. -/
theorem test_rxComplete :
    let t := next (exec (.rxComplete [0x04#8]) (rxAt .awaitingPayload 4 1 0 [0x01#8, 0x03#8, 0x0C#8, 0x01#8]))
    t.delivered = [⟨.command, [0x03#8, 0x0C#8, 0x01#8, 0x04#8]⟩] ∧ t.halted = false ∧ t.rxState = .awaitingType := by decide
/-- Section 2.4. -/
theorem test_rxComplete_bad :
    let t := next (exec (.rxComplete [0x03#8]) (rxAt .awaitingType 0 1 0 []))
    t.halted = true ∧ t.faultInfo = 0x03 ∧ t.rxReqValid = false ∧ Memory.read t.rxbuf 0 = 0x03#8 := by decide
/-- V53, byte 3. -/
theorem test_rxByte :
    let t := next (exec (.rxByte 0x03#8) (rxAt .awaitingCmdHeader 1 3 1 [0x01#8, 0x01#8]))
    t.rxGot = 2 ∧ t.rxState = .awaitingCmdHeader ∧ Memory.read t.rxbuf 2 = 0x03#8 := by decide
/-- V53, byte 4. -/
theorem test_rxByte_last :
    let t := next (exec (.rxByte 0x00#8) (rxAt .awaitingCmdHeader 1 3 2 [0x01#8, 0x01#8, 0x03#8]))
    t.delivered = [⟨.command, [0x01#8, 0x03#8, 0x00#8]⟩] ∧ t.rxState = .awaitingType ∧ t.rxGot = 0 := by decide
/-- V62. -/
theorem test_txPoll_sends :
    let t := next (exec (.txPoll) (txAt true true [] [.frame 0x10#8 [0x00#8, 0x01#8, 0x00#8, 0x7F#8]]))
    t.sent = [[0x02#8, 0x10#8, 0x00#8, 0x01#8, 0x00#8, 0x7F#8]] ∧ t.txIdle = false ∧ t.txLastEvt = false ∧ t.txLen = 6 := by decide
/-- V66. -/
theorem test_txPoll_over :
    let t := next (exec (.txPoll) (txAt true false [.frame 0#8 [1#8, 2#8, 3#8, 4#8, 5#8, 6#8, 7#8]] []))
    t.faultCode = 4 ∧ t.faultInfo = 8 ∧ t.sent = [] ∧ t.txIdle = true ∧ t.txLastEvt = true := by decide
/-- V68. -/
theorem test_txComplete :
    let t := next (exec (.txComplete) (txAt false true [] []))
    t.txIdle = true ∧ t.txLastEvt = true := by decide
theorem test_txComplete_idle : refuses .noSuchEvent (exec .txComplete t0) = true := by decide
/-- V72. -/
theorem test_first_fault_kept :
    ((rxAt .awaitingType 0 1 0 []).raiseFatal .unsupportedType 4).raiseFatal .controllerReject 1 =
    (rxAt .awaitingType 0 1 0 []).raiseFatal .unsupportedType 4 := by decide

/-! ## The step -/

/-- The byte of the line fills the request, and RX-complete is taken before the script's poll (60 R211, R214). -/
theorem test_step_interrupt :
    let t := next (step { rxAt .awaitingType 0 1 0 [] with sched := [⟨[.uartRx], none⟩], rxLine := [0x02#8], script := [0x40#8] })
    t.rxState = .awaitingAclHeader ∧ t.script = [0x40#8] ∧ t.rxLine = [] := by decide
theorem test_step_call :
    let t := next (step { t0 with script := [0x21#8, 0x5A#8, 0x41#8] })
    t.high.count = 1 ∧ t.script = [0x41#8] := by decide
theorem test_step_spins :
    let t := next (step { t0 with script := [0x24#8, 0x02#8] })
    t.result = .unfinished ∧ t.stack = [⟨.main, .op (.rsGetlob 2), []⟩] ∧ t.script = [] := by decide
/-- P5, pass 3: in `IRQ_RX` the RNG interrupt cannot preempt, and the getter pumps. -/
theorem test_step_ingest_pumps :
    let t := next (step { pools fullPool RingPool.reset with
        stack := [inIngest [.lowBlocking 2] []], rsStarted := true, sched := [⟨[.rngByte], none⟩], rngLine := [0xB3#8] })
    t.low.count = 1 ∧ t.rngReady = false ∧ t.stack = [inIngest [.lowBlocking 2] []] := by decide
/-! The example of 60 R214: one ingest call in which `RS.GETHI` returns `false`, a random byte arrives, and `RS.GETHI`
returns `true`; one step each. -/

/-- Cut after its third micro-step, the ingest code has had `false` from the first getter. -/
theorem test_ingest_first_getter :
    let t := next (step { urgentRng with stack := [inIngest [.high 1, .high 1] []], sched := [⟨[], some 2⟩] })
    t.ctlGot = [.notTaken] ∧ t.stack = [inIngest [.high 1, .high 1] [.index 0, .index 0, .unit]] := by decide
/-- The more urgent RNG interrupt preempts it and runs to its end. -/
theorem test_ingest_preempted :
    let t := next (step { urgentRng with
        stack := [inIngest [.high 1, .high 1] [.index 0, .index 0, .unit]], sched := [⟨[.rngByte], none⟩], rngLine := [0x5A#8] })
    t.high = poolAt 1 0 0 [0x5A#8] ∧ t.stack = [inIngest [.high 1, .high 1] [.index 0, .index 0, .unit]] := by decide
/-- It goes on, and the second getter has the byte. -/
theorem test_ingest_second_getter :
    let t := next (step { urgentRng with
        high := poolAt 1 0 0 [0x5A#8], stack := [inIngest [.high 1, .high 1] [.index 0, .index 0, .unit]] })
    t.ctlGot = [.taken [0x5A#8]] ∧ t.stack = [] ∧ t.rxReqValid = true ∧ t.high.count = 0 := by decide
/-- 20_memory R66: `high` was read as full, has been emptied since, and the byte is diverted to `low`. -/
theorem test_diverted_byte :
    let t := next (step { pools (poolAt 11 11 0 []) RingPool.reset with
        stack := [⟨.irqRng, .op (.rsProduce 0x7E#8), [.index 11, .index 12]⟩] })
    t.high = poolAt 11 11 0 [] ∧ t.low = poolAt 1 0 0 [0x7E#8] := by decide
/-- 20_memory R62, 43 R187, D27: an interrupt can land between the write of `tx_last_evt` and the raise; its fatal condition
(an RX-complete of a type byte 0x04) comes first and is kept (60 R203). -/
theorem test_cut_before_raise :
    let t := next (State.launch (txAt true false [.frame 0#8 [1#8, 2#8, 3#8, 4#8, 5#8, 6#8, 7#8]] []) .txPoll (some 3))
    let u := next (step { t with rxReqValid := true, rxReqLen := 1, rxGot := 1, rxbuf := [(0, 0x04#8)] })
    t.halted = false ∧ t.txLastEvt = true ∧ t.stack.length = 1 ∧ (next (step t)).faultCode = 4 ∧ u.faultCode = 1 := by
  decide
theorem test_fetch_txPoll : (next (step (State.reset.withFetchWord 8 0x40))).txLastEvt = true := by decide
theorem test_fetch_rxTypeCmd :
    (next (step (State.reset.withFetchWord 8 0x01))).rxState = .awaitingCmdHeader := by decide
theorem test_fetch_rxComplete : (next (step (State.reset.withFetchWord 8 0x31))).faultCode = 1 := by decide
theorem test_fetch_ringEnq : (next (step (State.reset.withFetchWord 8 0x13))).high.count = 1 := by decide

/-! ## Witnesses: for each statement with hypotheses, a state and operands that meet them together, per clause -/

/-- A state with nothing in progress, no request and nothing in the pools and `RXBUF` meets the invariant if its
multiplexer is consistent. -/
theorem inv_of_empty (s : State) (hs : s.stack = []) (hh : s.high = RingPool.reset) (hl : s.low = RingPool.reset)
    (hr : s.rxbuf = []) (ha : s.halted = false) (hc : s.faultCode = 0) (hi : s.faultInfo = 0) (hg : s.rngReady = false)
    (hv : s.rxReqValid = false ∧ s.rxState = .awaitingType) (ht : Memory.Wf s.txbuf ∧ Memory.Within s.txbuf s.cfg.txbufSize)
    (hm : s.MuxOk) : s.Inv where
  memory := by
    constructor
    · rw [hh]; decide
    · rw [hl]; decide
    · rw [hr]; decide
    · rw [hr]; exact fun c h => by cases h
    · exact ht.1
    · exact ht.2
  latch := ⟨fun _ => ⟨hc, hi⟩, fun h => by rw [ha] at h; cases h⟩
  random := fun h => by rw [hg] at h; cases h
  nested := by unfold State.Nested; rw [hs]; exact .nil
  oneEach := by unfold State.OneEach; rw [hs]; exact .nil
  framer := fun _ _ =>
    ⟨(fun h => by rw [hv.1] at h; cases h), (fun h => by rw [hv.1] at h; cases h),
      (fun h => by rw [hv.1] at h; cases h), fun _ => hv.2⟩
  framing := fun _ a b h => absurd (h.subset List.mem_cons_self) (by rw [hs]; simp)
  mux := fun _ _ => hm
  muxing := fun _ a b h => absurd (h.subset List.mem_cons_self) (by rw [hs]; simp)

theorem witness_RingInitEmptiesPool : t0.halted = false := by decide
theorem witness_RingQueriesReturnFullAndCount : t0.halted = false := by decide
theorem witness_RsInitStartsWithEmptyPools : t0.halted = false := by decide
theorem witness_RxStartRequestsTypeByte : t0.halted = false := by decide
theorem witness_RxTypeRequestsHeaderOrLatchesFault : t0.halted = false := by decide
theorem witness_CutOperationGoesOnWhereItWas : t0.halted = false := by decide
theorem witness_RingEnqStoresOrRejects :
    let s := pools (poolAt 64 0 0 []) (poolAt 64 10 0 [])
    s.halted = false ∧ (s.pool .low).Wf ∧ ((s.pool .low).w.val + 1) % 65 ≠ (s.pool .low).r.val ∧
    (s.pool .high).Wf ∧ ((s.pool .high).w.val + 1) % 65 = (s.pool .high).r.val := by decide
theorem witness_RingDeqReturnsOldestOrRejects :
    let s := pools (poolAt 0 64 0 []) (poolAt 64 64 0 [])
    s.halted = false ∧ (s.pool .high).w ≠ (s.pool .high).r ∧ (s.pool .low).w = (s.pool .low).r := by decide
theorem witness_RingTakevIsAllOrNothing :
    let s := pools fullPool RingPool.reset
    s.halted = false ∧ 64 ≤ (s.pool .high).count ∧ (s.pool .high).count < 65 ∧ 0 ≤ (s.pool .low).count ∧ (s.pool .low).count < 1 := by decide
theorem witness_PoolRunsAreFifo :
    t0.halted = false ∧ (t0.pool .low).Wf ∧
    ∀ i ∈ [Instr.ringEnq .low 0x0A#8, .ringTakev .low 1, .ringDeq .low], usesPool .low i = true := by decide
theorem witness_CapacityManyEnqueuesFillThePool :
    t0.halted = false ∧ (t0.pool .high).Wf ∧ (t0.pool .high).count = 0 ∧ (List.replicate 64 0x41#8).length = 64 := by decide
theorem witness_EnqueuePublishesByIndexWrite :
    let s := pools (poolAt 63 0 0 [0xA1#8]) RingPool.reset
    s.halted = false ∧ (s.pool .high).Wf ∧ (s.pool .high).full = false := by decide
theorem witness_EnqueueCommutesWithDequeue :
    let s := pools (poolAt 64 1 1 [0xA1#8]) RingPool.reset
    (s.halted = false ∧ (s.pool .high).Wf ∧ (s.pool .high).empty = false ∧ (s.pool .high).full = false) ∧
    exec (.ringDeq .high) s = .next (next (exec (.ringDeq .high) s)) ∧
    exec (.ringEnq .high 0x33#8) s = .next (next (exec (.ringEnq .high 0x33#8) s)) := ⟨by decide, rfl, rfl⟩
theorem witness_RsProduceRoutesToFirstNonFull :
    let s := pools (poolAt 63 0 0 []) fullPool
    let u := pools fullPool (poolAt 63 0 0 [])
    let v := pools fullPool fullPool
    (s.halted = false ∧ (s.around .irqRng).producing = false ∧ s.high.Wf ∧ s.low.Wf ∧ s.high.full = false) ∧
    (u.halted = false ∧ (u.around .irqRng).producing = false ∧ u.high.Wf ∧ u.low.Wf ∧ u.high.full = true ∧ u.low.full = false) ∧
    (v.halted = false ∧ (v.around .irqRng).producing = false ∧ v.high.Wf ∧ v.low.Wf ∧ v.high.full = true ∧ v.low.full = true) := by decide
theorem witness_ProducedBytesFillLowThenDrop :
    let s := pools fullPool RingPool.reset
    s.halted = false ∧ (s.around .irqRng).producing = false ∧ s.low.Wf ∧ s.high.full = true := by decide
theorem witness_RsGethiAndGetloTakeFromTheirPools :
    let s := pools fullPool fullPool
    s.halted = false ∧ 64 ≤ s.high.count ∧ s.high.count < 65 ∧ 64 ≤ s.low.count ∧ s.low.count < 65 := by decide
theorem witness_RsGetlobReturnsPumpsOrSpins :
    let s := { t0 with ctx := .irqRx, rngReady := true }
    let u := pools RingPool.reset fullPool
    (u.halted = false ∧ 64 ≤ u.low.count) ∧
    (s.halted = false ∧ s.low.count < 1 ∧ Config.prio s.cfg s.runningCtx ≤ s.cfg.prioRng ∧ s.rngReady = true ∧
      (s.around s.runningCtx).producing = false) ∧
    (t0.halted = false ∧ t0.low.count < 1 ∧ t0.cfg.prioRng < Config.prio t0.cfg t0.runningCtx ∧ t0.rngReady = false ∧
      t0.runningCtx = .main) := by decide
theorem witness_RsGetlobBeyondCapacityNeverReturns :
    let a : Activation := ⟨.main, .op (.rsGetlob 65), []⟩
    let c : Activation := ⟨.irqTx, .op .txComplete, [.flag true]⟩
    let s (stack : List Activation) := { t0 with stack := stack }
    64 < 65 ∧ (t0.halted = false ∧ exec (.rsGetlob 65) t0 = .next (next (exec (.rsGetlob 65) t0))) ∧
    (Call.insideGetlob 65 a.call ∧ (s [c, a]).stack = [c] ++ a :: [] ∧
      runSteps 1 (s [c, a]) = .next (next (runSteps 1 (s [c, a])))) ∧
    (Call.insideGetlob 65 (inIngest [.lowBlocking 65] []).call ∧
      (s [inIngest [.lowBlocking 65] []]).stack = [] ++ inIngest [.lowBlocking 65] [] :: [] ∧
      runSteps 1 (s [inIngest [.lowBlocking 65] []]) = .next (next (runSteps 1 (s [inIngest [.lowBlocking 65] []])))) := ⟨by decide, ⟨rfl, rfl⟩, ⟨rfl, rfl, rfl⟩, ⟨[], rfl⟩, rfl, rfl⟩
theorem witness_RsGetlobReturnsAfterDeliveries :
    let s := pools fullPool RingPool.reset
    s.halted = false ∧ (s.around .irqRng).producing = false ∧ s.low.Wf ∧ s.high.full = true ∧
    s.low.count + [1#8, 2#8, 3#8].length ≤ 64 ∧
    3 ≤ s.low.count + [1#8, 2#8, 3#8].length := by decide
theorem witness_RxHeaderRequestsPayload :
    t0.halted = false ∧
    (0x0C#8 ≠ 0#8 ∧ 4 + (0x0C#8).toNat ≤ t0.cfg.rxbufSize) ∧ (0x0D#8 ≠ 0#8 ∧ t0.cfg.rxbufSize < 4 + (0x0D#8).toNat) ∧
    ((0x0B#8 ≠ 0#8 ∨ 0#8 ≠ 0#8) ∧ 5 + ((0x0B#8).toNat + 256 * (0#8).toNat) ≤ t0.cfg.rxbufSize) ∧
    ((0x0C#8 ≠ 0#8 ∨ 0#8 ≠ 0#8) ∧ t0.cfg.rxbufSize < 5 + ((0x0C#8).toNat + 256 * (0#8).toNat)) := by decide
theorem witness_RxHeaderZeroDelivers :
    let s := rxAt .awaitingCmdHeader 1 3 3 [0x01#8, 0x01#8, 0x03#8, 0x00#8]
    let u := rxAt .awaitingAclHeader 1 4 4 [0x02#8, 0x10#8, 0x00#8, 0x00#8, 0x00#8]
    (s.halted = false ∧ s.ctlIngest = ⟨[], 0⟩ :: [] ∧ Memory.read s.rxbuf 0 = tCmd ∧ Memory.read s.rxbuf 3 = 0#8) ∧
    (u.halted = false ∧ u.ctlIngest = ⟨[], 0⟩ :: [] ∧ Memory.read u.rxbuf 0 = tAcl ∧ Memory.read u.rxbuf 3 = 0#8 ∧
      Memory.read u.rxbuf 4 = 0#8) := by decide
theorem witness_RxPayloadDelivers :
    let s := rxAt .awaitingPayload 4 12 12 [0x01#8, 0x03#8, 0x0C#8, 0x0C#8]
    let u := rxAt .awaitingPayload 5 11 11 [0x02#8, 0x10#8, 0x00#8, 0x0B#8, 0x00#8]
    (s.halted = false ∧ s.ctlIngest = ⟨[], 0⟩ :: [] ∧ Memory.read s.rxbuf 0 = tCmd ∧
      15 = 3 + (Memory.read s.rxbuf 3).toNat ∧ 1 + 15 ≤ s.cfg.rxbufSize) ∧
    (u.halted = false ∧ u.ctlIngest = ⟨[], 0⟩ :: [] ∧ Memory.read u.rxbuf 0 = tAcl ∧
      15 = 4 + ((Memory.read u.rxbuf 3).toNat + 256 * (Memory.read u.rxbuf 4).toNat) ∧ 1 + 15 ≤ u.cfg.rxbufSize) := by decide
theorem witness_RejectedFrameLatchesFault :
    let s := cmdFrame [⟨[], 1⟩] RingPool.reset RingPool.reset
    let u := aclFrame [⟨[], 0xFF⟩]
    (Instr.delivers .rxPayload = true ∧ s.halted = false ∧ s.Holds tCmd cmdPassed ∧ 1 ≠ 0 ∧ s.ctlIngest = ⟨[], 1⟩ :: []) ∧
    (Instr.delivers (.rxAclhdrZ 0#8 0#8) = true ∧ u.halted = false ∧ u.Holds tAcl aclPassed ∧ 0xFF ≠ 0 ∧
      u.ctlIngest = ⟨[], 0xFF⟩ :: []) := ⟨⟨rfl, rfl, holds_cmd _ rfl rfl, by decide, rfl⟩, ⟨rfl, rfl, holds_acl _ rfl rfl, by decide, rfl⟩⟩
theorem witness_UnansweredIngestWaits :
    let s := cmdFrame [] RingPool.reset RingPool.reset
    let u := aclFrame []
    let v (answers : List IngestAnswer) := { t0 with stack := [⟨.irqRx, .awaiting tCmd, []⟩], ctlIngest := answers }
    (Instr.delivers .rxPayload = true ∧ s.halted = false ∧ s.Holds tCmd cmdPassed ∧ s.ctlIngest = []) ∧
    (Instr.delivers .rxPayload = true ∧ u.halted = false ∧ u.Holds tAcl aclPassed ∧ u.ctlIngest = []) ∧
    ∀ answers ∈ [[], [⟨[], 0⟩], [⟨[], 1⟩]], (v answers).platformTick = .next (v answers) ∧ (v answers).slot.cut = none ∧
      (v answers).halted = false ∧ (v answers).nextIrq = none ∧
      (v answers).stack = ⟨.irqRx, .awaiting tCmd, []⟩ :: [] ∧ (v answers).ctlIngest = answers := ⟨⟨rfl, rfl, holds_cmd _ rfl rfl, rfl⟩, ⟨rfl, rfl, holds_acl _ rfl rfl, rfl⟩,
    fun _ _ => ⟨rfl, rfl, rfl, rfl, rfl, rfl⟩⟩
theorem witness_IngestCodeTakesRandomBytes :
    let s (g : GetCall) (h l : RingPool) := cmdFrame [⟨[g], 0⟩] h l
    let v (l : RingPool) := { pools RingPool.reset l with stack := [inIngest [.lowBlocking 64] []] }
    (∀ g h l, (s g h l).Holds tCmd cmdPassed) ∧ Instr.delivers .rxPayload = true ∧
    (∀ g ∈ [GetCall.high 64, .low 64, .lowBlocking 64], (s g fullPool fullPool).halted = false ∧
      (s g fullPool fullPool).ctlIngest = ⟨[g], 0⟩ :: [] ∧ ((s g fullPool fullPool).around .irqRx).consuming g.pool = false ∧
      g.amount ≤ ((s g fullPool fullPool).pool g.pool).count) ∧
    (∀ g ∈ [GetCall.high 65, .low 65], ((s g fullPool fullPool).pool g.pool).count < g.amount ∧ g ≠ .lowBlocking g.amount) ∧
    (let u := { s (.lowBlocking 65) fullPool fullPool with rngReady := true }
     u.low.count < 65 ∧ u.cfg.prioRx ≤ u.cfg.prioRng ∧ u.rngReady = true ∧ (u.around .irqRx).producing = false ∧
      (s (.lowBlocking 65) fullPool fullPool).rngReady = false) ∧
    ∀ l ∈ [fullPool, RingPool.reset], (v l).platformTick = .next (v l) ∧ (v l).slot.cut = none ∧ (v l).halted = false ∧
      (v l).nextIrq = none ∧ (v l).stack = ⟨.irqRx, .ingest tCmd 0 [.lowBlocking 64], []⟩ :: [] ∧
      Around.consuming ⟨(v l).cfg, .irqRx, []⟩ .low = false ∧ (v l).rngReady = false ∧
      (64 ≤ fullPool.count ∧ RingPool.reset.count < 64) := ⟨fun _ _ _ => holds_cmd _ rfl rfl, rfl, by decide, by decide, by decide,
    fun _ _ => ⟨rfl, rfl, rfl, rfl, rfl, rfl, rfl, by decide⟩⟩
theorem witness_SecondConsumerOrProducerIsRefused :
    let c : Activation := ⟨.main, .op (.rsGetlo 1), [.index 0]⟩
    let p : Activation := ⟨.main, .op (.ringEnq .high 0#8), [.index 0]⟩
    let s := { cmdFrame [⟨[.lowBlocking 1], 0⟩] RingPool.reset RingPool.reset with stack := [c] }
    let u := { s with stack := [p], rngReady := true, ctx := .irqRx }
    (s.halted = false ∧ Instr.delivers .rxPayload = true ∧ s.Holds tCmd cmdPassed ∧
      s.ctlIngest = ⟨.lowBlocking 1 :: [], 0⟩ :: [] ∧ c ∈ s.stack ∧ c.call = .op (.rsGetlo 1) ∧
      Instr.consumes (GetCall.lowBlocking 1).pool (.rsGetlo 1) = true) ∧
    (u.halted = false ∧ p ∈ u.stack ∧ p.call = .op (.ringEnq .high 0#8) ∧ Instr.produces (.ringEnq .high 0#8) = true ∧
      u.rngReady = true ∧ u.low.count < 1 ∧ u.Holds tCmd cmdPassed ∧ (u.around .irqRx).consuming .low = false ∧
      u.cfg.prioRx ≤ u.cfg.prioRng ∧ u.ctlIngest = ⟨.lowBlocking 1 :: [], 0⟩ :: []) ∧
    (let v := { u with stack := [⟨.irqRx, .op (.ringEnq .high 0#8), [.index 0]⟩] }
     Config.prio v.cfg v.runningCtx ≤ v.cfg.prioRng) := ⟨⟨rfl, rfl, holds_cmd _ rfl rfl, rfl, by decide, rfl, rfl⟩,
    ⟨rfl, by decide, rfl, rfl, rfl, by decide, holds_cmd _ rfl rfl, rfl, by decide, rfl⟩, by decide⟩
theorem witness_RxCompleteTakesTheSelectedTransition :
    let s := rxAt .awaitingAclHeader 1 4 0 [0x02#8]
    s.halted = false ∧ s.rxReqValid = true ∧ s.rxGot + [0x10#8, 0x00#8, 0x00#8, 0x00#8].length = s.rxReqLen ∧
    s.rxReqOff + s.rxReqLen ≤ s.cfg.rxbufSize := by decide
theorem witness_RxCompleteOfTypeByte :
    (rxAt .awaitingType 0 1 0 []).AtFrameStart ∧ Memory.Wf (rxAt .awaitingType 0 1 0 []).rxbuf ∧
    (0x00#8 ≠ tCmd ∧ 0x00#8 ≠ tAcl) ∧ (0x03#8 ≠ tCmd ∧ 0x03#8 ≠ tAcl) := ⟨⟨rfl, rfl, rfl, rfl, rfl, rfl⟩, by decide, by decide, by decide⟩
theorem witness_RxByteStoresAndCounts :
    let s := rxAt .awaitingCmdHeader 1 3 1 [0x01#8, 0x01#8]
    let u := rxAt .awaitingPayload 4 12 11 [0x01#8, 0x03#8, 0x0C#8, 0x0C#8]
    (s.halted = false ∧ s.rxReqValid = true ∧ s.rxReqOff + s.rxReqLen ≤ s.cfg.rxbufSize ∧ Memory.Wf s.rxbuf ∧
      s.rxGot + 1 < s.rxReqLen) ∧
    (u.halted = false ∧ u.rxReqValid = true ∧ u.rxReqOff + u.rxReqLen ≤ u.cfg.rxbufSize ∧ Memory.Wf u.rxbuf ∧
      u.rxGot + 1 = u.rxReqLen) := by decide
theorem witness_ByteSerialEqualsWholeRequest :
    let s := rxAt .awaitingCmdHeader 1 3 0 [0x01#8]
    s.rxReqValid = true ∧ s.rxGot = 0 ∧ [0x01#8, 0x03#8, 0x00#8].length = s.rxReqLen ∧ [0x01#8, 0x03#8, 0x00#8] ≠ [] := by decide
theorem witness_EventsThatDoNotExistAreRefused :
    let s := rxAt .awaitingCmdHeader 1 3 3 []
    (t0.halted = false ∧ t0.rxReqValid = false ∧ t0.txFlight = false ∧ t0.txDone = false) ∧
    (s.halted = false ∧ s.rxReqValid = true ∧ s.rxGot + [0#8].length ≠ s.rxReqLen ∧ s.rxReqLen ≤ s.rxGot) := by decide
theorem witness_FramesAreDeliveredInWireOrder :
    let s := rxAt .awaitingType 0 1 0 [] [⟨[], 0⟩, ⟨[], 0⟩]
    let frames : List H4Frame := [.command 0x01#8 0x03#8 [], .aclData 0x10#8 0x00#8 (List.replicate 11 0xAA#8)]
    let f : H4Frame := .command 0x01#8 0x03#8 [0xBB#8]
    s.AtFrameStart ∧ Memory.Wf s.rxbuf ∧ f.fits s.cfg.rxbufSize ∧ f.bytes = [0x01#8, 0x01#8, 0x03#8, 0x01#8] ++ [0xBB#8] ∧
    (∀ f ∈ frames, f.fits s.cfg.rxbufSize) ∧ s.ctlIngest = List.replicate frames.length ⟨[], 0⟩ ++ [] := by
  refine ⟨⟨rfl, rfl, rfl, rfl, rfl, rfl⟩, by decide, ?_, rfl, ?_, rfl⟩
  · simp only [H4Frame.fits]; decide
  · simp only [List.mem_cons, List.not_mem_nil, or_false, forall_eq_or_imp, forall_eq, H4Frame.fits]
    decide
theorem witness_LineByteIsReceivedLikeRxByte :
    let s := { rxAt .awaitingType 0 1 0 [] with sched := [⟨[.uartRx], none⟩], rxLine := [0x01#8] }
    s.halted = false ∧ s.rxReqValid = true ∧ s.rxGot < s.rxReqLen ∧ s.rxReqOff + s.rxReqLen ≤ s.cfg.rxbufSize ∧
    s.ctx = .main ∧ s.stack = [] ∧ s.txDone = false ∧ s.rngReady = false ∧ s.script = [] ∧ s.result = .nothing ∧
    s.sched = ⟨[.uartRx], none⟩ :: [] ∧ s.rxLine = 0x01#8 :: [] := by decide
theorem witness_OnlyTheRequestWritesRxbuf :
    let s := { rxAt .awaitingCmdHeader 1 3 1 [0x01#8, 0x01#8] with sched := [⟨[.uartRx], none⟩], rxLine := [0x03#8] }
    Memory.Wf s.rxbuf ∧ step s = .next (next (step s)) ∧
    ¬ (s.rxReqValid = true ∧ s.rxReqOff + s.rxGot ≤ 1 ∧ 1 < s.rxReqOff + s.rxReqLen) := ⟨by decide, rfl, by decide⟩
theorem witness_TxPollWhileBusyDoesNothing :
    (txAt false true [] []).halted = false ∧ (txAt false true [] []).txIdle = false := by decide
theorem witness_TxPollSendsOneFrame :
    let s := txAt true false [.frame 0x3E#8 []] []
    let u := txAt true true [] [.frame 0#8 [1#8, 2#8, 3#8, 4#8, 5#8, 6#8]]
    (s.halted = false ∧ s.txIdle = true ∧ Memory.Wf s.txbuf ∧ 2 + ([] : List Byte).length ≤ s.cfg.txbufSize ∧
      s.txLastEvt = false ∧ s.ctlEvents = .frame 0x3E#8 [] :: []) ∧
    (u.halted = false ∧ u.txIdle = true ∧ Memory.Wf u.txbuf ∧
      2 + [1#8, 2#8, 3#8, 4#8, 5#8, 6#8].length ≤ u.cfg.txbufSize ∧ u.txLastEvt = true ∧
      u.ctlDatas = .frame 0#8 [1#8, 2#8, 3#8, 4#8, 5#8, 6#8] :: []) := by decide
theorem witness_TxPollEmptyPullFlipsTheFlag :
    let s := txAt true false [.nothing []] []
    let u := txAt true true [] [.nothing [0xAA#8]]
    (s.halted = false ∧ s.txIdle = true ∧ Memory.Wf s.txbuf ∧ s.txLastEvt = false ∧ s.ctlEvents = .nothing [] :: []) ∧
    (u.halted = false ∧ u.txIdle = true ∧ Memory.Wf u.txbuf ∧ u.txLastEvt = true ∧ u.ctlDatas = .nothing [0xAA#8] :: []) ∧
    (txAt true false [] []).ctlEvents = [] ∧ (txAt true true [] []).ctlDatas = [] := by decide
theorem witness_TxPollOverlengthLatchesFault :
    let s := txAt true false [.frame 0#8 [1#8, 2#8, 3#8, 4#8, 5#8, 6#8, 7#8]] []
    let u := txAt true true [] [.frame 0#8 [1#8, 2#8, 3#8, 4#8, 5#8, 6#8, 7#8]]
    (s.halted = false ∧ s.txIdle = true ∧ Memory.Wf s.txbuf ∧ s.cfg.txbufSize < 2 + [1#8, 2#8, 3#8, 4#8, 5#8, 6#8, 7#8].length ∧ s.txLastEvt = false ∧
      s.ctlEvents = .frame 0#8 [1#8, 2#8, 3#8, 4#8, 5#8, 6#8, 7#8] :: []) ∧
    (u.halted = false ∧ u.txIdle = true ∧ Memory.Wf u.txbuf ∧ u.cfg.txbufSize < 2 + [1#8, 2#8, 3#8, 4#8, 5#8, 6#8, 7#8].length ∧ u.txLastEvt = true ∧
      u.ctlDatas = .frame 0#8 [1#8, 2#8, 3#8, 4#8, 5#8, 6#8, 7#8] :: []) := by decide
theorem witness_TxCompleteSetsIdle :
    let s := txAt false true [] []
    let u := { s with txFlight := false, txDone := true }
    (s.halted = false ∧ s.txFlight = true) ∧ (u.halted = false ∧ u.txDone = true) := by decide
theorem witness_PollsAlternateKinds :
    let es : List (List Byte) := [[0x0E#8], [0x13#8]]
    let ds : List (List Byte) := [[0x10#8, 0x00#8]]
    let s := txAt true false (offers es) (offers ds)
    s.halted = false ∧ s.txIdle = true ∧ Memory.Wf s.txbuf ∧ s.ctlEvents = offers es ∧ s.ctlDatas = offers ds ∧
    1 ≤ es.length ∧ 1 ≤ ds.length ∧ ∀ f ∈ es ++ ds, f ≠ [] ∧ 1 + f.length ≤ s.cfg.txbufSize := by decide
theorem witness_BusyPathKeepsTxbuf :
    let s := { txAt false true [] [.frame 0x10#8 []] with
        txLen := 2, txbuf := Memory.writeN [] 0 [0x04#8, 0x0E#8], script := [0x40#8] }
    s.Inv ∧ s.halted = false ∧ s.txFlight = true ∧ step s = .next (next (step s)) := ⟨inv_of_empty _ rfl rfl rfl rfl rfl rfl rfl rfl ⟨rfl, rfl⟩ (by decide)
    ⟨by decide, by decide, (fun _ => by decide), fun _ => .inl rfl⟩, rfl, rfl, rfl⟩
theorem witness_FatalConditionLatchesOnceAndStopsEveryOperation :
    t0.halted = false ∧ ({ t0 with halted := true } : State).halted = true := by decide
theorem witness_HaltedBlockIsFrozen : ({ t0 with halted := true } : State).halted = true := by decide
theorem witness_StepNeverClearsHaltedOrStarted :
    let s := { t0 with halted := true, rsStarted := true }
    step s = .next (next (step s)) ∧ s.halted = true ∧ s.rsStarted = true := ⟨rfl, rfl, rfl⟩
theorem witness_UnitsShareNoState :
    exec (.rsProduce 0x5A#8) t0 = .next (next (exec (.rsProduce 0x5A#8) t0)) ∧
    exec .txPoll t0 = .next (next (exec .txPoll t0)) ∧ exec .rxStart t0 = .next (next (exec .rxStart t0)) ∧
    exec .rxPayload (rxAt .awaitingPayload 4 12 12 [0x01#8, 0x03#8, 0x0C#8, 0x0C#8]) = .next (next (exec .rxPayload (rxAt .awaitingPayload 4 12 12 [0x01#8, 0x03#8, 0x0C#8, 0x0C#8]))) := ⟨rfl, rfl, rfl, rfl⟩
theorem witness_MostUrgentInterruptIsTaken :
    let s := { rxAt .awaitingType 0 1 1 [0x01#8] with txDone := true, rngReady := true, rsStarted := true }
    s.nextIrq = some .irqRx ∧ s.pending .irqRng = true ∧ Config.canPreempt s.cfg .irqRng s.runningCtx = true ∧
    t0.nextIrq = none ∧ Ctx.irqTx ≠ .main := by decide
theorem witness_InterruptRunsItsHandler :
    let s := rxAt .awaitingType 0 1 1 [0x01#8]
    let u := { txAt false true [] [] with txFlight := false, txDone := true }
    let v := { t0 with rngReady := true, rsStarted := true }
    (s.platformTick = .next s ∧ s.halted = false ∧ s.nextIrq = some .irqRx ∧ s.slot.cut = none ∧
      s.rxReqOff + s.rxReqLen ≤ s.cfg.rxbufSize ∧ s.nextIrq ≠ none ∧ step s = .next (next (step s))) ∧
    (u.platformTick = .next u ∧ u.halted = false ∧ u.nextIrq = some .irqTx ∧ u.slot.cut = none) ∧
    (v.platformTick = .next v ∧ v.halted = false ∧ v.nextIrq = some .irqRng ∧ v.slot.cut = none) := ⟨⟨rfl, rfl, rfl, rfl, by decide, by decide, rfl⟩, ⟨rfl, rfl, rfl, rfl⟩, ⟨rfl, rfl, rfl, rfl⟩⟩
theorem witness_PlatformSetsItsFlags :
    let s := { txAt false true [] [] with sched := ⟨[.uartTx], none⟩ :: [] }
    let v := { t0 with sched := ⟨[.rngByte], none⟩ :: [], rngLine := [0x5A#8], rsStarted := true }
    (s.sched = ⟨[.uartTx], none⟩ :: [] ∧ s.txFlight = true ∧ s.halted = false ∧ s.runningCtx = .main ∧ s.rxPending = false ∧
      s.rngPending = false) ∧
    (({ t0 with sched := ⟨[.uartTx], none⟩ :: [] } : State).txFlight = false) ∧
    (v.sched = ⟨[.rngByte], none⟩ :: [] ∧ v.rngLine = 0x5A#8 :: [] ∧ v.rsStarted = true ∧ v.rngReady = false ∧
      v.halted = false ∧ v.runningCtx = .main ∧ v.rxPending = false ∧ v.txPending = false) ∧
    (({ t0 with sched := ⟨[.rngByte], none⟩ :: [] } : State).rsStarted = false) := by decide
theorem witness_OnlyTheTopActivationGoesOn :
    let s := { t0 with stack := [⟨.main, .op (.rsGetlob 1), []⟩] }
    step s = .next (next (step s)) := rfl
theorem witness_StaleIndexReadsAreSafe :
    let s := pools fullPool RingPool.reset
    let u := pools fullPool fullPool
    let v := pools (poolAt 5 3 0 []) RingPool.reset
    (s.halted = false ∧ (s.around .irqRng).producing = false ∧ s.high.full = true ∧ s.low.Wf ∧ s.low.full = false) ∧
    (u.halted = false ∧ (u.around .irqRng).producing = false ∧ u.high.full = true ∧ u.low.Wf ∧ u.low.full = true) ∧
    ((poolAt 9 3 0 []).r = (v.pool .high).r ∧ (v.pool .high).count < 3 ∧ 2 ≤ (v.pool .high).count ∧
      2 ≤ (poolAt 9 3 0 []).count) ∧
    ((v.pool .high).full = false ∧ (poolAt 5 5 0 []).w = (v.pool .high).w ∧ (poolAt 5 5 0 []).full = false) := by decide
theorem witness_BlockIsInertAfterReset :
    ∀ x ∈ [(⟨[.uartRx, .rngByte], some 0⟩ : Slot), ⟨[.uartTx, .quiet], none⟩], ∀ e ∈ x.events, ∀ info, e ≠ .initFailure info := by simp
theorem witness_StepKeepsTheInvariant : t0.Inv ∧ step t0 = .next (next (step t0)) := ⟨inv_of_empty _ rfl rfl rfl rfl rfl rfl rfl rfl ⟨rfl, rfl⟩ (by decide)
    ⟨by decide, by decide, (fun h => by cases h), fun h => by cases h⟩, rfl⟩
theorem witness_NoAccessOutsideTheByteSpaces : t0.Inv := witness_StepKeepsTheInvariant.1
theorem witness_DecodeOfEncodeIsIdentity :
    (Instr.rxTypeBad 0x00#8).wellFormed = true ∧ (Instr.rxAclhdrNz 0#8 0#8 0#8 1#8).wellFormed = true ∧
    (Instr.ringTakev .low 255).wellFormed = true := by decide
theorem witness_ScriptBytesAreTheEncoding :
    decode (.script 1) [0x31#8, 0x04#8, 0x40#8] = .ok (.rxComplete [0x04#8], [0x40#8]) := rfl
theorem witness_FramerAlwaysSelectsATransition :
    (RxState.awaitingCmdHeader = .awaitingCmdHeader → tCmd = tCmd) ∧ (RxState.awaitingAclHeader = .awaitingAclHeader → tAcl = tAcl) := by decide
theorem witness_StepRunsTheDecodedOperation :
    let s (script : List Byte) (stack : List Activation) := { t0 with script := script, stack := stack }
    let a : Activation := ⟨.main, .op (.rsGetlob 1), []⟩
    (∀ script stack, (s script stack).platformTick = .next (s script stack) ∧ (s script stack).halted = false ∧
      (s script stack).sched = [] ∧ (s script stack).slot.cut = none) ∧
    ((s [0x21#8, 0x5A#8, 0x40#8] []).nextIrq = none ∧ (s [] []).nextIrq = none ∧ (s [0xFF#8] []).nextIrq = none ∧
      (s [] [a]).nextIrq = none) ∧
    decode (.script 0) [0x21#8, 0x5A#8, 0x40#8] = .ok (.rsProduce 0x5A#8, [0x40#8]) ∧ (s [] [a]).stack = a :: [] ∧
    decode (.script 0) [0xFF#8] = .error (.unknownOpSelect 0xFF#8) := ⟨fun _ _ => ⟨rfl, rfl, rfl, rfl⟩, ⟨rfl, rfl, rfl, rfl⟩, rfl, rfl, rfl⟩

end Sys2Proof.Tests
end

section
/-! The statements of 10_state.md: reset, the invariant, the fault latch, and what may write `RXBUF`. -/

namespace Sys2Proof.Machine

/-! ## What runs in a step -/

/-- Whatever a step starts or goes on with is what is left of one activation, run in a state that differs from the one the
platform left in the stack, the script and `rng_ready` only (20_memory R62). -/
theorem StepDid.idle_or_ran {u t : State} (h : StepDid u t) :
    t = u ∨ ∃ (n : Nat) (a : Activation) (v : State),
      v = { u with stack := v.stack, script := v.script, rngReady := v.rngReady } ∧
      Prog.runFor n a (a.rest v.cfg v.stack) v = .next t := by
  have fresh (c : Ctx) (i : Instr) (v : State) :
      Activation.rest ⟨c, .op i, []⟩ v.cfg v.stack = Instr.prog i (v.around c) := Prog.after_nil _
  cases h with
  | idle => exact .inl rfl
  | rx n _ _ _ _ eq => exact .inr ⟨n + 1, _, u, rfl, by rw [fresh]; exact eq⟩
  | tx n _ _ _ _ eq => exact .inr ⟨n + 1, _, u, rfl, by rw [fresh]; exact eq⟩
  | rng n _ _ _ _ _ eq => exact .inr ⟨n + 1, _, u.takeRngByte, rfl, by rw [fresh]; exact eq⟩
  | resume n a below _ _ _ eq => exact .inr ⟨n + 1, a, { u with stack := below }, rfl, eq⟩
  | call n i rest _ _ _ _ eq => exact .inr ⟨n + 1, _, { u with script := rest }, rfl, by rw [fresh]; exact eq⟩

/-! ## Only the outstanding request writes `RXBUF` (10_state R32, 42 R151) -/

/-- Offset `a` lies in the part of the outstanding request that is still to be filled. -/
def State.Writable (s : State) (a : Nat) : Prop :=
  s.rxReqValid = true ∧ s.rxReqOff + s.rxGot ≤ a ∧ a < s.rxReqOff + s.rxReqLen

/-- Bytes that the outstanding request has room for are written nowhere else. -/
theorem State.fill_read_of_not_writable {s : State} {bs : List Byte} {a : Nat} (hw : Memory.Wf s.rxbuf)
    (hv : s.rxReqValid = true) (hg : s.rxGot + bs.length ≤ s.rxReqLen) (ha : ¬ s.Writable a) :
    Memory.read (s.fill bs).rxbuf a = Memory.read s.rxbuf a := by
  rw [State.fill_rxbuf, Memory.read_writeN hw, if_neg]
  exact fun h => ha ⟨hv, h.1, by omega⟩

/-- Bytes stored make no further byte writable. -/
theorem State.Writable.of_fill {s : State} {bs : List Byte} {a : Nat} (h : (s.fill bs).Writable a) : s.Writable a := by
  obtain ⟨valid, above, below⟩ := h
  simp only [State.fill_rxReqOff, State.fill_rxGot, State.fill_rxReqLen] at above below
  exact ⟨valid, by omega, below⟩

/-- From `s` on, the byte of `RXBUF` at `a` has not changed, and it lies outside the request. -/
structure State.KeepsByte (s : State) (a : Nat) (t : State) : Prop where
  wf : Memory.Wf t.rxbuf
  outside : ¬ t.Writable a
  same : Memory.read t.rxbuf a = Memory.read s.rxbuf a

/-- The platform writes `RXBUF` only where the request is to be filled next. -/
theorem State.KeepsByte.event {s u t : State} {a : Nat} (h : s.KeepsByte a u) (he : EventDid u t) : s.KeepsByte a t := by
  cases he with
  | quiet => exact h
  | stored b line running valid room fits next =>
    have hr := State.fill_read_of_not_writable (s := { u with rxLine := line }) (bs := [b]) h.wf valid room h.outside
    exact ⟨Memory.writeN_wf h.wf _ _, fun hx => h.outside (State.Writable.of_fill hx), hr.trans h.same⟩
  | sent flight => exact ⟨h.wf, h.outside, h.same⟩
  | drawn b line started ready next => exact ⟨h.wf, h.outside, h.same⟩
  | failed info =>
    unfold State.raiseFatal
    split <;> exact ⟨h.wf, h.outside, h.same⟩

theorem State.receive_read_of_not_writable {s t : State} {bs : List Byte} {v : Val} {a : Nat} (hw : Memory.Wf s.rxbuf)
    (hv : s.rxReqValid = true) (hg : s.rxGot + bs.length ≤ s.rxReqLen) (ha : ¬ s.Writable a)
    (h : s.receive bs = .ok (v, t)) : Memory.read t.rxbuf a = Memory.read s.rxbuf a := by
  have hr := State.fill_read_of_not_writable hw hv hg ha
  rcases s.receive_cases bs with ⟨-, h'⟩ | ⟨-, -, h'⟩ | ⟨-, -, h'⟩ <;> rw [h'] at h <;> cases h <;> exact hr

/-- A micro-step that is no store to `RXBUF` of an operation's own writes it only where the request is to be filled. -/
theorem State.perform_read_of_not_writable {s t : State} {m : Micro} {v : Val} {a : Nat}
    (hm : ∀ i b, m ≠ .store .rxbuf i b) (hw : Memory.Wf s.rxbuf) (ha : ¬ s.Writable a) (h : s.perform m = .ok (v, t)) :
    Memory.read t.rxbuf a = Memory.read s.rxbuf a := by
  cases hx : m.arrives with
  | false => rw [State.perform_rxbuf hx h]
  | true =>
    cases m with
    | completeRequest bs =>
      simp only [State.perform, State.completeRequest] at h
      split at h
      · rename_i hg; exact State.receive_read_of_not_writable hw hg.1 (by omega) ha h
      · cases h; rfl
    | storeByte b =>
      simp only [State.perform, State.storeByte] at h
      split at h
      · rename_i hg; exact State.receive_read_of_not_writable (bs := [b]) hw hg.1 hg.2 ha h
      · cases h; rfl
    | store sp i b =>
      cases sp with
      | rxbuf => exact absurd rfl (hm i b)
      | _ => cases hx
    | _ => cases hx

/-- Everything is allowed but the arrival of bytes in `RXBUF`. -/
abbrev Allowed.noArrival : Allowed := ⟨fun m => m.arrives = false, fun _ => True, True⟩

/-- A program that lets no bytes arrive in `RXBUF`. -/
abbrev Prog.NoArrival (q : Prog) : Prop := q.Obeys .noArrival

/-- Bytes arrive with the first micro-step of a program at most, and then as bytes of the outstanding request. -/
def Prog.ArrivesFirst : Prog → Prop
  | .act m k => (∀ i b, m ≠ .store .rxbuf i b) ∧ ∀ v, (k v).NoArrival
  | _ => True

/-- Bytes arrive by micro-steps of the framer only. -/
theorem Micro.arrives_of_part_ne {m : Micro} (h : m.part ≠ .framer) : m.arrives = false := by
  cases m with
  | store sp i b =>
    cases sp with
    | rxbuf => exact absurd rfl h
    | _ => rfl
  | completeRequest bs => exact absurd rfl h
  | storeByte b => exact absurd rfl h
  | _ => rfl

theorem Allowed.noArrival_framer : Allowed.noArrival.Framer :=
  ⟨fun _ h _ _ => Micro.arrives_of_part_ne (by rw [h]; decide), fun _ _ h => h, fun _ _ => trivial, trivial⟩

theorem Micro.ne_store_of_arrives {m : Micro} (h : m.arrives = false) (i : Nat) (b : Byte) : m ≠ .store .rxbuf i b := by
  rintro rfl
  cases h

theorem Prog.NoArrival.arrivesFirst {q : Prog} (h : q.NoArrival) : q.ArrivesFirst := by
  cases q with
  | act m k => exact ⟨Micro.ne_store_of_arrives h.1, h.2⟩
  | _ => trivial

theorem Prog.ArrivesFirst.after {q : Prog} (h : q.ArrivesFirst) (vs : List Val) : (q.after vs).ArrivesFirst := by
  cases vs with
  | nil => rw [Prog.after_nil]; exact h
  | cons v vs =>
    cases q with
    | act m k => exact Prog.NoArrival.arrivesFirst (Prog.Obeys.after (h.2 v) vs)
    | _ => trivial

/-- Only `RX.COMPLETE` and `RX.BYTE` let bytes arrive, and it is the first thing they do (42 R153, R165). -/
theorem Prog.ArrivesFirst.instr (i : Instr) (a : Around) : (Instr.prog i a).ArrivesFirst := by
  have received (v : Val) : (Prog.received a v).NoArrival := .received Allowed.noArrival_framer a v
  have mux (m : Micro) (hm : m.part = .mux) : m.arrives = false := Micro.arrives_of_part_ne (by rw [hm]; decide)
  cases i with
  | rxComplete bs => exact ⟨nofun, received⟩
  | rxByte b => exact ⟨nofun, received⟩
  | _ =>
    exact Prog.NoArrival.arrivesFirst (Prog.Obeys.instr _ a (fun _ => Allowed.noArrival_framer.pools)
      (fun _ => Allowed.noArrival_framer) (fun _ => ⟨mux, trivial⟩) (fun _ _ => trivial) (fun _ => rfl) nofun nofun)

theorem Prog.ArrivesFirst.rest (x : Activation) (cfg : Config) (below : List Activation) :
    (x.rest cfg below).ArrivesFirst := by
  refine Prog.ArrivesFirst.after ?_ _
  cases x.call with
  | op i => exact .instr i _
  | awaiting ty => exact Prog.NoArrival.arrivesFirst (.awaitAnswer Allowed.noArrival_framer _ ty)
  | ingest ty status calls => exact Prog.NoArrival.arrivesFirst (.ingestCode Allowed.noArrival_framer _ ty status calls)

theorem Made.rxbuf {s t : State} (h : Made (fun m => m.arrives = false) s t) : t.rxbuf = s.rxbuf := by
  induction h with
  | refl s => rfl
  | step ha hm _ ih => exact ih.trans (State.perform_rxbuf ha hm)

theorem Prog.NoArrival.runFor_rxbuf {q : Prog} {n : Nat} {x : Activation} {s t : State} (hq : q.NoArrival)
    (h : Prog.runFor n x q s = .next t) : t.rxbuf = s.rxbuf := by
  obtain ⟨u, hm, -, hr⟩ := Prog.runFor_obeys hq h
  exact hr.trans (Made.rxbuf hm)

/-- However it is cut, a program whose bytes arrive first writes `RXBUF` only where the request is to be filled. -/
theorem Prog.ArrivesFirst.runFor_read {q : Prog} {n : Nat} {x : Activation} {s t : State} {a : Nat} (hq : q.ArrivesFirst)
    (hw : Memory.Wf s.rxbuf) (ha : ¬ s.Writable a) (h : Prog.runFor n x q s = .next t) :
    Memory.read t.rxbuf a = Memory.read s.rxbuf a := by
  cases q with
  | act m k =>
    cases n with
    | zero => cases h; rfl
    | succ n =>
      cases hm : s.perform m with
      | error f => rw [Prog.runFor_fault n x k hm] at h; cases h
      | ok vt =>
        rw [Prog.runFor_succ n x k hm] at h
        rw [Prog.NoArrival.runFor_rxbuf (hq.2 vt.1) h]
        exact State.perform_read_of_not_writable hq.1 hw ha hm
  | _ => rw [Prog.NoArrival.runFor_rxbuf (by trivial) h]

/-- Settles O33: the platform's events shrink the request from below as they fill it, and what then runs lets bytes arrive
with its first micro-step at most. -/
theorem onlyTheRequestWritesRxbuf : Obligations.OnlyTheRequestWritesRxbuf := by
  intro s t a hw h ha
  obtain ⟨u, hp, hd⟩ := step_eq_next h
  have hk : s.KeepsByte a u := hp.keeps (P := s.KeepsByte a) State.KeepsByte.event ⟨hw, ha, rfl⟩
  rcases hd.idle_or_ran with rfl | ⟨n, x, v, hv, hr⟩
  · exact hk.same
  · have hb : v.rxbuf = u.rxbuf := by rw [hv]
    have ho : ¬ v.Writable a := by rw [hv]; exact hk.outside
    have hx := Prog.ArrivesFirst.runFor_read (.rest x v.cfg v.stack) (hb ▸ hk.wf) ho hr
    rw [hx, hb, hk.same]

/-! ## The invariant (10_state R29, R36, R40) -/

theorem State.above_of_nil {s : State} (h : s.stack = []) (c : Ctx) : s.Above c := by
  intro b hb
  rw [h] at hb
  cases hb

/-- What a step does after the platform's part keeps the invariant: a handler starts above what it can preempt, and its
pending event says that nothing of its unit is in progress; the activation on top goes on; the script's operation starts
with nothing in progress. -/
theorem State.Inv.stepDid {u t : State} (hi : u.Inv) (h : StepDid u t) : t.Inv := by
  cases h with
  | idle => exact hi
  | rx n _ running pending preempts eq =>
    have valid : u.rxReqValid = true := (Bool.and_eq_true_iff.1 pending).1
    exact (hi.starts (i := .rxComplete []) running rfl (hi.nested_push (y := .irqRx) (by decide) preempts)
      fun _ => hi.none_of_request running valid).2 t eq
  | tx n _ running pending preempts eq =>
    exact (hi.starts (i := .txComplete) running rfl (hi.nested_push (y := .irqTx) (by decide) preempts)
      fun _ => hi.none_of_transmission running (.inr pending)).2 t eq
  | rng n _ running ready started preempts eq =>
    have taken : u.takeRngByte.Inv := hi.inputs false nofun u.rngData u.script u.sched u.rngLine
    exact (taken.starts (i := .rsProduce u.rngData) running rfl (hi.nested_push (y := .irqRng) (by decide) preempts)
      fun hp => absurd rfl hp).2 t eq
  | resume n a below _ running top eq => exact (hi.goesOn running top).2 t eq
  | call n i rest _ running empty decoded eq =>
    have fetched : State.Inv { u with script := rest } := hi.inputs u.rngReady hi.random u.rngData rest u.sched u.rngLine
    exact (fetched.starts running (decode_script_ok decoded).isOperation (State.above_of_nil empty _)
      fun _ => State.noneOf_of_nil empty _).2 t eq

/-- Settles O54: the platform's events keep the invariant one by one, and so does what then runs. -/
theorem stepKeepsTheInvariant : Obligations.StepKeepsTheInvariant := by
  intro s t hi h
  obtain ⟨u, hp, hd⟩ := step_eq_next h
  exact (hi.platform hp).stepDid hd

/-! ## The fault latch (10_state R39, 60 R203) -/

/-- The block is the same: latch, RandomSource with both pools, framer and multiplexer. -/
structure State.Frozen (s t : State) : Prop where
  latch : SameLatch s t
  random : SameRandom s t
  framer : SameFramer s t
  mux : SameMux s t

theorem State.Frozen.refl (s : State) : s.Frozen s := ⟨.refl s, .refl s, .refl s, .refl s⟩

theorem State.Frozen.trans {s t u : State} (h : s.Frozen t) (h' : t.Frozen u) : s.Frozen u :=
  ⟨h.latch.trans h'.latch, h.random.trans h'.random, h.framer.trans h'.framer, h.mux.trans h'.mux⟩

/-- The platform's flags and the inputs are no part of the block (10_state R42). -/
theorem State.Frozen.inputs (s : State) (flight done ready : Bool) (data : Byte) (line : List Byte) (sched : List Slot) :
    s.Frozen { s with
      txFlight := flight, txDone := done, rngReady := ready, rngData := data, rngLine := line, sched := sched } :=
  ⟨⟨rfl, rfl, rfl⟩, ⟨rfl, rfl, rfl⟩, ⟨rfl, rfl, rfl, rfl, rfl, rfl, rfl⟩, ⟨rfl, rfl, rfl, rfl, rfl⟩⟩

/-- Once halted, the platform changes its own flags only: it stores no byte, and the first fault is kept. -/
theorem EventDid.frozen {s t : State} (hh : s.halted = true) (h : EventDid s t) : s.Frozen t := by
  cases h with
  | quiet => exact .refl s
  | stored b line running => rw [hh] at running; cases running
  | sent => exact .inputs s false true s.rngReady s.rngData s.rngLine s.sched
  | drawn b line => exact .inputs s s.txFlight s.txDone true b line s.sched
  | failed info => rw [State.raiseFatal_of_halted hh]; exact .refl s

theorem State.platform_of_halted {s : State} (hh : s.halted = true) (e : PlatEvent) :
    ∃ t, s.platform e = .next t ∧ s.Frozen t := by
  cases he : s.platform e with
  | next t => exact ⟨t, rfl, (State.platform_eq_next he).frozen hh⟩
  | fault f => exact absurd he (State.platform_ne_fault fun running => by rw [hh] at running; cases running)
  | refused r => exact absurd he State.platform_ne_refused

theorem platformAll_of_halted (es : List PlatEvent) {s : State} (hh : s.halted = true) :
    ∃ t, platformAll es s = .next t ∧ s.Frozen t := by
  induction es generalizing s with
  | nil => exact ⟨s, rfl, .refl s⟩
  | cons e es ih =>
    obtain ⟨t, ht, hf⟩ := State.platform_of_halted hh e
    obtain ⟨u, hu, hf'⟩ := ih (hf.latch.halted.trans hh)
    exact ⟨u, by rw [platformAll, ht]; exact hu, hf.trans hf'⟩

/-- A step of a halted block is the platform's part alone, and leaves the block as it was (log 17). -/
theorem step_of_halted {s : State} (hh : s.halted = true) : ∃ t, step s = .next t ∧ s.Frozen t := by
  have popped := State.Frozen.inputs s s.txFlight s.txDone s.rngReady s.rngData s.rngLine s.sched.tail
  obtain ⟨t, ht, hf⟩ := platformAll_of_halted s.slot.events (popped.latch.halted.trans hh)
  have tick : s.platformTick = .next t := ht
  have halted : t.halted = true := (popped.trans hf).latch.halted.trans hh
  exact ⟨t, by simp only [step, tick, State.advance, halted, if_true], popped.trans hf⟩

theorem runSteps_of_halted (k : Nat) {s : State} (hh : s.halted = true) : ∃ t, runSteps k s = .next t ∧ s.Frozen t := by
  induction k generalizing s with
  | zero => exact ⟨s, rfl, .refl s⟩
  | succ k ih =>
    obtain ⟨t, ht, hf⟩ := step_of_halted hh
    obtain ⟨u, hu, hf'⟩ := ih (hf.latch.halted.trans hh)
    exact ⟨u, by rw [runSteps, ht]; exact hu, hf.trans hf'⟩

/-- Settles O42, by induction on the number of steps. -/
theorem haltedBlockIsFrozen : Obligations.HaltedBlockIsFrozen := by
  intro k s hh
  obtain ⟨t, ht, hf⟩ := runSteps_of_halted k hh
  exact ⟨fun i => exec_of_halted i hh, t, ht, hf.latch, hf.random, hf.framer, hf.mux⟩

/-! ## What only grows: `halted` and `rs_started` (10_state R26, R39) -/

/-- The configuration is the same, and `halted` and `rs_started` stay true. -/
structure State.Onward (s t : State) : Prop where
  cfg : t.cfg = s.cfg
  halted : s.halted = true → t.halted = true
  started : s.rsStarted = true → t.rsStarted = true

theorem State.Onward.refl (s : State) : s.Onward s := ⟨rfl, id, id⟩

theorem State.Onward.trans {s t u : State} (h : s.Onward t) (h' : t.Onward u) : s.Onward u :=
  ⟨h'.cfg.trans h.cfg, h'.halted ∘ h.halted, h'.started ∘ h.started⟩

theorem State.Onward.raiseFatal (s : State) (c : FatalCode) (info : Nat) : s.Onward (s.raiseFatal c info) := by
  unfold State.raiseFatal
  split
  · exact .refl s
  · exact ⟨rfl, fun _ => rfl, id⟩

theorem EventDid.onward {s t : State} (h : EventDid s t) : s.Onward t := by
  cases h with
  | quiet => exact .refl s
  | stored => exact ⟨rfl, id, id⟩
  | sent => exact ⟨rfl, id, id⟩
  | drawn => exact ⟨rfl, id, id⟩
  | failed info => exact .raiseFatal s _ info

theorem Made.onward {P : Micro → Prop} {s t : State} (h : Made P s t) : s.Onward t :=
  ⟨h.unmoved.cfg, h.unmoved.halted.trans, h.random.1⟩

theorem Ended.onward {p : Part} {c : Ctx} {s t : State} (h : Ended p c s t) : s.Onward t := by
  cases h with
  | returns r => exact ⟨rfl, id, id⟩
  | fatal code info => exact (State.Onward.raiseFatal s code info).trans ⟨rfl, id, id⟩
  | stays call seen => exact ⟨rfl, id, id⟩

theorem StepDid.onward {s t : State} (h : StepDid s t) : s.Onward t := by
  rcases h.idle_or_ran with rfl | ⟨n, a, v, hv, hr⟩
  · exact .refl t
  · obtain ⟨u, hm, he⟩ := Prog.runFor_eq_next (.rest a v.cfg v.stack) rfl hr
    have start : s.Onward v := by rw [hv]; exact ⟨rfl, id, id⟩
    exact start.trans (hm.onward.trans he.onward)

/-- Settles O43: no event, micro-step or end of a program clears either flag. -/
theorem stepNeverClearsHaltedOrStarted : Obligations.StepNeverClearsHaltedOrStarted := by
  intro s t h
  obtain ⟨u, hp, hd⟩ := step_eq_next h
  have platform : s.Onward u := hp.keeps (P := s.Onward) (fun hs he => hs.trans he.onward) ⟨rfl, id, id⟩
  obtain ⟨cfg, halted, started⟩ := platform.trans hd.onward
  exact ⟨cfg, halted, started⟩

/-! ## Reset (10_state R43) -/

/-- Settles O51: every slot of a pool reads 0x00 because none is listed; the rest is what `State.reset` says. -/
theorem resetLeavesTheStatedValues : Obligations.ResetLeavesTheStatedValues := by
  have slots : ∀ i < 65, Memory.read State.reset.high.slots i = 0x00#8 ∧ Memory.read State.reset.low.slots i = 0x00#8 :=
    fun i _ => ⟨Memory.read_nil i, Memory.read_nil i⟩
  exact ⟨rfl, rfl, rfl, rfl, slots, rfl, rfl, rfl, rfl, rfl, rfl, rfl, rfl, rfl, rfl, rfl, rfl, rfl, rfl, rfl⟩

theorem Memory.wf_nil : Memory.Wf [] := ⟨.nil, nofun⟩

theorem Memory.within_nil (n : Nat) : Memory.Within [] n := nofun

theorem State.reset_memoryWf : State.reset.MemoryWf :=
  have pool : RingPool.reset.Wf := ⟨Memory.wf_nil, Memory.within_nil _⟩
  ⟨pool, pool, Memory.wf_nil, Memory.within_nil _, Memory.wf_nil, Memory.within_nil _⟩

theorem State.reset_framerOk : State.reset.FramerOk := ⟨nofun, nofun, nofun, fun _ => rfl⟩

theorem State.reset_muxOk : State.reset.MuxOk := ⟨⟨nofun, nofun⟩, nofun, nofun, nofun⟩

/-- Settles O53: at reset nothing is in progress, and each unit is as between its operations. -/
theorem resetMeetsTheInvariant : Obligations.ResetMeetsTheInvariant where
  memory := State.reset_memoryWf
  latch := ⟨fun _ => ⟨rfl, rfl⟩, nofun⟩
  random := nofun
  nested := .nil
  oneEach := .nil
  framer _ _ := State.reset_framerOk
  framing _ _ _ hs := absurd (mem_of_cons_suffix hs) List.not_mem_nil
  mux _ _ := State.reset_muxOk
  muxing _ _ _ hs := absurd (mem_of_cons_suffix hs) List.not_mem_nil

end Sys2Proof.Machine
end

section
/-! The statements of 20_memory.md: bounds of the four byte spaces, publish order, and operations cut between their
micro-steps. -/

namespace Sys2Proof.Machine

/-! ## Every access is inside its byte space (20_memory R50 to R53) -/

theorem KeepsInv.next {s : State} (hi : s.Inv) : KeepsInv (.next s) :=
  ⟨nofun, fun t h => by cases h; exact hi⟩

theorem KeepsInv.refused (r : Refusal) : KeepsInv (.refused r) :=
  ⟨nofun, fun t h => by cases h⟩

/-- An operation starts above what is in progress, with nothing of its unit in progress. -/
theorem State.Inv.launch {s : State} {i : Instr} (hi : s.Inv) (running : s.halted = false) (ho : i.isOperation = true)
    (above : s.Above (Instr.context i s.runningCtx)) (alone : Instr.part i ≠ .pools → s.NoneOf (Instr.part i))
    (cut : Option Nat) : KeepsInv (s.launch i cut) := by
  obtain ⟨n, hn⟩ := State.launch_eq running i cut
  rw [hn]
  exact hi.starts running ho above alone

/-- The activation on top of the stack goes on. -/
theorem State.Inv.proceed {s : State} {a : Activation} {below : List Activation} (hi : s.Inv) (running : s.halted = false)
    (top : s.stack = a :: below) (cut : Option Nat) : KeepsInv (State.proceed { s with stack := below } a cut) := by
  obtain ⟨n, hn⟩ := State.proceed_eq { s with stack := below } a cut
  rw [hn]
  exact hi.goesOn running top

/-- A pending interrupt that can preempt what runs is handled: what it is pending for says that no operation of its unit is
in progress. -/
theorem State.Inv.handle {s : State} {y : Ctx} (hi : s.Inv) (running : s.halted = false) (pending : s.pending y = true)
    (preempts : Config.canPreempt s.cfg y s.runningCtx = true) (cut : Option Nat) : KeepsInv (s.handle y cut) := by
  cases y with
  | main => cases pending
  | irqRx =>
    have valid : s.rxReqValid = true := (Bool.and_eq_true_iff.1 pending).1
    exact hi.launch (i := .rxComplete []) running rfl (hi.nested_push (y := .irqRx) (by decide) preempts)
      (fun _ => hi.none_of_request running valid) cut
  | irqTx =>
    exact hi.launch (i := .txComplete) running rfl (hi.nested_push (y := .irqTx) (by decide) preempts)
      (fun _ => hi.none_of_transmission running (.inr pending)) cut
  | irqRng =>
    have taken : s.takeRngByte.Inv := hi.inputs false nofun s.rngData s.script s.sched s.rngLine
    have above : s.takeRngByte.Above .irqRng := hi.nested_push (by decide) preempts
    exact taken.launch (i := .rsProduce s.rngData) running rfl above (fun hp => absurd rfl hp) cut

/-- The script's next operation starts, with nothing in progress. -/
theorem State.Inv.fetchScript {s : State} (hi : s.Inv) (running : s.halted = false) (empty : s.stack = [])
    (cut : Option Nat) : KeepsInv (s.fetchScript cut) := by
  unfold State.fetchScript
  split
  · exact .next hi
  · split
    · rename_i i rest decoded
      have fetched : State.Inv { s with script := rest } :=
        hi.inputs s.rngReady hi.random s.rngData rest s.sched s.rngLine
      exact fetched.launch running (decode_script_ok decoded).isOperation (State.above_of_nil empty _)
        (fun _ => State.noneOf_of_nil empty _) cut
    · exact .refused _

/-- Whatever runs next accesses no byte that does not exist, and keeps the invariant. -/
theorem State.Inv.advance {s : State} (hi : s.Inv) (cut : Option Nat) : KeepsInv (s.advance cut) := by
  unfold State.advance
  split
  · exact .next hi
  · rename_i hh
    have running : s.halted = false := Bool.eq_false_iff.2 hh
    split
    · rename_i y hy
      obtain ⟨pending, preempts⟩ := State.nextIrq_eq_some hy
      exact hi.handle running pending preempts cut
    · split
      · rename_i a below top
        exact hi.proceed running top cut
      · rename_i empty
        exact hi.fetchScript running empty cut

/-- Settles O55: the platform stores inside the outstanding request, which fits `RXBUF`, and what then runs is on its way,
so that each of its micro-steps exists. -/
theorem noAccessOutsideTheByteSpaces : Obligations.NoAccessOutsideTheByteSpaces := by
  intro s f hi
  have popped : State.Inv { s with sched := s.sched.tail } :=
    hi.inputs s.rngReady hi.random s.rngData s.script s.sched.tail s.rngLine
  unfold step
  split
  · rename_i u tick
    exact ((hi.platform (State.platformTick_eq_next tick)).advance s.slot.cut).1 f
  · rename_i g tick
    exact absurd tick (platformAll_ne_fault popped)
  · nofun

/-! ## An operation cut between its micro-steps (20_memory R62) -/

/-- An activation just suspended and taken off the stack again has left a trace in `result` only. -/
theorem State.suspend_pop (s : State) (a : Activation) :
    { s.suspend a with stack := s.stack } = s.returns .unfinished := rfl

theorem State.setPool_pop_suspend (s : State) (a : Activation) (p : PoolId) (q : RingPool) :
    State.setPool { s.suspend a with stack := s.stack } p q = (s.setPool p q).returns .unfinished := by
  cases p <;> rfl

/-- How an activation goes on does not depend on what the last operation returned (log 26). -/
theorem State.proceed_returns (s : State) (a : Activation) (r : Result) :
    (s.returns r).proceed a none = s.proceed a none := Prog.run_returns _ _ _ _

/-- What is left of an activation runs to its end. -/
theorem State.proceed_none (s : State) (a : Activation) :
    s.proceed a none = (a.rest s.cfg s.stack).run a.ctx s := rfl

/-- `o` is the outcome of something cut in context `c` over the stack of `s`, which uncut has the outcome `whole`: past its
end it is `whole`; else what is left is on top of the stack with nothing returned, and going on at once gives `whole`. -/
def CutOf (s : State) (c : Ctx) (whole o : Out) : Prop :=
  o = whole ∨ ∃ b t, o = .next t ∧ t.stack = b :: s.stack ∧ t.result = .unfinished ∧ b.ctx = c ∧
    State.proceed { t with stack := s.stack } b none = whole

/-- An activation suspended as it stands goes on as it would have. -/
theorem CutOf.suspend (s : State) (a : Activation) :
    CutOf s a.ctx ((a.rest s.cfg s.stack).run a.ctx s) (.next (s.suspend a)) :=
  .inr ⟨a, s.suspend a, rfl, rfl, rfl, rfl, by rw [State.suspend_pop, State.proceed_returns, State.proceed_none]⟩

/-- A program cut anywhere goes on where it was: the answers its micro-steps have had lead past them. -/
theorem Prog.runFor_cutOf {q : Prog} {n : Nat} {a : Activation} {s : State} (hr : a.rest s.cfg s.stack = q) :
    CutOf s a.ctx (q.run a.ctx s) (Prog.runFor n a q s) := by
  induction q generalizing n a s with
  | done r => exact .inl (Prog.runFor_done n a r s)
  | refuse r => exact .inl (Prog.runFor_refuse n a r s)
  | stay c => exact .inl (Prog.runFor_stay n a c s)
  | fatal c info =>
    cases n with
    | zero => rw [Prog.runFor_fatal_zero, ← hr]; exact .suspend s a
    | succ n => exact .inl (Prog.runFor_fatal n a c info s)
  | act m k ih =>
    cases n with
    | zero => rw [Prog.runFor_zero, ← hr]; exact .suspend s a
    | succ n =>
      cases hm : s.perform m with
      | error f => exact .inl (by rw [Prog.runFor_fault n a k hm, Prog.run_act_fault hm])
      | ok vt =>
        obtain ⟨v, t⟩ := vt
        have un := State.perform_unmoved hm
        have past : Activation.rest { a with seen := a.seen ++ [v] } t.cfg t.stack = k v := by
          rw [un.cfg, un.stack]
          exact Prog.after_append _ _ _ _ _ hr
        have rest := ih v (n := n) past
        unfold CutOf at rest ⊢
        rw [un.stack] at rest
        rw [Prog.runFor_succ n a k hm, Prog.run_act hm]
        exact rest

/-- Settles O48: starting is going on from an activation that has had no answer yet. -/
theorem cutOperationGoesOnWhereItWas : Obligations.CutOperationGoesOnWhereItWas := by
  constructor
  · intro i k s running
    let a : Activation := ⟨Instr.context i s.runningCtx, .op i, []⟩
    have fresh : a.rest s.cfg s.stack = Instr.prog i (s.around a.ctx) := Prog.after_nil _
    rw [exec_of_running i running]
    exact Prog.runFor_cutOf (n := k + 1) fresh
  · intro a k s
    exact Prog.runFor_cutOf (n := k + 1) rfl

/-! ## The stack of what is in progress (20_memory R62, 60 R214) -/

/-- The configuration and what is in progress are the same. -/
structure State.SamePlace (s t : State) : Prop where
  cfg : t.cfg = s.cfg
  ctx : t.ctx = s.ctx
  stack : t.stack = s.stack

theorem State.SamePlace.trans {s t u : State} (h : s.SamePlace t) (h' : t.SamePlace u) : s.SamePlace u :=
  ⟨h'.cfg.trans h.cfg, h'.ctx.trans h.ctx, h'.stack.trans h.stack⟩

theorem State.SamePlace.runningCtx {s t : State} (h : s.SamePlace t) : t.runningCtx = s.runningCtx := by
  unfold State.runningCtx
  rw [h.stack, h.ctx]

/-- No event of the platform starts, ends or moves what is in progress. -/
theorem EventDid.samePlace {s t : State} (h : EventDid s t) : s.SamePlace t := by
  cases h with
  | quiet => exact ⟨rfl, rfl, rfl⟩
  | stored => exact ⟨rfl, rfl, rfl⟩
  | sent => exact ⟨rfl, rfl, rfl⟩
  | drawn => exact ⟨rfl, rfl, rfl⟩
  | failed info =>
    unfold State.raiseFatal
    split <;> exact ⟨rfl, rfl, rfl⟩

/-- How the stack `t` has come from that of `s` in a step (20_memory R62). -/
def State.StackMoved (s : State) (t : List Activation) : Prop :=
  t = s.stack ∨
    (∃ x, t = x :: s.stack ∧
      (s.stack = [] ∨ (x.ctx ≠ .main ∧ Config.canPreempt s.cfg x.ctx s.runningCtx = true))) ∨
    ∃ a below, s.stack = a :: below ∧ (t = below ∨ ∃ x, t = x :: below ∧ x.ctx = a.ctx)

theorem State.StackMoved.of_samePlace {s u : State} {t : List Activation} (h : s.SamePlace u) (hm : u.StackMoved t) :
    s.StackMoved t := by
  unfold State.StackMoved at *
  rw [h.stack, h.cfg, h.runningCtx] at hm
  exact hm

/-- What starts in context `c` leaves the stack as it was, or itself on top of it. -/
theorem State.stackMoved_start {u v t : State} {i : Instr} {c : Ctx} {n : Nat} (hv : v.stack = u.stack)
    (hc : u.stack = [] ∨ (c ≠ .main ∧ Config.canPreempt u.cfg c u.runningCtx = true)) {q : Prog}
    (hq : q.Within (Instr.part i)) (h : Prog.runFor n ⟨c, .op i, []⟩ q v = .next t) : u.StackMoved t.stack := by
  rcases Prog.runFor_stack hq rfl h with same | ⟨x, top, ctx, -⟩
  · exact .inl (same.trans hv)
  · refine .inr (.inl ⟨x, by rw [top, hv], ?_⟩)
    rw [ctx]
    exact hc

theorem StepDid.stackMoved {u t : State} (h : StepDid u t) : u.StackMoved t.stack := by
  cases h with
  | idle => exact .inl rfl
  | rx n _ _ _ preempts eq =>
    exact State.stackMoved_start (c := .irqRx) rfl (.inr ⟨nofun, preempts⟩) (Prog.Within.instr (.rxComplete []) _) eq
  | tx n _ _ _ preempts eq =>
    exact State.stackMoved_start (c := .irqTx) rfl (.inr ⟨nofun, preempts⟩)
      (Prog.Within.instr .txComplete (u.around .irqTx)) eq
  | rng n _ _ _ _ preempts eq =>
    exact State.stackMoved_start (v := u.takeRngByte) (c := .irqRng) rfl (.inr ⟨nofun, preempts⟩)
      (Prog.Within.instr (.rsProduce u.rngData) _) eq
  | call n i rest _ _ empty _ eq =>
    exact State.stackMoved_start (v := { u with script := rest }) rfl (.inl empty) (Prog.Within.instr i _) eq
  | resume n a below _ _ top eq =>
    refine .inr (.inr ⟨a, below, top, ?_⟩)
    rcases Prog.runFor_stack (Prog.Within.rest a u.cfg below) rfl eq with ended | ⟨x, wait, ctx, -⟩
    · exact .inl ended
    · exact .inr ⟨x, wait, ctx⟩

/-- Settles O49: the platform moves nothing; then a handler starts on top of what it can preempt, an operation of the script
on an empty stack, or the activation on top goes on. -/
theorem onlyTheTopActivationGoesOn : Obligations.OnlyTheTopActivationGoesOn := by
  intro s t h
  obtain ⟨u, hp, hd⟩ := step_eq_next h
  have place : s.SamePlace u := hp.keeps (P := s.SamePlace) (fun hs he => hs.trans he.samePlace) ⟨rfl, rfl, rfl⟩
  exact hd.stackMoved.of_samePlace place

/-! ## What an operation of a pool has left to do once it has read its indices (20_memory R63, R66) -/

theorem RingPool.nextIndex_of_full {p : RingPool} (h : p.full = true) : nextIndex p.w = p.r := beq_iff_eq.1 h

theorem RingPool.nextIndex_of_not_full {p : RingPool} (h : p.full = false) : nextIndex p.w ≠ p.r := beq_eq_false_iff_ne.1 h

/-- The slot at the write index exists, and its write is that of an enqueue. -/
theorem State.perform_enqStore (s : State) (p : PoolId) (b : Byte) :
    s.perform (.store (slotsOf p) (s.pool p).w.val b) = .ok (.unit, s.setPool p ((s.pool p).enqStore b)) := by
  rw [State.perform, State.store_of_lt (by rw [Config.size_slotsOf]; exact (s.pool p).w.isLt), State.setByte_slotsOf]
  rfl

/-- An enqueue that has found room for the slot `w`: the slot write, and last the index write (20_memory R63). -/
def Prog.enqAt (p : PoolId) (w : Fin ringS) (b : Byte) (k : Result → Prog) : Prog :=
  .act (.store (slotsOf p) w.val b) fun _ => .act (.writeW p (nextIndex w)) fun _ => k .ok

theorem Prog.after_enq (p : PoolId) (b : Byte) (k : Result → Prog) (w r : Fin ringS) (h : nextIndex w ≠ r) :
    (Prog.enq p b k).after [.index w, .index r] = Prog.enqAt p w b k := by
  simp only [Prog.enq, Prog.after, Val.getIndex]
  exact if_neg h

theorem Prog.after_produce (b : Byte) (k : Prog) (w r : Fin ringS) (h : nextIndex w = r) :
    (Prog.produce b k).after [.index w, .index r] =
      .isFull .low fun full => if !full then .enq .low b fun _ => k else k := by
  simp only [Prog.produce, Prog.isFull, Prog.after, Val.getIndex, h, beq_self_eq_true]
  rfl

/-- The routing of a byte that finds `high` full, from its third micro-step on. -/
theorem Prog.runFor_produce {s : State} (h : s.high.full = true) (n : Nat) (a : Activation) (b : Byte) (k : Prog) :
    Prog.runFor (n + 2) a (.produce b k) s =
      Prog.runFor n { a with seen := a.seen ++ [.index s.high.w] ++ [.index s.high.r] }
        (.isFull .low fun full => if !full then .enq .low b fun _ => k else k) s := by
  rw [← Prog.after_produce b k _ _ (RingPool.nextIndex_of_full h)]
  rfl

/-- A vector take that has read the write index as `w` counts with it, whatever it has become. -/
theorem Prog.run_after_takev (c : Ctx) (p : PoolId) (n : Nat) (k : Result → Prog) (w : Fin ringS) (s : State) :
    ((Prog.takev p n k).after [.index w]).run c s =
      (if unreadCount w (s.pool p).r < n then k .notTaken else Prog.deqN p n [] k).run c s := rfl

/-- An enqueue on a pool that is not full is, after its two reads, one that has found room. -/
theorem Prog.run_enq_eq_enqAt {s : State} {p : PoolId} (h : (s.pool p).full = false) (c : Ctx) (b : Byte)
    (k : Result → Prog) : (Prog.enq p b k).run c s = (Prog.enqAt p (s.pool p).w b k).run c s := by
  rw [← Prog.after_enq p b k _ _ (RingPool.nextIndex_of_not_full h), Prog.enq, Prog.run_act rfl, Prog.run_act rfl]
  simp only [Prog.after]

/-! ## Publish order (20_memory R63) -/

/-- An enqueue that finds room, from its third micro-step on. -/
theorem Prog.runFor_enq {s : State} {p : PoolId} (h : (s.pool p).full = false) (n : Nat) (a : Activation) (b : Byte)
    (k : Result → Prog) :
    Prog.runFor (n + 2) a (.enq p b k) s =
      Prog.runFor n { a with seen := a.seen ++ [.index (s.pool p).w] ++ [.index (s.pool p).r] }
        (.enqAt p (s.pool p).w b k) s := by
  rw [← Prog.after_enq p b k _ _ (RingPool.nextIndex_of_not_full h)]
  rfl

/-- An enqueue cut after it has read the indices and found room. -/
theorem State.launch_enq_read {s : State} {p : PoolId} (h : (s.pool p).full = false) (b : Byte) :
    s.launch (.ringEnq p b) (some 1) =
      .next (s.suspend ⟨s.runningCtx, .op (.ringEnq p b), [.index (s.pool p).w, .index (s.pool p).r]⟩) :=
  Prog.runFor_enq h 0 ⟨s.runningCtx, .op (.ringEnq p b), []⟩ b .done

/-- An enqueue cut after its slot write. -/
theorem State.launch_enq_stored {s : State} {p : PoolId} (h : (s.pool p).full = false) (b : Byte) :
    s.launch (.ringEnq p b) (some 2) =
      .next ((s.setPool p ((s.pool p).enqStore b)).suspend
        ⟨s.runningCtx, .op (.ringEnq p b), [.index (s.pool p).w, .index (s.pool p).r, .unit]⟩) := by
  refine (Prog.runFor_enq h 1 ⟨s.runningCtx, .op (.ringEnq p b), []⟩ b .done).trans ?_
  rw [Prog.enqAt, Prog.runFor_succ _ _ _ (s.perform_enqStore p b), Prog.runFor_zero]
  rfl

/-- What is left of an enqueue after its slot write is the index write. -/
theorem Prog.after_enq_stored (p : PoolId) (b : Byte) (k : Result → Prog) {w r : Fin ringS} (h : nextIndex w ≠ r) :
    (Prog.enq p b k).after [.index w, .index r, .unit] = .act (.writeW p (nextIndex w)) fun _ => k .ok :=
  Prog.after_append _ _ .unit _ _ (Prog.after_enq p b k w r h)

theorem exec_enq_of_not_full {s : State} (running : s.halted = false) {p : PoolId} (h : (s.pool p).full = false)
    (b : Byte) : exec (.ringEnq p b) s = .next ((s.setPool p ((s.pool p).enqStore b).enqPublish).returns .ok) := by
  rw [exec_of_running _ running]
  change (Prog.enq p b .done).run _ s = _
  rw [Prog.run_enq, State.enqueue_of_not_full h, Prog.run_done]

/-- Settles O8: the slot write shows the consumer nothing, and what it has left is the index write, which does. -/
theorem enqueuePublishesByIndexWrite : Obligations.EnqueuePublishesByIndexWrite := by
  intro p b s running wf room
  let a : Activation := ⟨s.runningCtx, .op (.ringEnq p b), [.index (s.pool p).w, .index (s.pool p).r, .unit]⟩
  let stored := (s.setPool p ((s.pool p).enqStore b)).suspend a
  have pool : stored.pool p = (s.pool p).enqStore b := by rw [State.pool_suspend, State.pool_setPool]
  have left (around : Around) : (Call.prog a.call around).after a.seen =
      .act (.writeW p (nextIndex (s.pool p).w)) fun _ => .done .ok :=
    Prog.after_enq_stored p b .done (RingPool.nextIndex_of_not_full room)
  have published : State.proceed { stored with stack := s.stack } a (some 0) =
      .next ((s.setPool p ((s.pool p).enqStore b).enqPublish).returns .ok) := by
    rw [State.proceed, left, Prog.runFor_succ _ _ _ rfl, Prog.runFor_done]
    cases p <;> rfl
  refine ⟨a, stored, _, State.launch_enq_stored room b, ?_, ?_, ?_, ?_, published, ?_,
    exec_enq_of_not_full running room b⟩
  · cases p <;> rfl
  · rw [pool]
    exact Memory.read_write_same wf.1 _ b
  · rw [pool]
    rfl
  · rw [pool]
    exact RingPool.enqStore_unread wf.1 b
  · rw [State.pool_returns, State.pool_setPool]
    exact RingPool.enq_unread wf.1 room b

/-! ## Indices read before a preemption are used after it (20_memory R66) -/

/-- What is suspended on top of `s` goes on over another content of a pool as if it had been suspended there. -/
theorem State.proceed_pop_setPool (s : State) (x a : Activation) (p : PoolId) (q : RingPool) :
    State.proceed (State.setPool { s.suspend x with stack := s.stack } p q) a none =
      ((Call.prog a.call (s.around a.ctx)).after a.seen).run a.ctx (s.setPool p q) := by
  rw [State.setPool_pop_suspend, State.proceed_returns]
  cases p <;> rfl

/-- A random byte whose producer has read `high` as full goes to `low`, or is dropped, whatever `high` has become. -/
theorem State.produce_diverts {s : State} (b : Byte) (sole : (s.around .irqRng).producing = false)
    (full : s.high.full = true) (wf : s.low.Wf) :
    ∃ a t, s.launch (.rsProduce b) (some 1) = .next t ∧ t.stack = a :: s.stack ∧
      ∀ q, (s.low.full = false → ∃ l, State.proceed { t with stack := s.stack, high := q } a none =
          .next { s with high := q, low := l, result := .nothing } ∧ l.unread = s.low.unread ++ [b]) ∧
        (s.low.full = true → State.proceed { t with stack := s.stack, high := q } a none =
          .next { s with high := q, result := .nothing }) := by
  let a : Activation := ⟨.irqRng, .op (.rsProduce b), [.index s.high.w, .index s.high.r]⟩
  have prog : Instr.prog (.rsProduce b) (s.around .irqRng) = .produce b (.done .nothing) :=
    if_neg (by rw [sole]; decide)
  have cut : s.launch (.rsProduce b) (some 1) = .next (s.suspend a) := by
    change Prog.runFor 2 ⟨.irqRng, .op (.rsProduce b), []⟩ (Instr.prog (.rsProduce b) (s.around .irqRng)) s = _
    rw [prog]
    exact Prog.runFor_produce full 0 _ b _
  refine ⟨a, s.suspend a, cut, rfl, fun q => ?_⟩
  have goes : State.proceed { s.suspend a with stack := s.stack, high := q } a none =
      (if !s.low.full then .enq .low b fun _ => .done .nothing else .done .nothing : Prog).run .irqRng
        (s.setPool .high q) := by
    refine (s.proceed_pop_setPool a a .high q).trans ?_
    change ((Instr.prog (.rsProduce b) (s.around .irqRng)).after _).run _ _ = _
    rw [prog, Prog.after_produce b _ _ _ (RingPool.nextIndex_of_full full), Prog.run_isFull]
    rfl
  rw [goes]
  constructor
  · intro room
    have room' : ((s.setPool .high q).pool .low).full = false := room
    refine ⟨(s.low.enqStore b).enqPublish, ?_, RingPool.enq_unread wf.1 room b⟩
    rw [room, if_pos (by decide), Prog.run_enq, State.enqueue_of_not_full room']
    rfl
  · intro full'
    rw [full', if_neg (by decide)]
    rfl

/-- A vector take that has read the write index finds with it too few bytes, or takes what a take that starts then does. -/
theorem State.takev_counts_with_read {s : State} (running : s.halted = false) (p : PoolId) (n : Nat) :
    ∃ a t, s.launch (.ringTakev p n) (some 0) = .next t ∧ t.stack = a :: s.stack ∧
      ∀ q, q.r = (s.pool p).r →
        ((s.pool p).count < n →
          State.proceed (State.setPool { t with stack := s.stack } p q) a none =
            .next ((s.setPool p q).returns .notTaken)) ∧
        (n ≤ (s.pool p).count → n ≤ q.count →
          State.proceed (State.setPool { t with stack := s.stack } p q) a none =
            exec (.ringTakev p n) (s.setPool p q)) := by
  let a : Activation := ⟨s.runningCtx, .op (.ringTakev p n), [.index (s.pool p).w]⟩
  refine ⟨a, s.suspend a, rfl, rfl, fun q hr => ?_⟩
  have goes : State.proceed (State.setPool { s.suspend a with stack := s.stack } p q) a none =
      (if (s.pool p).count < n then .done .notTaken else Prog.deqN p n [] .done).run s.runningCtx (s.setPool p q) := by
    refine (s.proceed_pop_setPool a a p q).trans ((Prog.run_after_takev _ p n _ _ _).trans ?_)
    rw [State.pool_setPool, hr]
    rfl
  rw [goes]
  constructor
  · intro few
    rw [if_pos few, Prog.run_done]
  · intro enough enough'
    rw [if_neg (Nat.not_lt.2 enough), exec_of_running _ (by rw [State.setPool_halted, running]), State.runningCtx_setPool]
    change _ = (Prog.takev p n .done).run s.runningCtx (s.setPool p q)
    rw [Prog.takev, Prog.run_count, State.pool_setPool, if_neg (Nat.not_lt.2 enough')]

/-- An enqueue that has found room stores as one that starts then does, as long as there is room. -/
theorem State.enq_stores_where_read {s : State} (running : s.halted = false) (p : PoolId) (b : Byte)
    (room : (s.pool p).full = false) :
    ∃ a t, s.launch (.ringEnq p b) (some 1) = .next t ∧ t.stack = a :: s.stack ∧
      ∀ q, q.w = (s.pool p).w → q.full = false →
        State.proceed (State.setPool { t with stack := s.stack } p q) a none = exec (.ringEnq p b) (s.setPool p q) := by
  let a : Activation := ⟨s.runningCtx, .op (.ringEnq p b), [.index (s.pool p).w, .index (s.pool p).r]⟩
  refine ⟨a, s.suspend a, State.launch_enq_read room b, rfl, fun q hw room' => ?_⟩
  calc State.proceed (State.setPool { s.suspend a with stack := s.stack } p q) a none
      = ((Prog.enq p b .done).after a.seen).run s.runningCtx (s.setPool p q) := s.proceed_pop_setPool a a p q
    _ = (Prog.enqAt p (s.pool p).w b .done).run s.runningCtx (s.setPool p q) := by
        rw [Prog.after_enq p b _ _ _ (RingPool.nextIndex_of_not_full room)]
    _ = (Prog.enq p b .done).run s.runningCtx (s.setPool p q) := by
        rw [Prog.run_enq_eq_enqAt (by rw [State.pool_setPool, room']), State.pool_setPool, hw]
    _ = exec (.ringEnq p b) (s.setPool p q) := by
        rw [exec_of_running _ (by rw [State.setPool_halted, running]), State.runningCtx_setPool]
        rfl

/-- Settles O50: each operation goes on with the values it has read, and what it alone writes has not changed. -/
theorem staleIndexReadsAreSafe : Obligations.StaleIndexReadsAreSafe := fun _ running =>
  ⟨fun b sole full wf => State.produce_diverts b sole full wf, State.takev_counts_with_read running,
    State.enq_stores_where_read running⟩

end Sys2Proof.Machine
end

section
/-! The statements of 30_encoding.md: the decoder and the encoder undo each other, and a step runs what the script's bytes
decode to. -/

namespace Sys2Proof

/-! ## Operands (30_encoding R96) -/

theorem readPool_code (f : PoolId → Instr) (p : PoolId) (rest : List Byte) :
    readPool f (p.code :: rest) = .ok (f p, rest) := by
  rw [readPool, poolOfCode_code]

theorem readPoolByte_code (f : PoolId → Byte → Instr) (p : PoolId) (b : Byte) (rest : List Byte) :
    readPoolByte f (p.code :: b :: rest) = .ok (f p b, rest) := by
  rw [readPoolByte, poolOfCode_code]

theorem readBytes_append (f : List Byte → Instr) (bs rest : List Byte) :
    readBytes bs.length f (bs ++ rest) = .ok (f bs, rest) := by
  simp [readBytes]

/-- A count that fits one byte is what its byte says. -/
theorem toNat_ofNat_of_fits {n : Nat} (h : decide (n < 256) = true) : (BitVec.ofNat 8 n).toNat = n := by
  rw [BitVec.toNat_ofNat, Nat.mod_eq_of_lt (of_decide_eq_true h)]

/-! ## The script's decoder answers exactly what `ScriptReads` lists -/

/-- The op-select code picks the operation's own row, whose operands are then read. -/
theorem ScriptReads.decode_eq {n : Nat} {bs rest : List Byte} {i : Instr} (h : ScriptReads n bs i rest) :
    decode (.script n) bs = .ok (i, rest) := by
  cases h with
  | ringInit p => exact readPool_code .ringInit p rest
  | ringIsfull p => exact readPool_code .ringIsfull p rest
  | ringCount p => exact readPool_code .ringCount p rest
  | ringEnq p b => exact readPoolByte_code .ringEnq p b rest
  | ringDeq p => exact readPool_code .ringDeq p rest
  | ringTakev p b => exact readPoolByte_code (fun p n => .ringTakev p n.toNat) p b rest
  | rxComplete bs _ len => subst len; exact readBytes_append .rxComplete bs rest
  | rsInit | rsProduce | rsGethi | rsGetlo | rsGetlob | rxStart | rxByte | txPoll | txComplete => rfl

/-- An operation read with the count in the byte of `k` is read with the count `k`. -/
theorem ScriptReads.count_of_fits {n k : Nat} {bs rest : List Byte} (f : Nat → Instr) (fits : decide (k < 256) = true)
    (h : ScriptReads n bs (f (BitVec.ofNat 8 k).toNat) rest) : ScriptReads n bs (f k) rest := by
  rwa [toNat_ofNat_of_fits fits] at h

/-- The bytes of a well-formed operation are read as that operation, with the request its operand bytes fill. -/
theorem scriptReads_encode {i : Instr} {n : Nat} (rest : List Byte) (wf : i.wellFormed = true)
    (src : i.source = .script n) : ScriptReads n (encode i ++ rest) i rest := by
  cases i with
  | ringInit p => exact .ringInit p rest
  | ringIsfull p => exact .ringIsfull p rest
  | ringCount p => exact .ringCount p rest
  | ringEnq p b => exact .ringEnq p b rest
  | ringDeq p => exact .ringDeq p rest
  | ringTakev p k => exact .count_of_fits (.ringTakev p) wf (.ringTakev p _ rest)
  | rsInit => exact .rsInit rest
  | rsProduce b => exact .rsProduce b rest
  | rsGethi k => exact .count_of_fits .rsGethi wf (.rsGethi _ rest)
  | rsGetlo k => exact .count_of_fits .rsGetlo wf (.rsGetlo _ rest)
  | rsGetlob k => exact .count_of_fits .rsGetlob wf (.rsGetlob _ rest)
  | rxStart => exact .rxStart rest
  | rxComplete bs => exact .rxComplete bs rest (Source.script.inj src)
  | rxByte b => exact .rxByte b rest
  | txPoll => exact .txPoll rest
  | txComplete => exact .txComplete rest
  | rxTypeCmd | rxTypeAcl | rxTypeBad | rxCmdhdrZ | rxCmdhdrNz | rxAclhdrZ | rxAclhdrNz | rxPayload => cases src

theorem ScriptReads.encode_append {n : Nat} {bs rest : List Byte} {i : Instr} (h : ScriptReads n bs i rest) :
    encode i ++ rest = bs := by
  cases h with
  | ringTakev | rsGethi | rsGetlo | rsGetlob =>
    simp only [encode, BitVec.ofNat_toNat, BitVec.setWidth_eq, List.cons_append, List.nil_append]
  | _ => rfl

/-- The one condition on an operation is that a count fits its byte, from which it was read (30_encoding R96). -/
theorem ScriptReads.wellFormed {n : Nat} {bs rest : List Byte} {i : Instr} (h : ScriptReads n bs i rest) :
    i.wellFormed = true := by
  cases h with
  | ringTakev _ b | rsGethi b | rsGetlo b | rsGetlob b => exact decide_eq_true b.isLt
  | _ => rfl

/-- Settles O57. -/
theorem scriptBytesAreTheEncoding : Obligations.ScriptBytesAreTheEncoding := fun _ _ _ _ h =>
  have reads := decode_script_ok h
  ⟨reads.encode_append, reads.wellFormed⟩

/-! ## The framer's decoder (30_encoding section 4, 42 R153) -/

/-- The transition the framer selects from a well-formed transition's own bytes is that transition: what the row of
smaller priority number takes is not well formed (30_encoding R95). -/
theorem decodeFrame_encode {i : Instr} {st : RxState} (rest : List Byte) (wf : i.wellFormed = true)
    (src : i.source = .framer st) : decodeFrame st (encode i ++ rest) = .ok (i, rest) := by
  cases i with
  | rxTypeCmd | rxTypeAcl | rxCmdhdrZ | rxAclhdrZ | rxPayload => cases src; rfl
  | rxTypeBad t =>
    cases src
    obtain ⟨notCmd, notAcl⟩ : t ≠ tCmd ∧ t ≠ tAcl := by simpa [Instr.wellFormed] using wf
    simp [decodeFrame, encode, notCmd, notAcl]
  | rxCmdhdrNz g o l =>
    cases src
    have notZero : l ≠ 0#8 := by simpa [Instr.wellFormed] using wf
    simp [decodeFrame, encode, notZero]
  | rxAclhdrNz h0 h1 l m =>
    cases src
    have notZero : l ≠ 0#8 ∨ m ≠ 0#8 := by simpa [Instr.wellFormed] using wf
    simp only [decodeFrame, encode, List.cons_append, List.nil_append, if_neg (not_and_or.2 notZero)]
  | _ => cases src

/-- Settles O56, for each of the two places an instruction is read from. -/
theorem decodeOfEncodeIsIdentity : Obligations.DecodeOfEncodeIsIdentity := by
  intro i rest wf
  cases src : i.source with
  | script n => exact (scriptReads_encode rest wf src).decode_eq
  | framer st => exact decodeFrame_encode rest wf src

/-- Settles O59: the decoder is evaluated on each word. -/
theorem writtenOutWordsDecode : Obligations.WrittenOutWordsDecode :=
  ⟨rfl, rfl, rfl, rfl, rfl, rfl, rfl, rfl⟩

end Sys2Proof

namespace Sys2Proof.Machine

/-! ## Fetching from the script (30_encoding R96, logs 2 and 3) -/

theorem State.slot_of_nil {s : State} (h : s.sched = []) : s.slot = ⟨[], none⟩ := by
  rw [State.slot, h]; rfl

theorem State.fetchScript_of_nil {s : State} (h : s.script = []) (cut : Option Nat) : s.fetchScript cut = .next s := by
  simp [State.fetchScript, h]

/-- Bytes that decode to an operation are not empty, so it starts. -/
theorem State.fetchScript_of_ok {s : State} {i : Instr} {rest : List Byte}
    (h : decode (.script s.rxReqLen) s.script = .ok (i, rest)) (cut : Option Nat) :
    s.fetchScript cut = State.launch { s with script := rest } i cut := by
  have nonempty : s.script ≠ [] := by
    intro empty
    rw [empty] at h
    cases h
  rw [State.fetchScript, if_neg (by simpa using nonempty), h]

theorem State.fetchScript_of_error {s : State} {e : DecodeError} (nonempty : s.script ≠ [])
    (h : decode (.script s.rxReqLen) s.script = .error e) (cut : Option Nat) :
    s.fetchScript cut = .refused (.badScript e) := by
  rw [State.fetchScript, if_neg (by simpa using nonempty), h]

/-- Settles O60: with no interrupt to take, a step is that of the activation on top, or else the fetch from the script. -/
theorem stepRunsTheDecodedOperation : Obligations.StepRunsTheDecodedOperation := by
  intro s u tick running noIrq
  obtain ⟨resumes, fetches⟩ := step_of_none tick running noIrq
  refine ⟨fun quiet => ?_, fun i rest idle decoded => ?_, resumes, fun idle empty => ?_, fun e idle nonempty bad => ?_⟩
  · rw [State.platformTick_of_nil quiet] at tick
    exact ⟨(Host.Outcome.next.inj tick).symm, by rw [State.slot_of_nil quiet]⟩
  · have starts := (fetches idle).trans (State.fetchScript_of_ok decoded s.slot.cut)
    exact ⟨starts, fun uncut => by rw [starts, uncut, State.launch]⟩
  · rw [fetches idle, State.fetchScript_of_nil empty]
  · rw [fetches idle, State.fetchScript_of_error nonempty bad]

end Sys2Proof.Machine
end

section
/-! The statements of 40_ring_pool.md: what each operation of a pool returns, what it changes and leaves unchanged, and the
FIFO law over any run of them. -/

namespace Sys2Proof.Machine

/-! ## What a pool's flags say of its indices (10_state R22, 40 R110) -/

theorem RingPool.full_iff_indices (p : RingPool) : p.full = true ↔ (p.w.val + 1) % 65 = p.r.val := by
  rw [RingPool.full, beq_iff_eq, Fin.ext_iff, nextIndex_val]

theorem RingPool.full_eq_false_iff_indices (p : RingPool) : p.full = false ↔ (p.w.val + 1) % 65 ≠ p.r.val := by
  rw [← Bool.not_eq_true, p.full_iff_indices]

theorem RingPool.empty_iff_indices (p : RingPool) : p.empty = true ↔ p.w = p.r := beq_iff_eq

theorem RingPool.empty_eq_false_iff_indices (p : RingPool) : p.empty = false ↔ p.w ≠ p.r := beq_eq_false_iff_ne

theorem RingPool.unread_eq_nil {p : RingPool} (h : p.count = 0) : p.unread = [] :=
  List.length_eq_zero_iff.1 (p.length_unread.trans h)

/-- After `RING.INIT` both indices are 0, so nothing is unread (40 R111). -/
theorem RingPool.init_count (p : RingPool) : p.init.count = 0 :=
  (RingPool.empty_iff _).1 ((RingPool.empty_iff_indices _).2 rfl)

/-- A pool has room again once a byte has been taken. -/
theorem RingPool.deqRelease_not_full {p : RingPool} (h : p.empty = false) : p.deqRelease.full = false := by
  have := p.count_le
  have := RingPool.deq_count h
  exact RingPool.not_full_iff _ |>.2 (by omega)

/-- A pool holds a byte once one has been accepted. -/
theorem RingPool.enqPublish_not_empty {p : RingPool} (h : p.full = false) (b : Byte) :
    (p.enqStore b).enqPublish.empty = false := by
  have := RingPool.enq_count h b
  exact RingPool.not_empty_iff _ |>.2 (by omega)

/-- An enqueue keeps the slots' canonical form and bounds. -/
theorem RingPool.enqPublish_wf {p : RingPool} (h : p.full = false) (hp : p.Wf) (b : Byte) :
    (p.enqStore b).enqPublish.Wf := RingPool.enq_wf (RingPool.enq_of_not_full h b) hp

/-! ## The operations of a block that is not halted -/

theorem State.setPool_pool (s : State) (p : PoolId) : s.setPool p (s.pool p) = s := by cases p <;> rfl

/-- The pool after an operation that leaves `q` of it. -/
theorem State.pool_setPool_returns (s : State) (p : PoolId) (q : RingPool) (r : Result) :
    ((s.setPool p q).returns r).pool p = q := by rw [State.pool_returns, State.pool_setPool]

/-- An operation of a pool raises no fatal condition. -/
theorem State.setPool_returns_running {s : State} (running : s.halted = false) (p : PoolId) (q : RingPool) (r : Result) :
    ((s.setPool p q).returns r).halted = false := by rw [State.returns_halted, State.setPool_halted, running]

section
variable {s : State} (running : s.halted = false) (p : PoolId)
include running

theorem exec_ringInit : exec (.ringInit p) s = .next ((s.setPool p (s.pool p).init).returns .nothing) :=
  (exec_of_running _ running).trans (Prog.run_init _ p (.done .nothing) s)

theorem exec_ringIsfull : exec (.ringIsfull p) s = .next (s.returns (.bool (s.pool p).full)) :=
  (exec_of_running _ running).trans (Prog.run_isFull _ p (fun b => .done (.bool b)) s)

theorem exec_ringCount : exec (.ringCount p) s = .next (s.returns (.count (s.pool p).count)) :=
  (exec_of_running _ running).trans (Prog.run_count _ p (fun n => .done (.count n)) s)

theorem exec_ringEnq (b : Byte) : exec (.ringEnq p b) s = .next ((s.enqueue p b).2.returns (s.enqueue p b).1) :=
  (exec_of_running _ running).trans (Prog.run_enq _ p b .done s)

theorem exec_ringDeq : exec (.ringDeq p) s = .next ((s.dequeue p).2.returns (s.dequeue p).1) :=
  (exec_of_running _ running).trans (Prog.run_deq _ p .done s)

theorem exec_ringTakev (n : Nat) : exec (.ringTakev p n) s = .next ((s.take p n).2.returns (s.take p n).1) :=
  (exec_of_running _ running).trans (Prog.run_takev _ p n .done s)

variable {p}

theorem exec_enq_of_full (full : (s.pool p).full = true) (b : Byte) :
    exec (.ringEnq p b) s = .next (s.returns .capacity) := by
  rw [exec_ringEnq running, State.enqueue_of_full full]

theorem exec_deq_of_not_empty (nonempty : (s.pool p).empty = false) :
    exec (.ringDeq p) s = .next ((s.setPool p (s.pool p).deqRelease).returns (.byte (s.pool p).deqLoad)) := by
  rw [exec_ringDeq running, State.dequeue_of_not_empty nonempty]

theorem exec_deq_of_empty (empty : (s.pool p).empty = true) :
    exec (.ringDeq p) s = .next (s.returns .underflow) := by
  rw [exec_ringDeq running, State.dequeue_of_empty empty]

theorem exec_takev_of_gt {n : Nat} (short : (s.pool p).count < n) :
    exec (.ringTakev p n) s = .next (s.returns .notTaken) := by
  rw [exec_ringTakev running, State.take_of_gt short]

end

/-! ## The FIFO law (40 R120) -/

/-- The operation `i` leaves `q` of the pool `p` and returns `r`: the bytes it takes come off the front of the unread ones,
and the byte it accepts goes to their end (40 R120). -/
def RingPool.FifoStep (p : RingPool) (i : Instr) (r : Result) (q : RingPool) : Prop :=
  q.Wf ∧ p.unread ++ accepted i r = returned i r ++ q.unread

/-- An operation that rejects accepts nothing, takes nothing and leaves the pool. -/
theorem RingPool.FifoStep.rejected {p : RingPool} (wf : p.Wf) {i : Instr} {r : Result} (none_in : accepted i r = [])
    (none_out : returned i r = []) : p.FifoStep i r p :=
  ⟨wf, by rw [none_in, none_out, List.append_nil, List.nil_append]⟩

theorem RingPool.FifoStep.enq {p : RingPool} (wf : p.Wf) (room : p.full = false) (x : PoolId) (b : Byte) :
    p.FifoStep (.ringEnq x b) .ok (p.enqStore b).enqPublish :=
  ⟨RingPool.enqPublish_wf room wf b, (RingPool.enq_unread wf.1 room b).symm⟩

theorem RingPool.FifoStep.deq {p : RingPool} (wf : p.Wf) (nonempty : p.empty = false) (x : PoolId) :
    p.FifoStep (.ringDeq x) (.byte p.deqLoad) p.deqRelease :=
  ⟨wf, (List.append_nil _).trans (RingPool.deq_unread nonempty)⟩

theorem RingPool.FifoStep.takev {p q : RingPool} {n : Nat} (wf : q.Wf) (rest : q.unread = p.unread.drop n) (x : PoolId) :
    p.FifoStep (.ringTakev x n) (.taken (p.unread.take n)) q :=
  ⟨wf, by rw [rest]; exact (List.append_nil _).trans (List.take_append_drop n p.unread).symm⟩

/-- Every operation of the producer or the consumer of a pool returns, changes that pool only, and keeps its order. -/
theorem exec_fifoStep {s : State} (running : s.halted = false) {p : PoolId} (wf : (s.pool p).Wf) {i : Instr}
    (uses : usesPool p i = true) :
    ∃ q r, exec i s = .next ((s.setPool p q).returns r) ∧ (s.pool p).FifoStep i r q := by
  have unchanged (r : Result) (h : exec i s = .next (s.returns r)) (none_in : accepted i r = [])
      (none_out : returned i r = []) :
      ∃ q r, exec i s = .next ((s.setPool p q).returns r) ∧ (s.pool p).FifoStep i r q :=
    ⟨s.pool p, r, by rw [s.setPool_pool, h], .rejected wf none_in none_out⟩
  cases i
  case ringEnq x b =>
    obtain rfl : x = p := beq_iff_eq.1 uses
    cases room : (s.pool x).full with
    | false => exact ⟨_, _, exec_enq_of_not_full running room b, .enq wf room x b⟩
    | true => exact unchanged .capacity (exec_enq_of_full running room b) rfl rfl
  case ringDeq x =>
    obtain rfl : x = p := beq_iff_eq.1 uses
    cases empty : (s.pool x).empty with
    | false => exact ⟨_, _, exec_deq_of_not_empty running empty, .deq wf empty x⟩
    | true => exact unchanged .underflow (exec_deq_of_empty running empty) rfl rfl
  case ringTakev x n =>
    obtain rfl : x = p := beq_iff_eq.1 uses
    obtain ⟨short, -⟩ | ⟨-, q, took, keeps, rest⟩ := s.take_cases x n
    · exact unchanged .notTaken (exec_takev_of_gt running short) rfl rfl
    · exact ⟨q, _, by rw [exec_ringTakev running, took], .takev (keeps wf) rest x⟩
  all_goals cases uses

/-- Settles O6, by induction on the list: each operation keeps the order of the bytes. -/
theorem poolRunsAreFifo : Obligations.PoolRunsAreFifo := by
  intro p is
  induction is with
  | nil => exact fun s _ wf _ => ⟨[], [], s, rfl, List.append_nil _, wf⟩
  | cons i is ih =>
    intro s running wf uses
    obtain ⟨q, x, ran, wf', step⟩ := exec_fifoStep running wf (uses i List.mem_cons_self)
    have pool := s.pool_setPool_returns p q x
    obtain ⟨a, r, t, rest, law, wfEnd⟩ := ih ((s.setPool p q).returns x)
      (State.setPool_returns_running running p q x) (by rw [pool]; exact wf')
      fun j hj => uses j (List.mem_cons_of_mem i hj)
    refine ⟨accepted i x ++ a, returned i x ++ r, t, by simp only [poolRun, ran, rest, State.returns_result], ?_, wfEnd⟩
    calc (s.pool p).unread ++ (accepted i x ++ a)
        = returned i x ++ (q.unread ++ a) := by rw [← List.append_assoc, step, List.append_assoc]
      _ = returned i x ++ r ++ (t.pool p).unread := by rw [← pool, law, List.append_assoc]

/-! ## Each operation's results and its frame -/

/-- Settles O2: the queries answer `full` and `count`, whose meaning in terms of the indices is the ring's arithmetic. -/
theorem ringQueriesReturnFullAndCount : Obligations.RingQueriesReturnFullAndCount := by
  intro p s running
  have full : (s.pool p).full = decide (((s.pool p).w.val + 1) % 65 = (s.pool p).r.val) :=
    Bool.eq_iff_iff.2 ((s.pool p).full_iff_indices.trans decide_eq_true_iff.symm)
  exact ⟨by rw [exec_ringIsfull running, full], (s.pool p).count, exec_ringCount running p, (s.pool p).count_int,
    (s.pool p).count_le, (s.pool p).full_iff.symm.trans (s.pool p).full_iff_indices,
    (s.pool p).empty_iff.symm.trans (s.pool p).empty_iff_indices⟩

/-- Settles O3: with room, the slot write and the index write of the enqueue; on a full pool, its rejection. -/
theorem ringEnqStoresOrRejects : Obligations.RingEnqStoresOrRejects := by
  intro p b s running wf
  refine ⟨fun notFull => ?_, fun full => exec_enq_of_full running ((s.pool p).full_iff_indices.2 full) b⟩
  have room := (s.pool p).full_eq_false_iff_indices.2 notFull
  exact ⟨_, exec_enq_of_not_full running room b, rfl, rfl, Memory.read_write_same wf.1 _ b,
    fun _ other => Memory.read_write_ne wf.1 other b, RingPool.enq_count room b, RingPool.enqPublish_not_empty room b,
    RingPool.full_iff _⟩

/-- Settles O4: with a byte to take, the slot read and the index write of the dequeue; on an empty pool, its rejection. -/
theorem ringDeqReturnsOldestOrRejects : Obligations.RingDeqReturnsOldestOrRejects := by
  intro p s running
  refine ⟨fun notEmpty => ?_, fun empty => exec_deq_of_empty running ((s.pool p).empty_iff_indices.2 empty)⟩
  have nonempty := (s.pool p).empty_eq_false_iff_indices.2 notEmpty
  exact ⟨_, exec_deq_of_not_empty running nonempty, rfl, rfl, rfl, RingPool.deq_count nonempty,
    RingPool.deqRelease_not_full nonempty, RingPool.empty_iff _⟩

/-- Settles O5: the take's two cases, by whether the pool holds `n` bytes. -/
theorem ringTakevIsAllOrNothing : Obligations.RingTakevIsAllOrNothing := by
  intro p n s running
  refine ⟨fun enough => ?_, exec_takev_of_gt running⟩
  obtain ⟨q, took, hw, hslots, hr, rest, hcount⟩ := State.take_of_le enough
  have length : ((s.pool p).unread.take n).length = n := by
    rw [List.length_take, RingPool.length_unread, Nat.min_eq_left enough]
  exact ⟨q, by rw [exec_ringTakev running, took], hr, hw, hslots, rest, length, hcount⟩

/-- Settles O1: the two index writes of `RING.INIT`. -/
theorem ringInitEmptiesPool : Obligations.RingInitEmptiesPool := by
  intro p s running
  have count := (s.pool p).init_count
  exact ⟨(s.pool p).init, exec_ringInit running p, rfl, rfl, rfl, count, (RingPool.empty_iff _).2 count,
    (RingPool.not_full_iff _).2 (by rw [count]; decide)⟩

/-! ## Filling a pool (40 R121) -/

/-- Enqueues for which the pool has room are all accepted, in order. -/
theorem runOps_enq {p : PoolId} (bs : List Byte) {s : State} (running : s.halted = false) (wf : (s.pool p).Wf)
    (room : (s.pool p).count + bs.length ≤ ringC) :
    ∃ t, runOps (bs.map (Instr.ringEnq p)) s = .next t ∧ t.halted = false ∧
      (t.pool p).unread = (s.pool p).unread ++ bs := by
  induction bs generalizing s with
  | nil => exact ⟨s, rfl, running, (List.append_nil _).symm⟩
  | cons b bs ih =>
    rw [List.length_cons] at room
    have notFull := (s.pool p).not_full_iff.2 (by omega)
    have ran := exec_enq_of_not_full running notFull b
    have count := RingPool.enq_count notFull b
    have unread := RingPool.enq_unread wf.1 notFull b
    have wf' := RingPool.enqPublish_wf notFull wf b
    generalize ((s.pool p).enqStore b).enqPublish = q at ran count unread wf'
    have pool := s.pool_setPool_returns p q .ok
    obtain ⟨t, rest, running', all⟩ := ih (s := (s.setPool p q).returns .ok)
      (State.setPool_returns_running running p q .ok) (by rw [pool]; exact wf') (by rw [pool]; omega)
    refine ⟨t, ?_, running', ?_⟩
    · simp only [List.map_cons, runOps, ran, rest]
    · rw [all, pool, unread, List.append_assoc, List.singleton_append]

/-- Settles O7: an empty pool has room for `C` bytes, and then for none. -/
theorem capacityManyEnqueuesFillThePool : Obligations.CapacityManyEnqueuesFillThePool := by
  intro p bs b s running wf empty length
  obtain ⟨t, ran, running', unread⟩ := runOps_enq bs running wf (by rw [empty, length])
  rw [RingPool.unread_eq_nil empty, List.nil_append] at unread
  have count : (t.pool p).count = 64 := by rw [← RingPool.length_unread, unread, length]
  have full := (t.pool p).full_iff.2 count
  exact ⟨t, ran, full, count, unread, exec_enq_of_full running' full b⟩

/-! ## The producer and the consumer write different registers (40 R119, 20_memory R61) -/

/-- The enqueue writes no slot that holds an unread byte, so the dequeue reads the same byte after it. -/
theorem RingPool.deqLoad_enqPublish {p : RingPool} (wf : p.Wf) (nonempty : p.empty = false) (b : Byte) :
    (p.enqStore b).enqPublish.deqLoad = p.deqLoad := by
  have differ := p.empty_eq_false_iff_indices.1 nonempty
  exact Memory.read_write_ne wf.1 (fun same => differ (Fin.ext same.symm)) b

/-- The two index writes and the slot write are of three different locations. -/
theorem RingPool.enq_deqRelease (p : RingPool) (b : Byte) :
    (p.deqRelease.enqStore b).enqPublish = (p.enqStore b).enqPublish.deqRelease := rfl

/-- Settles O9: in either order the enqueue finds room, the dequeue finds the same byte, and both leave one pool. -/
theorem enqueueCommutesWithDequeue : Obligations.EnqueueCommutesWithDequeue := by
  intro p b s t u running wf nonempty room deq enq
  cases (exec_deq_of_not_empty running nonempty).symm.trans deq
  cases (exec_enq_of_not_full running room b).symm.trans enq
  have room' := RingPool.deqRelease_not_full nonempty
  have nonempty' := RingPool.enqPublish_not_empty room b
  rw [← s.pool_setPool_returns p (s.pool p).deqRelease (.byte (s.pool p).deqLoad)] at room'
  rw [← s.pool_setPool_returns p ((s.pool p).enqStore b).enqPublish .ok] at nonempty'
  refine ⟨_, _, exec_enq_of_not_full (State.setPool_returns_running running p _ _) room' b,
    exec_deq_of_not_empty (State.setPool_returns_running running p _ _) nonempty', ?_, ?_, rfl, rfl⟩
  · simp only [State.pool_setPool_returns, RingPool.enq_deqRelease]
  · simp only [State.returns_result, State.pool_setPool_returns, RingPool.deqLoad_enqPublish wf nonempty]

end Sys2Proof.Machine
end

section
/-! The statements of 41_random_source.md: how produced bytes are routed, what the getters return, and when the blocking
getter returns, pumps, spins, or never returns. -/

namespace Sys2Proof.Machine

/-! ## Starting the generator (41 R131) -/

/-- Settles O10: both pools' index writes, and then the start of the generator. -/
theorem rsInitStartsWithEmptyPools : Obligations.RsInitStartsWithEmptyPools := by
  intro s running
  refine ⟨s.high.init, s.low.init, ?_, rfl, rfl, rfl, rfl, rfl, rfl⟩
  calc exec .rsInit s
      = (Prog.init .high (.init .low (.act .startRng fun _ => .done .nothing))).run s.runningCtx s :=
        exec_of_running _ running
    _ = .next ((((s.setPool .high s.high.init).setPool .low s.low.init).startRng).returns .nothing) := by
        rw [Prog.run_init, Prog.run_init, Prog.run_act rfl, Prog.run_done]; rfl

/-! ## Routing a produced byte (41 R132, R133) -/

section
variable {s : State} (running : s.halted = false)
include running

theorem exec_rsProduce (sole : (s.around .irqRng).producing = false) (b : Byte) :
    exec (.rsProduce b) s = .next ((s.produce b).returns .nothing) :=
  calc exec (.rsProduce b) s
      = (progRsProduce b (s.around .irqRng)).run .irqRng s := exec_of_running _ running
    _ = .next ((s.produce b).returns .nothing) := by
        rw [progRsProduce, sole, if_neg Bool.false_ne_true, Prog.run_produce, Prog.run_done]

/-- With `high` full a byte goes to the end of `low`, as far as there is room for it (41 R133). -/
theorem exec_rsProduce_of_high_full (sole : (s.around .irqRng).producing = false) (wf : s.low.Wf)
    (full : s.high.full = true) (b : Byte) :
    ∃ q, exec (.rsProduce b) s = .next { s with low := q, result := .nothing } ∧ q.Wf ∧
      q.unread = s.low.unread ++ [b].take (64 - s.low.count) := by
  rw [exec_rsProduce running sole]
  cases room : s.low.full with
  | false =>
    have count : s.low.count < 64 := s.low.not_full_iff.1 room
    refine ⟨_, by rw [State.produce_of_low full room]; rfl, RingPool.enqPublish_wf room wf b, ?_⟩
    rw [RingPool.enq_unread wf.1 room, List.take_of_length_le (by simp only [List.length_singleton]; omega)]
  | true =>
    have count : s.low.count = 64 := s.low.full_iff.1 room
    exact ⟨s.low, by rw [State.produce_of_full full room]; rfl, wf, by rw [count]; exact (List.append_nil _).symm⟩

end

/-- With `high` full, bytes go to the end of `low`, as many as there is room for, and nothing else changes but the
result (41 R133). -/
theorem runOps_rsProduce_of_high_full (bs : List Byte) {s : State} (running : s.halted = false)
    (sole : (s.around .irqRng).producing = false) (wf : s.low.Wf) (full : s.high.full = true) :
    ∃ q r, runOps (bs.map .rsProduce) s = .next { s with low := q, result := r } ∧
      q.unread = s.low.unread ++ bs.take (64 - s.low.count) := by
  induction bs generalizing s with
  | nil => exact ⟨s.low, s.result, rfl, by rw [List.take_nil, List.append_nil]⟩
  | cons b bs ih =>
    obtain ⟨q, ran, wf', first⟩ := exec_rsProduce_of_high_full running sole wf full b
    obtain ⟨q', r, rest, all⟩ := ih (s := { s with low := q, result := .nothing }) running sole wf' full
    have room : 64 - q.count = 64 - s.low.count - 1 := by
      rw [← q.length_unread, first, List.length_append, List.length_take, List.length_singleton, RingPool.length_unread]
      omega
    refine ⟨q', r, by simp only [List.map_cons, runOps, ran, rest], ?_⟩
    calc q'.unread
        = s.low.unread ++ ([b].take (64 - s.low.count) ++ bs.take (64 - s.low.count - 1)) := by
          rw [all, first, room, List.append_assoc]
      _ = s.low.unread ++ (b :: bs).take (64 - s.low.count) := by
          rw [← List.singleton_append (l := bs), List.take_append, List.length_singleton]

/-- Settles O11: the three cases of routing, each an enqueue or nothing. -/
theorem rsProduceRoutesToFirstNonFull : Obligations.RsProduceRoutesToFirstNonFull := by
  intro b s running sole wfHigh wfLow
  rw [exec_rsProduce running sole]
  refine ⟨fun room => ?_, fun full room => ?_, fun full full' => ?_⟩
  · rw [State.produce_of_high room]
    exact ⟨_, rfl, RingPool.enq_unread wfHigh.1 room b, rfl, rfl, fun _ other => Memory.read_write_ne wfHigh.1 other b⟩
  · rw [State.produce_of_low full room]
    exact ⟨_, rfl, RingPool.enq_unread wfLow.1 room b, rfl, rfl, fun _ other => Memory.read_write_ne wfLow.1 other b⟩
  · rw [State.produce_of_full full full']; rfl

/-- Settles O12: the run changes `low` and the result only. -/
theorem producedBytesFillLowThenDrop : Obligations.ProducedBytesFillLowThenDrop := by
  intro bs s running sole wf full
  obtain ⟨q, r, ran, unread⟩ := runOps_rsProduce_of_high_full bs running sole wf full
  exact ⟨_, ran, rfl, unread, rfl, running⟩

/-! ## The getters (41 R134, R135, R138) -/

section
variable {s : State} (running : s.halted = false)
include running

/-- A vector take of a pool that holds enough bytes returns the oldest ones (40 R118). -/
theorem exec_takev_of_le {p : PoolId} {n : Nat} (enough : n ≤ (s.pool p).count) :
    ∃ q, exec (.ringTakev p n) s = .next ((s.setPool p q).returns (.taken ((s.pool p).unread.take n))) ∧
      q.unread = (s.pool p).unread.drop n ∧ q.w = (s.pool p).w ∧ q.slots = (s.pool p).slots := by
  obtain ⟨q, took, hw, hslots, -, rest, -⟩ := State.take_of_le enough
  exact ⟨q, by rw [exec_ringTakev running, took], rest, hw, hslots⟩

/-- A pass of the blocking getter that finds enough bytes is the vector take (41 R138). -/
theorem exec_rsGetlob_of_le {n : Nat} (enough : n ≤ s.low.count) :
    exec (.rsGetlob n) s = exec (.ringTakev .low n) s := by
  rw [exec_ringTakev running]
  exact (exec_of_running _ running).trans (Prog.run_getlobPass_of_le _ _ .done _ enough)

/-- A pass of the blocking getter that finds too few bytes stays in progress: where the RNG interrupt cannot preempt the
caller and a byte waits, after the pump, unless that would be a second producer; else with nothing changed (41 R138,
R139). -/
theorem exec_rsGetlob_of_gt {n : Nat} (short : s.low.count < n) :
    exec (.rsGetlob n) s =
      if Config.prio s.cfg s.runningCtx ≤ s.cfg.prioRng ∧ s.rngReady = true then
        if (s.around s.runningCtx).producing = true then .refused .secondProducer
        else .next (s.pump.suspend ⟨s.runningCtx, .op (.rsGetlob n), []⟩)
      else .next (s.suspend ⟨s.runningCtx, .op (.rsGetlob n), []⟩) := by
  have pass : exec (.rsGetlob n) s = if (s.around s.runningCtx).pumps
      then (Prog.pump (s.around s.runningCtx) (.stay (.op (.rsGetlob n)))).run s.runningCtx s
      else (Prog.stay (.op (.rsGetlob n))).run s.runningCtx s :=
    (exec_of_running _ running).trans (Prog.run_getlobPass_of_gt _ _ .done _ short)
  have pumps : (s.around s.runningCtx).pumps = decide (Config.prio s.cfg s.runningCtx ≤ s.cfg.prioRng) := rfl
  rw [pass, pumps, Prog.run_pump, Prog.run_stay, Prog.run_stay]
  by_cases urgent : Config.prio s.cfg s.runningCtx ≤ s.cfg.prioRng
  · cases ready : s.rngReady with
    | false => simp [urgent]
    | true => simp [urgent]
  · simp [urgent]

end

/-- The pump starts and ends nothing that is in progress. -/
theorem State.pump_stack (s : State) : s.pump.stack = s.stack := by
  unfold State.pump
  obtain ⟨q, routed, -⟩ | ⟨q, routed, -⟩ := s.takeRngByte.produce_cases s.rngData
  · rw [routed]; rfl
  · rw [routed]; rfl

/-- No interrupt is as little urgent as the main loop (00_scope R6). -/
theorem Config.prioRng_lt_main (c : Config) : c.prioRng < Config.prio c .main := by
  obtain ⟨-, -, -, -, -, -, -, rng⟩ := c.admissible
  exact rng

/-- Settles O13: each getter's program is the vector take of its pool. -/
theorem rsGethiAndGetloTakeFromTheirPools : Obligations.RsGethiAndGetloTakeFromTheirPools := by
  intro n s running
  have hi : exec (.rsGethi n) s = exec (.ringTakev .high n) s := rfl
  have lo : exec (.rsGetlo n) s = exec (.ringTakev .low n) s := rfl
  rw [hi, lo]
  exact ⟨⟨exec_takev_of_le running (p := .high), exec_takev_of_gt running (p := .high), rfl⟩,
    exec_takev_of_le running (p := .low), exec_takev_of_gt running (p := .low), rfl⟩

/-- Settles O14: the take, or else the pump or nothing, by the caller's priority and the waiting byte. -/
theorem rsGetlobReturnsPumpsOrSpins : Obligations.RsGetlobReturnsPumpsOrSpins := by
  intro n s running
  refine ⟨fun enough => ?_, fun short => ⟨fun urgent ready sole => ?_, fun spins => ?_⟩⟩
  · obtain ⟨q, took, rest, hw, hslots⟩ := exec_takev_of_le running (p := .low) enough
    have length : (s.low.unread.take n).length = n := by
      rw [List.length_take, RingPool.length_unread, Nat.min_eq_left enough]
    exact ⟨q, (exec_rsGetlob_of_le running enough).trans took, rest, hw, hslots, length⟩
  · refine ⟨_, exec_rsProduce (s := s.takeRngByte) running sole s.rngData, ?_⟩
    rw [exec_rsGetlob_of_gt running short, if_pos ⟨urgent, ready⟩, sole, if_neg Bool.false_ne_true, ← s.pump_stack]
    rfl
  · have quiet : ¬ (Config.prio s.cfg s.runningCtx ≤ s.cfg.prioRng ∧ s.rngReady = true) := by
      rintro ⟨urgent, ready⟩
      obtain lower | idle | main := spins
      · omega
      · rw [ready] at idle; cases idle
      · rw [main] at urgent
        have := Config.prioRng_lt_main s.cfg
        omega
    rw [exec_rsGetlob_of_gt running short, if_neg quiet]
    rfl

/-! ## The blocking getter after enough deliveries (41 R140) -/

theorem runOps_append (is js : List Instr) {s t : State} (h : runOps is s = .next t) :
    runOps (is ++ js) s = runOps js t := by
  induction is generalizing s with
  | nil => cases h; rfl
  | cons i is ih =>
    simp only [runOps] at h
    simp only [List.cons_append, runOps]
    cases first : exec i s with
    | next u => rw [first] at h; exact ih h
    | fault f => rw [first] at h; cases h
    | refused r => rw [first] at h; cases h

/-- Settles O16: the deliveries all go to `low`, which then holds enough bytes for one pass. -/
theorem rsGetlobReturnsAfterDeliveries : Obligations.RsGetlobReturnsAfterDeliveries := by
  intro n bs s running sole wf full room enough
  obtain ⟨q, r, delivered, unread⟩ := runOps_rsProduce_of_high_full bs running sole wf full
  rw [List.take_of_length_le (by omega)] at unread
  have count : q.count = s.low.count + bs.length := by
    rw [← q.length_unread, unread, List.length_append, RingPool.length_unread]
  have running' : State.halted { s with low := q, result := r } = false := running
  have enough' : n ≤ q.count := by omega
  obtain ⟨q', took, rest, -⟩ := exec_takev_of_le running' (p := .low) enough'
  have ran : runOps (bs.map .rsProduce ++ [.rsGetlob n]) s =
      .next { s with low := q', result := .taken (q.unread.take n) } := by
    rw [runOps_append _ _ delivered, runOps, exec_rsGetlob_of_le running' enough', took]
    rfl
  rw [State.pool_low, unread] at rest
  exact ⟨_, ran, by rw [unread], rest, rfl, rfl⟩

/-! ## A request beyond capacity (41 R139 item 3) -/

/-- Whatever its micro-steps answer, the program does not return: it goes on later as the call `c`, or is refused. -/
def Prog.OnlyWaits (c : Call) : Prog → Prop
  | .done _ => False
  | .fatal _ _ => False
  | .refuse _ => True
  | .stay call => call = c
  | .act _ k => ∀ v, (k v).OnlyWaits c

section
variable {c : Call}

theorem Prog.OnlyWaits.after {p : Prog} (h : p.OnlyWaits c) (vs : List Val) : (p.after vs).OnlyWaits c := by
  induction vs generalizing p with
  | nil => rw [Prog.after_nil]; exact h
  | cons v vs ih =>
    cases p with
    | act m k => exact ih (h v)
    | _ => exact h

theorem Prog.OnlyWaits.enq {p : PoolId} {b : Byte} {k : Result → Prog} (h : ∀ r, (k r).OnlyWaits c) :
    (Prog.enq p b k).OnlyWaits c := by
  intro w r
  beta_reduce
  split
  · exact h _
  · exact fun _ _ => h _

theorem Prog.OnlyWaits.produce {b : Byte} {k : Prog} (h : k.OnlyWaits c) : (Prog.produce b k).OnlyWaits c := by
  intro w r
  beta_reduce
  split
  · exact .enq fun _ => h
  · intro w r
    beta_reduce
    split
    · exact .enq fun _ => h
    · exact h

theorem Prog.OnlyWaits.pump {a : Around} {k : Prog} (h : k.OnlyWaits c) : (Prog.pump a k).OnlyWaits c := by
  intro ready
  beta_reduce
  split
  · exact h
  · split
    · trivial
    · exact fun _ => .produce h

/-- Two ring indices are never more than `C` apart (40 R110). -/
theorem unreadCount_le (w r : Fin ringS) : unreadCount w r ≤ ringC := RingPool.count_le ⟨w, r, []⟩

/-- Whatever indices a pass has read, it finds fewer than `n > C` bytes, so its take fails (40 R119 item 2). -/
theorem Prog.OnlyWaits.getlobPass {a : Around} {n : Nat} (beyond : 64 < n) {k : Result → Prog} {again : Prog}
    (h : again.OnlyWaits c) : (Prog.getlobPass a n k again).OnlyWaits c := by
  intro w r
  have short : unreadCount w.getIndex r.getIndex < n := Nat.lt_of_le_of_lt (unreadCount_le _ _) beyond
  beta_reduce
  rw [if_pos short]
  change (if a.pumps then Prog.pump a again else again).OnlyWaits c
  split
  · exact .pump h
  · exact h

/-- A call inside `RS.GETLOB n` with `n > C` does not return, wherever it is (41 R139 item 3). -/
theorem Call.insideGetlob_onlyWaits {n : Nat} (beyond : 64 < n) (h : c.insideGetlob n) (a : Around) :
    (Call.prog c a).OnlyWaits c := by
  cases c with
  | op i => cases h; exact .getlobPass beyond rfl
  | awaiting ty => cases h
  | ingest ty status calls =>
    obtain ⟨rest, rfl⟩ := h
    simp only [Call.prog, Prog.ingestCode, Prog.ifSoleConsumer]
    split
    · trivial
    · exact .getlobPass beyond rfl

end

/-- An activation that only waits is on top again after it has run (20_memory R62). -/
theorem Prog.OnlyWaits.runFor {n : Nat} {a : Activation} {p : Prog} {s t : State} (h : p.OnlyWaits a.call)
    (ran : Prog.runFor n a p s = .next t) : ∃ b, t.stack = b :: s.stack ∧ b.ctx = a.ctx ∧ b.call = a.call := by
  induction p generalizing n a s with
  | done r => cases h
  | fatal code info => cases h
  | refuse r => rw [Prog.runFor_refuse] at ran; cases ran
  | stay call => rw [Prog.runFor_stay] at ran; cases ran; exact ⟨_, rfl, rfl, h⟩
  | act m k ih =>
    cases n with
    | zero => cases ran; exact ⟨a, rfl, rfl, rfl⟩
    | succ n =>
      cases made : s.perform m with
      | error f => rw [Prog.runFor_fault n a k made] at ran; cases ran
      | ok vt =>
        obtain ⟨v, u⟩ := vt
        rw [Prog.runFor_succ n a k made] at ran
        obtain ⟨b, top, ctx, call⟩ := ih v (a := { a with seen := a.seen ++ [v] }) (h v) ran
        exact ⟨b, by rw [top, (State.perform_unmoved made).stack], ctx, call⟩

/-- With something in progress, a step leaves it as it is or puts a handler on top of it, or else the activation on top goes
on (60 R214, R220). -/
theorem StepDid.of_stack_cons {u t : State} {a : Activation} {below : List Activation} (did : StepDid u t)
    (top : u.stack = a :: below) :
    (∃ above, t.stack = above ++ a :: below) ∨
      ∃ n, Prog.runFor n a (a.rest u.cfg below) { u with stack := below } = .next t := by
  have handler {v : State} (hv : v.stack = u.stack) {i : Instr} {c : Ctx} {n : Nat} {p : Prog}
      (within : p.Within (Instr.part i)) (ran : Prog.runFor n ⟨c, .op i, []⟩ p v = .next t) :
      ∃ above, t.stack = above ++ a :: below := by
    rw [← top, ← hv]
    obtain same | ⟨x, cut, -, -⟩ := Prog.runFor_stack within rfl ran
    · exact ⟨[], same⟩
    · exact ⟨[x], cut⟩
  cases did with
  | idle => exact .inl ⟨[], top⟩
  | rx n _ _ _ _ ran => exact .inl (handler rfl (Prog.Within.instr (.rxComplete []) _) ran)
  | tx n _ _ _ _ ran => exact .inl (handler rfl (Prog.Within.instr .txComplete (u.around .irqTx)) ran)
  | rng n _ _ _ _ _ ran =>
    exact .inl (handler (v := u.takeRngByte) rfl (Prog.Within.instr (.rsProduce u.rngData) _) ran)
  | call n i rest _ _ empty => rw [top] at empty; cases empty
  | resume n a' below' _ _ top' ran =>
    cases top.symm.trans top'
    exact .inr ⟨n + 1, ran⟩

/-- In the stack `t`, with anything above it, an activation of this context and call has this below it. -/
def StillInProgress (c : Ctx) (call : Call) (below t : List Activation) : Prop :=
  ∃ above b, t = above ++ b :: below ∧ b.ctx = c ∧ b.call = call

/-- A step leaves an activation inside `RS.GETLOB n`, `n > C`, in progress: when it is on top it waits again, and else only
what is above it moves (41 R139 item 3). -/
theorem step_keeps_getlob {n : Nat} (beyond : 64 < n) {c : Ctx} {call : Call} (inside : call.insideGetlob n)
    {below : List Activation} {s t : State} (there : StillInProgress c call below s.stack) (h : step s = .next t) :
    StillInProgress c call below t.stack := by
  obtain ⟨u, platform, did⟩ := step_eq_next h
  have place : s.SamePlace u :=
    platform.keeps (P := s.SamePlace) (fun hs he => hs.trans he.samePlace) ⟨rfl, rfl, rfl⟩
  rw [← place.stack] at there
  obtain ⟨above, a, stack, rfl, rfl⟩ := there
  cases above with
  | nil =>
    obtain ⟨above, kept⟩ | ⟨m, ran⟩ := did.of_stack_cons stack
    · exact ⟨above, a, kept, rfl, rfl⟩
    · have waits := (Call.insideGetlob_onlyWaits beyond inside ⟨u.cfg, a.ctx, below⟩).after a.seen
      obtain ⟨b, top, ctx, same⟩ := waits.runFor ran
      exact ⟨[], b, top, ctx, same⟩
  | cons x above =>
    rw [List.cons_append] at stack
    obtain ⟨above', kept⟩ | ⟨m, ran⟩ := did.of_stack_cons stack
    · exact ⟨above' ++ x :: above, a, by rw [kept, List.append_assoc, List.cons_append], rfl, rfl⟩
    · obtain ended | ⟨y, waits, -, -⟩ := Prog.runFor_stack (Prog.Within.rest x u.cfg _) rfl ran
      · exact ⟨above, a, ended, rfl, rfl⟩
      · exact ⟨y :: above, a, waits, rfl, rfl⟩

/-- A property that every step keeps is kept by any number of steps. -/
theorem runSteps_keeps {P : State → Prop} (hP : ∀ {s t}, P s → step s = .next t → P t) {k : Nat} {s t : State} (hs : P s)
    (h : runSteps k s = .next t) : P t := by
  induction k generalizing s with
  | zero => cases h; exact hs
  | succ k ih =>
    unfold runSteps at h
    split at h
    · rename_i u first; exact ih (hP hs first) h
    · cases h
    · cases h

/-- Settles O15: a pool never holds `n` bytes, so the pass that starts stays in progress, and so does every later one. -/
theorem rsGetlobBeyondCapacityNeverReturns : Obligations.RsGetlobBeyondCapacityNeverReturns := by
  intro n beyond
  constructor
  · intro s t running h
    have short : s.low.count < n := Nat.lt_of_le_of_lt s.low.count_le beyond
    rw [exec_rsGetlob_of_gt running short] at h
    split at h
    · split at h
      · cases h
      · cases h; exact ⟨congrArg _ s.pump_stack, rfl⟩
    · cases h; exact ⟨rfl, rfl⟩
  · intro k a above below s t inside stack h
    exact runSteps_keeps (P := fun s => StillInProgress a.ctx a.call below s.stack)
      (fun there first => step_keeps_getlob beyond inside there first) ⟨above, a, stack, rfl, rfl⟩ h

end Sys2Proof.Machine
end

section
/-! The statements of 42_h4_rx_framer.md: the framer's decoder, each transition and what it delivers, the arrival of
bytes one by one, at once and from the line, and the reassembly of frames. -/

namespace Sys2Proof

/-! ## The transition the framer selects (30_encoding section 4, 42 R153) -/

/-- Settles O58: by the receive state, and there by whether the row of smaller priority number takes the bytes. -/
theorem framerAlwaysSelectsATransition : Obligations.FramerAlwaysSelectsATransition := by
  intro st b0 b1 b2 b3 b4
  cases st with
  | awaitingType =>
    by_cases cmd : b0 = tCmd
    · exact ⟨.rxTypeCmd, [b1, b2, b3, b4], by simp only [decode, decodeFrame, if_pos cmd], rfl, rfl,
        fun _ _ => by rw [cmd]; rfl⟩
    · by_cases acl : b0 = tAcl
      · exact ⟨.rxTypeAcl, [b1, b2, b3, b4], by simp only [decode, decodeFrame, if_neg cmd, if_pos acl], rfl, rfl,
          fun _ _ => by rw [acl]; rfl⟩
      · exact ⟨.rxTypeBad b0, [b1, b2, b3, b4], by simp only [decode, decodeFrame, if_neg cmd, if_neg acl],
          by simp [Instr.wellFormed, cmd, acl], rfl, fun _ _ => rfl⟩
  | awaitingCmdHeader =>
    by_cases zero : b3 = 0#8
    · exact ⟨.rxCmdhdrZ b1 b2, [b4], by simp only [decode, decodeFrame, if_pos zero], rfl, rfl,
        fun ty _ => by rw [ty rfl, zero]; rfl⟩
    · exact ⟨.rxCmdhdrNz b1 b2 b3, [b4], by simp only [decode, decodeFrame, if_neg zero],
        by simp [Instr.wellFormed, zero], rfl, fun ty _ => by rw [ty rfl]; rfl⟩
  | awaitingAclHeader =>
    by_cases zero : b3 = 0#8 ∧ b4 = 0#8
    · exact ⟨.rxAclhdrZ b1 b2, [], by simp only [decode, decodeFrame, if_pos zero], rfl, rfl,
        fun _ ty => by rw [ty rfl, zero.1, zero.2]; rfl⟩
    · exact ⟨.rxAclhdrNz b1 b2 b3 b4, [], by simp only [decode, decodeFrame, if_neg zero],
        by simpa [Instr.wellFormed, ← not_and_or] using zero, rfl, fun _ ty => by rw [ty rfl]; rfl⟩
  | awaitingPayload => exact ⟨.rxPayload, _, rfl, rfl, rfl, fun _ _ => rfl⟩

end Sys2Proof

namespace Sys2Proof.Machine

/-! ## Starting, and the transitions that request (42 R150, R154 to R160) -/

/-- Settles O17: with a request outstanding the first micro-step is the whole of it, with none the request follows. -/
theorem rxStartRequestsTypeByte : Obligations.RxStartRequestsTypeByte := by
  intro s running
  rw [exec_of_running _ running]
  cases valid : s.rxReqValid with
  | true =>
    have begun : s.perform .begin = .ok (.flag true, (s.enter .awaitingType).request 0 1) := by
      rw [State.perform, valid, if_pos rfl]
    exact Prog.run_act begun
  | false =>
    have begun : s.perform .begin = .ok (.flag false, s.enter .awaitingType) := by
      rw [State.perform, valid, if_neg Bool.false_ne_true]
    exact Prog.run_act begun

/-- A transition that ends in a fatal condition latches it and changes nothing else (60 R203). -/
theorem exec_of_fatal {i : Instr} {s : State} {code : FatalCode} {info : Nat} (running : s.halted = false)
    (fatal : Instr.prog i (s.around (Instr.context i s.runningCtx)) = .fatal code info) :
    exec i s = .next ((s.latch code info).returns .nothing) := by
  rw [exec_of_running _ running, fatal, Prog.run_fatal, State.raiseFatal_of_running running]

/-- Settles O18: two of the programs are a single request, the third a raise. -/
theorem rxTypeRequestsHeaderOrLatchesFault : Obligations.RxTypeRequestsHeaderOrLatchesFault := fun _ _ running =>
  ⟨exec_of_running .rxTypeCmd running, exec_of_running .rxTypeAcl running,
    exec_of_fatal (code := .unsupportedType) running rfl⟩

/-- A payload request that fits is issued. -/
theorem exec_of_requestPayload_fits {i : Instr} {s : State} {off len : Nat} (running : s.halted = false)
    (prog : ∀ a, Instr.prog i a = .requestPayload a off len) (fits : off + len ≤ s.cfg.rxbufSize) :
    exec i s = .next (((s.enter .awaitingPayload).request off len).returns .nothing) := by
  have awaits (c : Ctx) : Instr.prog i (s.around c) = .await .awaitingPayload off len :=
    (prog _).trans (if_neg (Nat.not_lt.2 fits))
  rw [exec_of_running _ running, awaits, Prog.run_await]

/-- One that does not fit is fatal (42 R162). -/
theorem exec_of_requestPayload_overlength {i : Instr} {s : State} {off len : Nat} (running : s.halted = false)
    (prog : ∀ a, Instr.prog i a = .requestPayload a off len) (tooLong : s.cfg.rxbufSize < off + len) :
    exec i s = .next ((s.latch .rxOverlength len).returns .nothing) :=
  exec_of_fatal running ((prog _).trans (if_pos tooLong))

/-- Settles O19: both headers request their payload in the same way. -/
theorem rxHeaderRequestsPayload : Obligations.RxHeaderRequestsPayload := fun _ _ _ _ _ _ _ running =>
  ⟨fun _ => ⟨exec_of_requestPayload_fits running fun _ => rfl, exec_of_requestPayload_overlength running fun _ => rfl⟩,
    fun _ => ⟨exec_of_requestPayload_fits running fun _ => rfl, exec_of_requestPayload_overlength running fun _ => rfl⟩⟩

/-! ## The transitions that deliver (42 R152, R157, R159, R161) -/

theorem Instr.prog_of_delivers {i : Instr} (h : Instr.delivers i = true) (a : Around) :
    Instr.prog i a = .deliver a := by
  cases i with
  | rxCmdhdrZ | rxAclhdrZ | rxPayload => rfl
  | _ => cases h

theorem Instr.context_of_delivers {i : Instr} (h : Instr.delivers i = true) (c : Ctx) :
    Instr.context i c = .irqRx := by
  cases i with
  | rxCmdhdrZ | rxAclhdrZ | rxPayload => rfl
  | _ => cases h

/-- The frame in `RXBUF` is passed to the controller, and then its answer is awaited. -/
theorem Prog.run_deliver_of_holds {c : Ctx} {a : Around} {s : State} {ty : Byte} {d : Delivery} (held : s.Holds ty d) :
    (Prog.deliver a).run c s = (Prog.awaitAnswer a ty).run c (s.passes d) := by
  obtain ⟨type, ⟨rfl, fits, rfl⟩ | ⟨rfl, fits, rfl⟩⟩ := held
  · exact Prog.run_deliver_cmd type fits
  · exact Prog.run_deliver_acl type fits

theorem exec_of_delivers {i : Instr} {s : State} {ty : Byte} {d : Delivery} (delivers : Instr.delivers i = true)
    (running : s.halted = false) (held : s.Holds ty d) :
    exec i s = (Prog.awaitAnswer (s.around .irqRx) ty).run .irqRx (s.passes d) := by
  rw [exec_of_running _ running, Instr.context_of_delivers delivers, Instr.prog_of_delivers delivers,
    Prog.run_deliver_of_holds held]

/-- Accepted, the frame is done with, and the next type byte is requested. -/
theorem Prog.run_awaitAnswer_accepted {c : Ctx} {a : Around} {ty : Byte} {rest : List IngestAnswer} {s : State}
    (answer : s.ctlIngest = ⟨[], 0⟩ :: rest) :
    (Prog.awaitAnswer a ty).run c s =
      .next ((((s.setAnswers rest).enter .awaitingType).request 0 1).returns .nothing) := by
  rw [Prog.run_awaitAnswer_of_cons answer, Prog.ingestCode, Prog.run_ingested, if_pos rfl]

/-- Rejected, it is fatal (60 R205). -/
theorem Prog.run_awaitAnswer_rejected {c : Ctx} {a : Around} {ty : Byte} {status : Nat} {rest : List IngestAnswer}
    {s : State} (running : s.halted = false) (answer : s.ctlIngest = ⟨[], status⟩ :: rest) (rejected : status ≠ 0) :
    (Prog.awaitAnswer a ty).run c s =
      .next (((s.setAnswers rest).latch .controllerReject ty.toNat).returns .nothing) := by
  have still : (s.setAnswers rest).halted = false := running
  rw [Prog.run_awaitAnswer_of_cons answer, Prog.ingestCode, Prog.run_ingested, if_neg rejected,
    State.raiseFatal_of_running still]

theorem exec_of_delivers_accepted {i : Instr} {s : State} {ty : Byte} {d : Delivery} {rest : List IngestAnswer}
    (delivers : Instr.delivers i = true) (running : s.halted = false) (held : s.Holds ty d)
    (answer : s.ctlIngest = ⟨[], 0⟩ :: rest) :
    exec i s = .next { s with
      delivered := s.delivered ++ [d], ctlIngest := rest, rxState := .awaitingType, rxReqValid := true, rxReqOff := 0,
      rxReqLen := 1, rxGot := 0, result := .nothing } := by
  have answer' : (s.passes d).ctlIngest = ⟨[], 0⟩ :: rest := answer
  rw [exec_of_delivers delivers running held, Prog.run_awaitAnswer_accepted answer']
  rfl

/-- Settles O20: with a length of zero the frame is its header. -/
theorem rxHeaderZeroDelivers : Obligations.RxHeaderZeroDelivers := by
  intro b0 b1 rest s running answer
  have size := Config.rxbufSize_ge s.cfg
  constructor
  · intro type zero
    have held : s.Holds tCmd ⟨.command, Memory.readN s.rxbuf 1 3⟩ :=
      ⟨type, .inl ⟨rfl, by rw [zero]; exact Nat.le_of_succ_le size, by rw [zero]; rfl⟩⟩
    exact exec_of_delivers_accepted rfl running held answer
  · intro type zero zero'
    have held : s.Holds tAcl ⟨.data, Memory.readN s.rxbuf 1 4⟩ :=
      ⟨type, .inr ⟨rfl, by rw [zero, zero']; exact size, by rw [zero, zero']; rfl⟩⟩
    exact exec_of_delivers_accepted (i := .rxAclhdrZ b0 b1) rfl running held answer

theorem Memory.readN_eq_map_range (m : Memory) (a n : Nat) :
    Memory.readN m a n = (List.range n).map fun i => Memory.read m (a + i) := by
  induction n generalizing a with
  | zero => rfl
  | succ n ih =>
    rw [Memory.readN, ih, List.range_succ_eq_map, List.map_cons, List.map_map]
    simp only [Nat.add_zero, Function.comp_def, Nat.succ_eq_add_one, Nat.add_assoc, Nat.add_comm 1]

/-- Settles O21: the frame in `RXBUF` is of the kind its type byte says and of the length its header says. -/
theorem rxPayloadDelivers : Obligations.RxPayloadDelivers := by
  intro rest s running answer
  constructor
  · rintro n type rfl fits
    have held : s.Holds tCmd ⟨.command, Memory.readN s.rxbuf 1 (3 + (Memory.read s.rxbuf 3).toNat)⟩ :=
      ⟨type, .inl ⟨rfl, by omega, rfl⟩⟩
    rw [← Memory.readN_eq_map_range]
    exact exec_of_delivers_accepted rfl running held answer
  · rintro n type rfl fits
    have held : s.Holds tAcl ⟨.data, Memory.readN s.rxbuf 1
        (4 + ((Memory.read s.rxbuf 3).toNat + 256 * (Memory.read s.rxbuf 4).toNat))⟩ :=
      ⟨type, .inr ⟨rfl, by omega, rfl⟩⟩
    rw [← Memory.readN_eq_map_range]
    exact exec_of_delivers_accepted (i := .rxPayload) rfl running held answer

/-- A step of an unanswered ingest call on top of the stack, with no interrupt to take and nothing cut, asks for the
answer again (log 11). -/
theorem step_of_awaiting {s u : State} {ty : Byte} {below : List Activation} (tick : s.platformTick = .next u)
    (uncut : s.slot.cut = none) (running : u.halted = false) (noIrq : u.nextIrq = none)
    (top : u.stack = ⟨.irqRx, .awaiting ty, []⟩ :: below) :
    step s = (Prog.awaitAnswer ⟨u.cfg, .irqRx, below⟩ ty).run .irqRx { u with stack := below } := by
  rw [(step_of_none tick running noIrq).1 _ _ top, uncut, State.proceed_none, Activation.rest, Prog.after_nil]
  rfl

/-- Settles O23: the call is made and then stays in progress; each later step asks for the answer. -/
theorem unansweredIngestWaits : Obligations.UnansweredIngestWaits := by
  constructor
  · intro i ty d s delivers running held unanswered
    have unanswered' : (s.passes d).ctlIngest = [] := unanswered
    rw [exec_of_delivers delivers running held, Prog.run_awaitAnswer_of_nil unanswered']
    rfl
  · intro ty status rest below s u tick uncut running noIrq top
    rw [step_of_awaiting tick uncut running noIrq top]
    refine ⟨fun unanswered => ?_, fun answer success => ?_, fun answer rejected => ?_⟩
    · rw [Prog.run_awaitAnswer_of_nil (by exact unanswered), State.suspend, ← top]
    · subst success
      exact Prog.run_awaitAnswer_accepted answer
    · exact Prog.run_awaitAnswer_rejected running answer rejected

/-! ## Arriving bytes (42 R151, R153, R165) -/

/-- Two programs whose first micro-steps do the same, and which go on alike, are the same. -/
theorem Prog.run_act_congr {c : Ctx} {m m' : Micro} (k : Val → Prog) {s s' : State} (h : s.perform m = s'.perform m') :
    (Prog.act m k).run c s = (Prog.act m' k).run c s' := by simp only [Prog.run, h]

theorem exec_rxComplete_of_running {s : State} (running : s.halted = false) (bs : List Byte) :
    exec (.rxComplete bs) s =
      (Prog.act (.completeRequest bs) (.received (s.around .irqRx))).run .irqRx s := exec_of_running _ running

theorem exec_rxByte_of_running {s : State} (running : s.halted = false) (b : Byte) :
    exec (.rxByte b) s = (Prog.act (.storeByte b) (.received (s.around .irqRx))).run .irqRx s :=
  exec_of_running _ running

/-- Bytes that do not fill the request, or no request, are no RX-complete (D22). -/
theorem State.completeRequest_refuses {s : State} {bs : List Byte}
    (h : s.rxReqValid = false ∨ s.rxGot + bs.length ≠ s.rxReqLen) :
    s.completeRequest bs = .ok (.receipt .noEvent, s) := by
  refine if_neg fun ⟨valid, filled⟩ => ?_
  obtain absent | other := h
  · rw [absent] at valid; cases valid
  · exact other filled

/-- A byte no request waits for is no event (D22). -/
theorem State.storeByte_refuses {s : State} (b : Byte) (h : s.rxReqValid = false ∨ s.rxReqLen ≤ s.rxGot) :
    s.storeByte b = .ok (.receipt .noEvent, s) := by
  refine if_neg fun ⟨valid, waits⟩ => ?_
  obtain absent | filled := h
  · rw [absent] at valid; cases valid
  · exact Nat.not_lt.2 filled waits

theorem State.completeRequest_of_valid {s : State} {bs : List Byte} (valid : s.rxReqValid = true)
    (fills : s.rxGot + bs.length = s.rxReqLen) : s.completeRequest bs = s.receive bs := if_pos ⟨valid, fills⟩

theorem State.storeByte_of_valid {s : State} (b : Byte) (valid : s.rxReqValid = true) (waits : s.rxGot < s.rxReqLen) :
    s.storeByte b = s.receive [b] := if_pos ⟨valid, waits⟩

/-- The last byte of the request is the completion of it. -/
theorem State.storeByte_last {s : State} (b : Byte) (last : s.rxGot + 1 = s.rxReqLen) :
    s.storeByte b = s.completeRequest [b] := by
  cases valid : s.rxReqValid with
  | true => rw [s.storeByte_of_valid b valid (by omega), State.completeRequest_of_valid (bs := [b]) valid last]
  | false => rw [s.storeByte_refuses b (.inl valid), State.completeRequest_refuses (.inl valid)]

/-- Settles O30: each of the three operations begins with the micro-step that finds no event. -/
theorem eventsThatDoNotExistAreRefused : Obligations.EventsThatDoNotExistAreRefused := by
  intro bs b s running
  refine ⟨fun h => ?_, fun h => ?_, fun flight done => ?_⟩
  · have refused : s.perform (.completeRequest bs) = .ok (.receipt .noEvent, s) := State.completeRequest_refuses h
    exact (exec_rxComplete_of_running running bs).trans (Prog.run_act refused)
  · have refused : s.perform (.storeByte b) = .ok (.receipt .noEvent, s) := s.storeByte_refuses b h
    exact (exec_rxByte_of_running running b).trans (Prog.run_act refused)
  · have refused : s.perform .takeTxEvent = .ok (.flag false, s.takeTxEvent) := by
      rw [State.perform, flight, done, Bool.or_false]
    exact (exec_of_running .txComplete running).trans (Prog.run_act refused)

/-- Bytes that complete the request are stored, the request is cleared, and the transition follows. -/
theorem exec_rxComplete_of_fills {s : State} {bs : List Byte} (running : s.halted = false) (valid : s.rxReqValid = true)
    (fills : s.rxGot + bs.length = s.rxReqLen) (fits : s.rxReqOff + s.rxReqLen ≤ s.cfg.rxbufSize) :
    exec (.rxComplete bs) s = (Prog.transition (s.around .irqRx)).run .irqRx (s.fill bs).beginRx := by
  have made : s.perform (.completeRequest bs) = .ok (.receipt .filled, (s.fill bs).beginRx) :=
    (State.completeRequest_of_valid valid fills).trans (State.receive_filling fills fits)
  rw [exec_rxComplete_of_running running, Prog.run_act made]
  rfl

/-- A byte that leaves the request unfilled is stored and counted. -/
theorem exec_rxByte_of_more {s : State} (b : Byte) (running : s.halted = false) (valid : s.rxReqValid = true)
    (more : s.rxGot + 1 < s.rxReqLen) (fits : s.rxReqOff + s.rxGot + 1 ≤ s.cfg.rxbufSize) :
    exec (.rxByte b) s = .next ((s.fill [b]).returns .nothing) := by
  have made : s.perform (.storeByte b) = .ok (.receipt .stored, s.fill [b]) :=
    (s.storeByte_of_valid b valid (by omega)).trans (State.receive_partly (Nat.ne_of_lt more) fits)
  rw [exec_rxByte_of_running running, Prog.run_act made]
  rfl

/-- The byte that fills the request performs RX-complete (42 R165). -/
theorem exec_rxByte_of_last {s : State} (b : Byte) (last : s.rxGot + 1 = s.rxReqLen) :
    exec (.rxByte b) s = exec (.rxComplete [b]) s := by
  cases running : s.halted with
  | true => rw [exec_of_halted _ running, exec_of_halted _ running]
  | false =>
    rw [exec_rxByte_of_running running, exec_rxComplete_of_running running]
    exact Prog.run_act_congr _ (s.storeByte_last b last)

/-- The transition taken is the one the framer's decoder reads from `rx_state` and `RXBUF`, in the state in which the
bytes are stored and the request is cleared. -/
theorem exec_rxComplete_selects {s : State} {bs : List Byte} (running : s.halted = false) (valid : s.rxReqValid = true)
    (fills : s.rxGot + bs.length = s.rxReqLen) (fits : s.rxReqOff + s.rxReqLen ≤ s.cfg.rxbufSize) :
    ∃ i rest, decode (.framer s.rxState) (Memory.readN (s.fill bs).rxbuf 0 5) = .ok (i, rest) ∧
      exec (.rxComplete bs) s = exec i (s.fill bs).beginRx := by
  obtain ⟨i, rest, decoded, -, context, ran⟩ :=
    Prog.run_transition .irqRx (s.around .irqRx) (s.fill bs).beginRx
  have still : (s.fill bs).beginRx.halted = false := running
  refine ⟨i, rest, decoded, ?_⟩
  rw [exec_rxComplete_of_fills running valid fills fits, ran, exec_of_running i still, context]
  rfl

theorem exec_rxComplete_of_decode {s : State} {bs : List Byte} {i : Instr} {rest : List Byte}
    (running : s.halted = false) (valid : s.rxReqValid = true) (fills : s.rxGot + bs.length = s.rxReqLen)
    (fits : s.rxReqOff + s.rxReqLen ≤ s.cfg.rxbufSize)
    (decoded : decode (.framer s.rxState) (Memory.readN (s.fill bs).rxbuf 0 5) = .ok (i, rest)) :
    exec (.rxComplete bs) s = exec i (s.fill bs).beginRx := by
  obtain ⟨j, rest', decoded', taken⟩ := exec_rxComplete_selects running valid fills fits
  rw [decoded] at decoded'
  cases decoded'
  exact taken

/-- Settles O26: the state after the bytes are stored and the request is cleared is the one named. -/
theorem rxCompleteTakesTheSelectedTransition : Obligations.RxCompleteTakesTheSelectedTransition := by
  intro bs s running valid fills fits
  have stored : (s.fill bs).beginRx = { s with
      rxbuf := Memory.writeN s.rxbuf (s.rxReqOff + s.rxGot) bs, rxGot := s.rxReqLen, rxReqValid := false } := by
    simp only [State.fill, State.beginRx, fills]
  obtain ⟨i, rest, decoded, taken⟩ := exec_rxComplete_selects running valid fills fits
  exact ⟨i, rest, _, stored, decoded, taken⟩

/-- Settles O27: the byte is at `RXBUF[0]`, from where the decoder reads it. -/
theorem rxCompleteOfTypeByte : Obligations.RxCompleteOfTypeByte := by
  rintro b s ⟨running, state, valid, off, len, got⟩ wf
  let u : State := { s with rxbuf := Memory.write s.rxbuf 0 b, rxGot := 1, rxReqValid := false }
  have stored : (s.fill [b]).beginRx = u := by
    simp only [State.fill, State.beginRx, off, got, u]
    rfl
  have fits : s.rxReqOff + s.rxReqLen ≤ s.cfg.rxbufSize := by
    have := Config.rxbufSize_ge s.cfg
    omega
  have read : Memory.read u.rxbuf 0 = b := Memory.read_write_same wf 0 b
  have taken {i : Instr} (decoded : ∃ rest, decodeFrame .awaitingType (Memory.readN u.rxbuf 0 5) = .ok (i, rest)) :
      exec (.rxComplete [b]) s = exec i u := by
    obtain ⟨rest, decoded⟩ := decoded
    rw [← state, ← stored] at decoded
    rw [← stored]
    exact exec_rxComplete_of_decode running valid (by rw [got, len]; rfl) fits decoded
  obtain ⟨cmd, acl, bad⟩ := rxTypeRequestsHeaderOrLatchesFault b u running
  rw [Memory.readN_five, read] at taken
  refine ⟨u.rxbuf, read, fun a other => Memory.read_write_ne wf other b, fun isCmd => ?_, fun isAcl => ?_,
    fun notCmd notAcl => ?_⟩
  · rw [valid]
    exact (taken ⟨_, by rw [decodeFrame, if_pos isCmd]⟩).trans cmd
  · rw [valid]
    exact (taken ⟨_, by rw [decodeFrame, isAcl, if_neg (by decide), if_pos rfl]⟩).trans acl
  · exact (taken ⟨_, by rw [decodeFrame, if_neg notCmd, if_neg notAcl]⟩).trans bad

/-- Settles O28: the two cases of an arriving byte. -/
theorem rxByteStoresAndCounts : Obligations.RxByteStoresAndCounts := by
  intro b s running valid fits wf
  refine ⟨fun more => ?_, exec_rxByte_of_last b⟩
  exact ⟨Memory.write s.rxbuf (s.rxReqOff + s.rxGot) b, exec_rxByte_of_more b running valid more (by omega),
    Memory.read_write_same wf _ b, fun a other => Memory.read_write_ne wf other b⟩

/-! ## One by one, or at once (42 R165) -/

theorem State.storeRx_fill (s : State) (bs cs : List Byte) : (s.fill bs).storeRx cs = s.storeRx (bs ++ cs) := by
  simp only [State.storeRx, State.fill_fill, State.fill_rxReqOff, State.fill_rxGot, State.fill_cfg, List.length_append,
    Nat.add_assoc]

/-- What has been stored of a request counts towards its completion. -/
theorem State.completeRequest_fill (s : State) (bs cs : List Byte) (valid : s.rxReqValid = true)
    (fills : s.rxGot + (bs ++ cs).length = s.rxReqLen) :
    (s.fill bs).completeRequest cs = s.completeRequest (bs ++ cs) := by
  have fills' : (s.fill bs).rxGot + cs.length = (s.fill bs).rxReqLen := by
    rw [State.fill_rxGot, Nat.add_assoc, ← List.length_append]
    exact fills
  rw [State.completeRequest_of_valid valid fills, State.completeRequest_of_valid (by exact valid) fills', State.receive,
    State.receive, State.storeRx_fill]

/-- Bytes outside `RXBUF` are a fault (20_memory R50; log 19). -/
theorem State.receive_outside {s : State} {bs : List Byte}
    (outside : s.cfg.rxbufSize < s.rxReqOff + s.rxGot + bs.length) : s.receive bs = .error (.noSuchByte .rxbuf) := by
  rw [State.receive, State.storeRx, if_neg (Nat.not_le.2 outside)]

/-- The first byte of a request of several, and then the others at once. -/
theorem exec_rxByte_then_rxComplete {s : State} (b : Byte) {bs : List Byte} (running : s.halted = false)
    (valid : s.rxReqValid = true) (fills : s.rxGot + (b :: bs).length = s.rxReqLen) (more : bs ≠ []) :
    (exec (.rxByte b) s = .fault (.noSuchByte .rxbuf) ∧
      exec (.rxComplete (b :: bs)) s = .fault (.noSuchByte .rxbuf)) ∨
    (exec (.rxByte b) s = .next ((s.fill [b]).returns .nothing) ∧
      exec (.rxComplete bs) ((s.fill [b]).returns .nothing) = exec (.rxComplete (b :: bs)) s) := by
  have several := List.length_pos_iff.2 more
  have count := List.length_cons (a := b) (as := bs)
  rcases Nat.lt_or_ge s.cfg.rxbufSize (s.rxReqOff + s.rxGot + 1) with outside | inside
  · have one : s.perform (.storeByte b) = .error (.noSuchByte .rxbuf) :=
      (s.storeByte_of_valid b valid (by omega)).trans (State.receive_outside outside)
    have all : s.perform (.completeRequest (b :: bs)) = .error (.noSuchByte .rxbuf) :=
      (State.completeRequest_of_valid valid fills).trans
        (State.receive_outside (by rw [List.length_cons]; omega))
    exact .inl ⟨by rw [exec_rxByte_of_running running, Prog.run_act_fault one],
      by rw [exec_rxComplete_of_running running, Prog.run_act_fault all]⟩
  · refine .inr ⟨exec_rxByte_of_more b running valid (by omega) inside, ?_⟩
    have still : ((s.fill [b]).returns .nothing).halted = false := running
    rw [exec_rxComplete_of_running still, exec_rxComplete_of_running running, Prog.run_returns]
    exact Prog.run_act_congr _ (s.completeRequest_fill [b] bs valid fills)

theorem runOps_singleton (i : Instr) (s : State) : runOps [i] s = exec i s := by
  unfold runOps
  cases exec i s <;> rfl

theorem runOps_of_halted {is : List Instr} (nonempty : is ≠ []) {s : State} (halted : s.halted = true) :
    runOps is s = .next (s.returns .nothing) := by
  induction is generalizing s with
  | nil => exact absurd rfl nonempty
  | cons i is ih =>
    rw [runOps, exec_of_halted i halted]
    cases is with
    | nil => rfl
    | cons j js => exact ih (List.cons_ne_nil j js) (s := s.returns .nothing) halted

/-- The bytes that are still to come of a request, one by one, are its completion. -/
theorem runOps_rxByte_eq_rxComplete {bs : List Byte} (nonempty : bs ≠ []) {s : State} (valid : s.rxReqValid = true)
    (fills : s.rxGot + bs.length = s.rxReqLen) : runOps (bs.map .rxByte) s = exec (.rxComplete bs) s := by
  cases running : s.halted with
  | true => rw [runOps_of_halted (by simpa using nonempty) running, exec_of_halted _ running]
  | false =>
    induction bs generalizing s with
    | nil => exact absurd rfl nonempty
    | cons b bs ih =>
      by_cases last : bs = []
      · subst last
        exact (runOps_singleton _ s).trans (exec_rxByte_of_last b fills)
      · rw [List.map_cons, runOps]
        obtain ⟨one, all⟩ | ⟨one, others⟩ := exec_rxByte_then_rxComplete b running valid fills last
        · rw [one, all]
        · have fills' : ((s.fill [b]).returns .nothing).rxGot + bs.length = s.rxReqLen := by
            rw [← fills, List.length_cons]
            exact Nat.add_right_comm s.rxGot 1 bs.length
          rw [one, ← others]
          exact ih last (s := (s.fill [b]).returns .nothing) valid fills' running

/-- Settles O29: the case in which none of the request is stored yet. -/
theorem byteSerialEqualsWholeRequest : Obligations.ByteSerialEqualsWholeRequest :=
  fun _ _ valid got whole nonempty => runOps_rxByte_eq_rxComplete nonempty valid (by rw [got, whole, Nat.zero_add])

/-! ## From the receive line (42 R165, 60 R211) -/

/-- With neither a TX-complete nor a random byte pending, in the main loop, RX-complete is taken if it is pending. -/
theorem State.nextIrq_of_rx_alone {s : State} (main : s.runningCtx = .main) (done : s.txDone = false)
    (ready : s.rngReady = false) : s.nextIrq = if s.rxPending = true then some .irqRx else none := by
  cases pending : s.rxPending with
  | true => simp [State.nextIrq, State.pending, State.txPending, State.rngPending, pending, done, ready, main,
      Config.canPreempt, Config.mostUrgent]
  | false => simp [State.nextIrq, State.pending, State.txPending, State.rngPending, pending, done, ready,
      Config.mostUrgent]

/-- The UART stores the next byte of the line where the request waits for it. -/
theorem State.platform_uartRx {s : State} {b : Byte} {line : List Byte} (running : s.halted = false)
    (valid : s.rxReqValid = true) (waits : s.rxGot < s.rxReqLen)
    (fits : s.rxReqOff + s.rxGot + 1 ≤ s.cfg.rxbufSize) (next : s.rxLine = b :: line) :
    s.platform .uartRx = .next (State.fill { s with rxLine := line } [b]) := by
  have stored : State.storeRx { s with rxLine := line } [b] = some (State.fill { s with rxLine := line } [b]) :=
    State.storeRx_of_le fits
  have waiting : (!s.halted && s.rxReqValid && decide (s.rxGot < s.rxReqLen)) = true := by
    rw [running, valid, decide_eq_true waits]
    rfl
  rw [State.platform, State.uartRxTick, if_pos waiting, next]
  simp only [stored]

/-- Settles O32: the byte is stored by the platform, and if it fills the request the interrupt is taken in the same
step. -/
theorem lineByteIsReceivedLikeRxByte : Obligations.LineByteIsReceivedLikeRxByte := by
  intro b line later s running valid waits fits main idle done ready script result sched rxLine
  let t : State := { s with sched := later, rxLine := line }
  have inside : s.rxReqOff + s.rxGot + 1 ≤ s.cfg.rxbufSize := by omega
  have tick : s.platformTick = .next (t.fill [b]) := by
    have stored := State.platform_uartRx (s := { s with sched := later }) running valid waits inside rxLine
    simp only [State.platformTick, State.slot, sched, List.headD_cons, List.tail_cons, platformAll, stored]
    rfl
  have uncut : s.slot.cut = none := by rw [State.slot, sched]; rfl
  have ctx : (t.fill [b]).runningCtx = .main := by
    simp only [State.runningCtx, State.fill_stack, State.fill_ctx, t, idle, main]
  have irq := State.nextIrq_of_rx_alone ctx done ready
  by_cases last : s.rxGot + 1 = s.rxReqLen
  · have pending : (t.fill [b]).rxPending = true := Bool.and_eq_true_iff.2 ⟨valid, beq_iff_eq.2 last⟩
    rw [if_pos pending] at irq
    calc step s
        = exec (.rxComplete []) (t.fill [b]) := by rw [step_of_irq tick running irq, uncut]; rfl
      _ = (Prog.transition (t.around .irqRx)).run .irqRx (t.fill [b]).beginRx :=
          exec_rxComplete_of_fills (s := t.fill [b]) running valid last fits
      _ = exec (.rxComplete [b]) t := (exec_rxComplete_of_fills (s := t) (bs := [b]) running valid last fits).symm
      _ = exec (.rxByte b) t := (exec_rxByte_of_last (s := t) b last).symm
  · have pending : ¬ (t.fill [b]).rxPending = true := fun h =>
      last (beq_iff_eq.1 (Bool.and_eq_true_iff.1 h).2)
    rw [if_neg pending] at irq
    calc step s
        = (t.fill [b]).fetchScript none := by rw [(step_of_none tick running irq).2 idle, uncut]
      _ = .next (t.fill [b]) := State.fetchScript_of_nil (s := t.fill [b]) script none
      _ = .next ((t.fill [b]).returns .nothing) := by rw [← result]; rfl
      _ = exec (.rxByte b) t :=
          (exec_rxByte_of_more (s := t) b running valid (Nat.lt_of_le_of_ne waits last) inside).symm

/-! ## Reassembly of frames (42 R164) -/

/-- The type byte of a frame. -/
def H4Frame.typeByte : H4Frame → Byte
  | .command _ _ _ => tCmd
  | .aclData _ _ _ => tAcl

/-- The header of a frame, without the type byte. -/
def H4Frame.header : H4Frame → List Byte
  | .command g o payload => [g, o, BitVec.ofNat 8 payload.length]
  | .aclData h0 h1 payload => [h0, h1, BitVec.ofNat 8 payload.length, BitVec.ofNat 8 (payload.length / 256)]

/-- The payload of a frame. -/
def H4Frame.payload : H4Frame → List Byte
  | .command _ _ payload => payload
  | .aclData _ _ payload => payload

/-- The receive state in which the header of a frame is awaited. -/
def H4Frame.headerState : H4Frame → RxState
  | .command _ _ _ => .awaitingCmdHeader
  | .aclData _ _ _ => .awaitingAclHeader

theorem H4Frame.bytes_eq_parts (f : H4Frame) : f.bytes = f.typeByte :: (f.header ++ f.payload) := by cases f <;> rfl

theorem H4Frame.bytes_eq_delivery (f : H4Frame) : f.bytes = f.typeByte :: f.delivery.bytes := by cases f <;> rfl

theorem H4Frame.header_ne_nil (f : H4Frame) : f.header ≠ [] := by cases f <;> exact List.cons_ne_nil _ _

/-- A frame that fits ends inside `RXBUF`. -/
theorem H4Frame.length_le_of_fits {f : H4Frame} {size : Nat} (fits : f.fits size) :
    1 + f.header.length + f.payload.length ≤ size := by
  cases f with
  | command => exact fits.2
  | aclData => exact fits.2

theorem cmdLength_ofNat {n : Nat} (h : n ≤ 255) : cmdLength (BitVec.ofNat 8 n) = n := by
  rw [cmdLength, BitVec.toNat_ofNat, Nat.mod_eq_of_lt (by omega)]

theorem aclLength_ofNat {n : Nat} (h : n ≤ 65535) : aclLength (BitVec.ofNat 8 n) (BitVec.ofNat 8 (n / 256)) = n := by
  rw [aclLength, BitVec.toNat_ofNat, BitVec.toNat_ofNat]
  omega

/-- What `RXBUF` begins with, it begins with a part of. -/
theorem Memory.readN_zero_left {m : Memory} {bs cs : List Byte} (h : Memory.readN m 0 (bs ++ cs).length = bs ++ cs) :
    Memory.readN m 0 bs.length = bs := by
  rw [List.length_append, Memory.readN_add] at h
  exact List.append_inj_left h (Memory.length_readN _ _ _)

/-- Bytes written behind those a buffer begins with. -/
theorem Memory.readN_zero_writeN {m : Memory} (wf : Memory.Wf m) {bs : List Byte} (h : Memory.readN m 0 bs.length = bs)
    (cs : List Byte) : Memory.readN (Memory.writeN m bs.length cs) 0 (bs ++ cs).length = bs ++ cs := by
  have before : Memory.readN (Memory.writeN m bs.length cs) 0 bs.length = Memory.readN m 0 bs.length :=
    Memory.readN_congr fun x _ lt => by rw [Memory.read_writeN wf, if_neg (by omega)]
  rw [List.length_append, Memory.readN_add, before, h, Nat.zero_add, Memory.readN_writeN wf]

/-- A frame that fits and that `RXBUF` begins with is the frame to deliver. -/
theorem H4Frame.holds {f : H4Frame} {s : State} (there : Memory.readN s.rxbuf 0 f.bytes.length = f.bytes)
    (fits : f.fits s.cfg.rxbufSize) : s.Holds f.typeByte f.delivery := by
  have whole := there
  rw [f.bytes_eq_delivery] at whole
  obtain ⟨type, body⟩ := List.cons.inj whole
  refine ⟨type, ?_⟩
  cases f with
  | command g o payload =>
    obtain ⟨short, inside⟩ := fits
    have head := Memory.readN_zero_left (bs := [tCmd, g, o, BitVec.ofNat 8 payload.length]) there
    simp only [List.length_cons, List.length_nil, Memory.readN, List.cons.injEq] at head
    obtain ⟨-, -, -, len, -⟩ := head
    have length : (Memory.read s.rxbuf 3).toNat = payload.length := by rw [len]; exact cmdLength_ofNat short
    refine .inl ⟨rfl, by rw [length]; exact inside, ?_⟩
    rw [length, Nat.add_comm]
    exact congrArg (Delivery.mk .command) body.symm
  | aclData h0 h1 payload =>
    obtain ⟨short, inside⟩ := fits
    have head := Memory.readN_zero_left
      (bs := [tAcl, h0, h1, BitVec.ofNat 8 payload.length, BitVec.ofNat 8 (payload.length / 256)]) there
    simp only [List.length_cons, List.length_nil, Memory.readN, List.cons.injEq] at head
    obtain ⟨-, -, -, low, high, -⟩ := head
    have length : (Memory.read s.rxbuf 3).toNat + 256 * (Memory.read s.rxbuf 4).toNat = payload.length := by
      rw [low, high]; exact aclLength_ofNat short
    refine .inr ⟨rfl, by rw [length]; exact inside, ?_⟩
    rw [length, Nat.add_comm]
    exact congrArg (Delivery.mk .data) body.symm

theorem cmdLength_eq_zero (l : Byte) : cmdLength l = 0 ↔ l = 0#8 := BitVec.toNat_inj (y := 0#8)

theorem aclLength_eq_zero (l m : Byte) : aclLength l m = 0 ↔ l = 0#8 ∧ m = 0#8 := by
  rw [← cmdLength_eq_zero l, ← cmdLength_eq_zero m, aclLength, cmdLength, cmdLength]
  omega

/-- With a Command header in `RXBUF` the decoder selects the transition that delivers, if the length it holds is zero,
and else the one that requests that many bytes (42 R157, R158). -/
theorem decode_cmdHeader (m : Memory) :
    ∃ i rest, decode (.framer .awaitingCmdHeader) (Memory.readN m 0 5) = .ok (i, rest) ∧
      (cmdLength (Memory.read m 3) = 0 → Instr.delivers i = true) ∧
      (cmdLength (Memory.read m 3) ≠ 0 →
        ∀ a, Instr.prog i a = .requestPayload a cmdPayloadOff (cmdLength (Memory.read m 3))) := by
  rw [Memory.readN_five, decode, decodeFrame]
  by_cases zero : Memory.read m 3 = 0#8
  · exact ⟨_, _, by rw [if_pos zero], fun _ => rfl,
      fun positive => absurd ((cmdLength_eq_zero _).2 zero) positive⟩
  · exact ⟨_, _, by rw [if_neg zero], fun isZero => absurd ((cmdLength_eq_zero _).1 isZero) zero, fun _ _ => rfl⟩

/-- The same with an ACL-Data header (42 R159, R160). -/
theorem decode_aclHeader (m : Memory) :
    ∃ i rest, decode (.framer .awaitingAclHeader) (Memory.readN m 0 5) = .ok (i, rest) ∧
      (aclLength (Memory.read m 3) (Memory.read m 4) = 0 → Instr.delivers i = true) ∧
      (aclLength (Memory.read m 3) (Memory.read m 4) ≠ 0 →
        ∀ a, Instr.prog i a = .requestPayload a aclPayloadOff (aclLength (Memory.read m 3) (Memory.read m 4))) := by
  rw [Memory.readN_five, decode, decodeFrame]
  by_cases zero : Memory.read m 3 = 0#8 ∧ Memory.read m 4 = 0#8
  · exact ⟨_, _, by rw [if_pos zero], fun _ => rfl,
      fun positive => absurd ((aclLength_eq_zero _ _).2 zero) positive⟩
  · exact ⟨_, _, by rw [if_neg zero], fun isZero => absurd ((aclLength_eq_zero _ _).1 isZero) zero, fun _ _ => rfl⟩

/-- With the header of a frame that fits in `RXBUF`, the length it holds is that of the payload. -/
theorem H4Frame.header_selects {f : H4Frame} {m : Memory} {size : Nat} (fits : f.fits size)
    (there : Memory.readN m 0 (f.typeByte :: f.header).length = f.typeByte :: f.header) :
    ∃ i rest, decode (.framer f.headerState) (Memory.readN m 0 5) = .ok (i, rest) ∧
      (f.payload.length = 0 → Instr.delivers i = true) ∧
      (f.payload.length ≠ 0 →
        ∀ a, Instr.prog i a = .requestPayload a (f.typeByte :: f.header).length f.payload.length) := by
  cases f with
  | command g o payload =>
    obtain ⟨short, -⟩ := fits
    simp only [H4Frame.typeByte, H4Frame.header, List.length_cons, List.length_nil, Memory.readN,
      List.cons.injEq] at there
    obtain ⟨-, -, -, len, -⟩ := there
    have length := cmdLength_ofNat short
    rw [← len] at length
    have selects := decode_cmdHeader m
    rwa [length] at selects
  | aclData h0 h1 payload =>
    obtain ⟨short, -⟩ := fits
    simp only [H4Frame.typeByte, H4Frame.header, List.length_cons, List.length_nil, Memory.readN,
      List.cons.injEq] at there
    obtain ⟨-, -, -, low, high, -⟩ := there
    have length := aclLength_ofNat short
    rw [← low, ← high] at length
    have selects := decode_aclHeader m
    rwa [length] at selects

/-- The framer waits in the receive state `x` for `n` bytes with none of them stored, behind the bytes `before` of a
frame in `RXBUF`. -/
structure State.Awaits (s : State) (x : RxState) (before : List Byte) (n : Nat) : Prop where
  running : s.halted = false
  rxState : s.rxState = x
  valid : s.rxReqValid = true
  off : s.rxReqOff = before.length
  len : s.rxReqLen = n
  got : s.rxGot = 0
  fits : s.rxReqOff + s.rxReqLen ≤ s.cfg.rxbufSize
  wf : Memory.Wf s.rxbuf
  holds : Memory.readN s.rxbuf 0 before.length = before

/-- At a frame boundary the framer waits for a type byte. -/
theorem State.awaits_type_iff {s : State} :
    s.Awaits .awaitingType [] 1 ↔ s.AtFrameStart ∧ Memory.Wf s.rxbuf := by
  constructor
  · rintro ⟨running, rxState, valid, off, len, got, -, wf, -⟩
    exact ⟨⟨running, rxState, valid, off, len, got⟩, wf⟩
  · rintro ⟨⟨running, rxState, valid, off, len, got⟩, wf⟩
    have size := Config.rxbufSize_ge s.cfg
    exact ⟨running, rxState, valid, off, len, got, by omega, wf, rfl⟩

/-- The bytes `bs`, streamed one by one through `RX.BYTE`, lead from `s` to `t`; the frames `ds` are delivered on the
way, each accepted with no getter called, and pools, multiplexer and fault latch stay as they are. -/
structure State.Streams (s : State) (bs : List Byte) (ds : List Delivery) (t : State) : Prop where
  ran : runOps (bs.map .rxByte) s = .next t
  cfg : t.cfg = s.cfg
  delivered : t.delivered = s.delivered ++ ds
  answers : s.ctlIngest = List.replicate ds.length ⟨[], 0⟩ ++ t.ctlIngest
  random : SameRandom s t
  mux : SameMux s t
  latch : SameLatch s t

theorem State.Streams.refl (s : State) : s.Streams [] [] s :=
  ⟨rfl, rfl, (List.append_nil _).symm, rfl, .refl s, .refl s, .refl s⟩

theorem State.Streams.trans {s t u : State} {bs cs : List Byte} {ds es : List Delivery} (h : s.Streams bs ds t)
    (h' : t.Streams cs es u) : s.Streams (bs ++ cs) (ds ++ es) u where
  ran := by rw [List.map_append, runOps_append _ _ h.ran, h'.ran]
  cfg := h'.cfg.trans h.cfg
  delivered := by rw [h'.delivered, h.delivered, List.append_assoc]
  answers := by rw [h.answers, h'.answers, List.length_append, List.replicate_add, List.append_assoc]
  random := h.random.trans h'.random
  mux := h.mux.trans h'.mux
  latch := h.latch.trans h'.latch

/-- Bytes that leave the request unfilled are stored and counted, and nothing else happens. -/
theorem runOps_rxByte_partly {bs : List Byte} {s : State} (running : s.halted = false) (valid : s.rxReqValid = true)
    (more : s.rxGot + bs.length < s.rxReqLen) (fits : s.rxReqOff + s.rxReqLen ≤ s.cfg.rxbufSize) :
    ∃ r, runOps (bs.map .rxByte) s = .next ((s.fill bs).returns r) := by
  induction bs generalizing s with
  | nil => exact ⟨s.result, rfl⟩
  | cons b bs ih =>
    rw [List.length_cons] at more
    have first := exec_rxByte_of_more b running valid (by omega) (by omega)
    have more' : s.rxGot + 1 + bs.length < s.rxReqLen := by omega
    obtain ⟨r, others⟩ := ih (s := (s.fill [b]).returns .nothing) running valid more' fits
    refine ⟨r, ?_⟩
    rw [List.map_cons, runOps, first]
    calc runOps (bs.map .rxByte) ((s.fill [b]).returns .nothing)
        = .next (((s.fill [b]).fill bs).returns r) := others
      _ = .next ((s.fill (b :: bs)).returns r) := by rw [s.fill_fill]; rfl

/-- A proper part of what is awaited is taken in. -/
theorem State.Awaits.takes_part {s : State} {x : RxState} {before bs : List Byte} {n : Nat} (h : s.Awaits x before n)
    (part : bs.length < n) : ∃ t, s.Streams bs [] t := by
  obtain ⟨r, ran⟩ := runOps_rxByte_partly h.running h.valid (by rw [h.got, h.len, Nat.zero_add]; exact part) h.fits
  exact ⟨_, ran, rfl, (List.append_nil _).symm, rfl, ⟨rfl, rfl, rfl⟩, ⟨rfl, rfl, rfl, rfl, rfl⟩, ⟨rfl, rfl, rfl⟩⟩

section
variable {s : State} {x : RxState} {before bs : List Byte} (h : s.Awaits x before bs.length)
include h

/-- All that is awaited is stored behind the rest of the frame. -/
theorem State.Awaits.filled : Memory.readN (s.fill bs).rxbuf 0 (before ++ bs).length = before ++ bs := by
  rw [State.fill_rxbuf, h.off, h.got]
  exact Memory.readN_zero_writeN h.wf h.holds bs

/-- When all that is awaited has arrived, the transition the decoder selects is taken. -/
theorem State.Awaits.runs (nonempty : bs ≠ []) {i : Instr} {rest : List Byte}
    (decoded : decode (.framer x) (Memory.readN (s.fill bs).rxbuf 0 5) = .ok (i, rest)) :
    runOps (bs.map .rxByte) s = exec i (s.fill bs).beginRx := by
  have fills : s.rxGot + bs.length = s.rxReqLen := by rw [h.got, h.len, Nat.zero_add]
  rw [← h.rxState] at decoded
  rw [runOps_rxByte_eq_rxComplete nonempty h.valid fills,
    exec_rxComplete_of_decode h.running h.valid fills h.fits decoded]

/-- A transition that requests the next part of the frame. -/
theorem State.Awaits.requests (nonempty : bs ≠ []) {i : Instr} {rest : List Byte} {y : RxState} {n : Nat}
    (decoded : decode (.framer x) (Memory.readN (s.fill bs).rxbuf 0 5) = .ok (i, rest))
    (requests : ∀ a : Around, a.cfg = s.cfg → Instr.prog i a = .await y (before ++ bs).length n)
    (fits : (before ++ bs).length + n ≤ s.cfg.rxbufSize) :
    ∃ t, s.Streams bs [] t ∧ t.Awaits y (before ++ bs) n := by
  have requested : exec i (s.fill bs).beginRx =
      .next ((((s.fill bs).beginRx.enter y).request (before ++ bs).length n).returns .nothing) := by
    rw [exec_of_running i (by exact h.running), requests _ (by rfl), Prog.run_await]
  exact ⟨_, ⟨(h.runs nonempty decoded).trans requested, rfl, (List.append_nil _).symm, rfl, ⟨rfl, rfl, rfl⟩,
    ⟨rfl, rfl, rfl, rfl, rfl⟩, ⟨rfl, rfl, rfl⟩⟩,
    ⟨h.running, rfl, rfl, rfl, rfl, rfl, fits, Memory.writeN_wf h.wf _ bs, h.filled⟩⟩

/-- A transition that delivers the frame now complete. -/
theorem State.Awaits.delivers (nonempty : bs ≠ []) {i : Instr} {rest : List Byte} {f : H4Frame}
    {answers : List IngestAnswer} (decoded : decode (.framer x) (Memory.readN (s.fill bs).rxbuf 0 5) = .ok (i, rest))
    (complete : Instr.delivers i = true) (whole : before ++ bs = f.bytes) (fits : f.fits s.cfg.rxbufSize)
    (answer : s.ctlIngest = ⟨[], 0⟩ :: answers) :
    ∃ t, s.Streams bs [f.delivery] t ∧ t.Awaits .awaitingType [] 1 := by
  have filled := h.filled
  rw [whole] at filled
  have held : (s.fill bs).beginRx.Holds f.typeByte f.delivery := f.holds filled fits
  have ran := (h.runs nonempty decoded).trans (exec_of_delivers_accepted complete h.running held answer)
  exact ⟨_, ⟨ran, rfl, rfl, answer, ⟨rfl, rfl, rfl⟩, ⟨rfl, rfl, rfl, rfl, rfl⟩, ⟨rfl, rfl, rfl⟩⟩,
    State.awaits_type_iff.2 ⟨⟨h.running, rfl, rfl, rfl, rfl, rfl⟩, Memory.writeN_wf h.wf _ bs⟩⟩

end

/-- The type byte of a frame has its header requested (42 R154, R155). -/
theorem H4Frame.type_selects {f : H4Frame} {m : Memory} (there : Memory.read m 0 = f.typeByte) :
    ∃ i rest, decode (.framer .awaitingType) (Memory.readN m 0 5) = .ok (i, rest) ∧
      ∀ a, Instr.prog i a = .await f.headerState 1 f.header.length := by
  rw [Memory.readN_five, there, decode, decodeFrame]
  cases f with
  | command => exact ⟨.rxTypeCmd, _, rfl, fun _ => rfl⟩
  | aclData => exact ⟨.rxTypeAcl, _, rfl, fun _ => rfl⟩

section
variable {f : H4Frame} {s : State} (fits : f.fits s.cfg.rxbufSize)
include fits

theorem H4Frame.takes_type (h : s.Awaits .awaitingType [] 1) :
    ∃ t, s.Streams [f.typeByte] [] t ∧ t.Awaits f.headerState [f.typeByte] f.header.length := by
  have awaits : s.Awaits .awaitingType [] [f.typeByte].length := h
  obtain ⟨read, -⟩ := List.cons.inj awaits.filled
  obtain ⟨i, rest, decoded, requests⟩ := H4Frame.type_selects read
  exact awaits.requests (List.cons_ne_nil _ _) decoded (fun a _ => requests a)
    (Nat.le_trans (Nat.le_add_right _ _) (H4Frame.length_le_of_fits fits))

/-- The header of a frame with a payload has the payload requested (42 R158, R160). -/
theorem H4Frame.takes_header (h : s.Awaits f.headerState [f.typeByte] f.header.length) (nonempty : f.payload ≠ []) :
    ∃ t, s.Streams f.header [] t ∧ t.Awaits .awaitingPayload (f.typeByte :: f.header) f.payload.length := by
  obtain ⟨i, rest, decoded, -, requests⟩ := H4Frame.header_selects fits h.filled
  have room : (f.typeByte :: f.header).length + f.payload.length ≤ s.cfg.rxbufSize := by
    have := H4Frame.length_le_of_fits fits
    rw [List.length_cons]
    omega
  exact h.requests f.header_ne_nil decoded (fun a cfg => (requests (mt List.length_eq_zero_iff.1 nonempty) a).trans
    (if_neg (by rw [cfg]; exact Nat.not_lt.2 room))) room

/-- A frame that arrives at a frame boundary is delivered with its last byte, and a frame boundary is reached again
(42 R164). -/
theorem H4Frame.is_delivered (h : s.Awaits .awaitingType [] 1) {answers : List IngestAnswer}
    (answer : s.ctlIngest = ⟨[], 0⟩ :: answers) :
    ∃ t, s.Streams f.bytes [f.delivery] t ∧ t.Awaits .awaitingType [] 1 := by
  obtain ⟨t, type, awaitsHeader⟩ := H4Frame.takes_type fits h
  have fits' : f.fits t.cfg.rxbufSize := by rw [type.cfg]; exact fits
  have answer' : t.ctlIngest = ⟨[], 0⟩ :: answers := type.answers.symm.trans answer
  by_cases empty : f.payload = []
  · obtain ⟨i, rest, decoded, complete, -⟩ := H4Frame.header_selects fits' awaitsHeader.filled
    have whole : [f.typeByte] ++ f.header = f.bytes := by rw [f.bytes_eq_parts, empty, List.append_nil]; rfl
    obtain ⟨u, header, boundary⟩ := awaitsHeader.delivers f.header_ne_nil decoded
      (complete (List.length_eq_zero_iff.2 empty)) whole fits' answer'
    exact ⟨u, whole ▸ type.trans header, boundary⟩
  · have nonempty : f.payload ≠ [] := empty
    obtain ⟨u, header, awaitsPayload⟩ := H4Frame.takes_header fits' awaitsHeader nonempty
    have fits'' : f.fits u.cfg.rxbufSize := by rw [header.cfg]; exact fits'
    have whole : (f.typeByte :: f.header) ++ f.payload = f.bytes := by rw [f.bytes_eq_parts]; rfl
    obtain ⟨v, payload, boundary⟩ := awaitsPayload.delivers nonempty (i := .rxPayload) rfl rfl whole fits''
      (header.answers.symm.trans answer')
    exact ⟨v, whole ▸ (type.trans header).trans payload, boundary⟩

/-- A proper part of a frame is taken in, and not delivered. -/
theorem H4Frame.part_is_taken (h : s.Awaits .awaitingType [] 1) {arrived missing : List Byte}
    (parts : f.bytes = arrived ++ missing) (proper : missing ≠ []) : ∃ t, s.Streams arrived [] t := by
  cases arrived with
  | nil => exact ⟨s, .refl s⟩
  | cons b arrived =>
    obtain ⟨rfl, split⟩ := List.cons.inj (f.bytes_eq_parts.symm.trans parts)
    obtain ⟨t, type, awaitsHeader⟩ := H4Frame.takes_type fits h
    have fits' : f.fits t.cfg.rxbufSize := by rw [type.cfg]; exact fits
    by_cases short : arrived.length < f.header.length
    · obtain ⟨u, header⟩ := awaitsHeader.takes_part short
      exact ⟨u, type.trans header⟩
    · obtain ⟨rest, rfl, payload⟩ : ∃ rest, arrived = f.header ++ rest ∧ f.payload = rest ++ missing := by
        obtain ⟨rest, eq, eq'⟩ | ⟨rest, eq, eq'⟩ := List.append_eq_append_iff.1 split
        · exact ⟨rest, eq, eq'⟩
        · have length := congrArg List.length eq
          rw [List.length_append] at length
          obtain rfl : rest = [] := List.length_eq_zero_iff.1 (by omega)
          exact ⟨[], by rw [eq, List.append_nil, List.append_nil], eq'.symm⟩
      have more : rest.length < f.payload.length := by
        rw [payload, List.length_append]
        exact Nat.lt_add_of_pos_right (List.length_pos_iff.2 proper)
      have nonempty : f.payload ≠ [] := List.length_pos_iff.1 (Nat.zero_lt_of_lt more)
      obtain ⟨u, header, awaitsPayload⟩ := H4Frame.takes_header fits' awaitsHeader nonempty
      obtain ⟨v, part⟩ := awaitsPayload.takes_part more
      exact ⟨v, type.trans (header.trans part)⟩

end

/-- Frames one after another are delivered one after another. -/
theorem frames_are_delivered (frames : List H4Frame) {s : State} (h : s.Awaits .awaitingType [] 1)
    (fits : ∀ f ∈ frames, f.fits s.cfg.rxbufSize) {rest : List IngestAnswer}
    (answers : s.ctlIngest = List.replicate frames.length ⟨[], 0⟩ ++ rest) :
    ∃ t, s.Streams (frames.flatMap H4Frame.bytes) (frames.map H4Frame.delivery) t ∧ t.Awaits .awaitingType [] 1 := by
  induction frames generalizing s with
  | nil => exact ⟨s, .refl s, h⟩
  | cons f frames ih =>
    obtain ⟨fits, fitsAll⟩ := List.forall_mem_cons.1 fits
    obtain ⟨t, first, boundary⟩ := H4Frame.is_delivered fits h answers
    have answers' : t.ctlIngest = List.replicate frames.length ⟨[], 0⟩ ++ rest :=
      (List.cons.inj (first.answers.symm.trans answers)).2
    obtain ⟨u, others, boundary'⟩ := ih boundary (by rw [first.cfg]; exact fitsAll) answers'
    exact ⟨u, first.trans others, boundary'⟩

/-- Settles O31, by induction on the frames, and for the part of a further frame by the request it ends in. -/
theorem framesAreDeliveredInWireOrder : Obligations.FramesAreDeliveredInWireOrder := by
  intro frames f arrived missing rest s start wf fits parts proper fitsAll answers
  obtain ⟨t, whole, boundary⟩ := frames_are_delivered frames (State.awaits_type_iff.2 ⟨start, wf⟩) fitsAll answers
  have rest_eq : t.ctlIngest = rest := by
    have := whole.answers.symm.trans answers
    rw [List.length_map] at this
    exact List.append_cancel_left this
  obtain ⟨u, part⟩ := H4Frame.part_is_taken (by rw [whole.cfg]; exact fits) boundary parts proper
  exact ⟨t, whole.ran, (State.awaits_type_iff.1 boundary).1, whole.delivered, rest_eq, whole.random, whole.mux,
    whole.latch, u, part.ran, part.delivered.trans (List.append_nil _), part.latch.halted.trans boundary.running⟩

end Sys2Proof.Machine
end

section
/-! The statements of 43_h4_tx_mux.md: what a poll sends, and the transmission in flight. -/

namespace Sys2Proof.Machine

/-! ## A busy path (43 R181 step 1, R186, R189) -/

/-- Settles O34. -/
theorem txPollWhileBusyDoesNothing : Obligations.TxPollWhileBusyDoesNothing := fun _ running busy =>
  (exec_of_running .txPoll running).trans (run_txPoll_of_busy busy)

/-- Settles O38: the event exists, so it is taken and `tx_idle` is written. -/
theorem txCompleteSetsIdle : Obligations.TxCompleteSetsIdle := by
  intro s running exists_event
  have event : (s.txFlight || s.txDone) = true := Bool.or_eq_true_iff.2 exists_event
  rw [exec_of_running .txComplete running]
  change (progTxComplete (s.around .irqTx)).run .irqTx s = _
  rw [progTxComplete, Prog.run_act rfl]
  simp only [Val.getFlag, event, if_true]
  rfl

/-- `TXBUF`, the length of the transmission and what was handed to the UART are the same. -/
structure State.SameTransmission (s t : State) : Prop where
  txbuf : t.txbuf = s.txbuf
  sent : t.sent = s.sent
  txLen : t.txLen = s.txLen

theorem State.SameTransmission.refl (s : State) : s.SameTransmission s := ⟨rfl, rfl, rfl⟩

theorem State.SameTransmission.trans {s t u : State} (h : s.SameTransmission t) (h' : t.SameTransmission u) :
    s.SameTransmission u := ⟨h'.txbuf.trans h.txbuf, h'.sent.trans h.sent, h'.txLen.trans h.txLen⟩

theorem SameMux.sameTransmission {s t : State} (h : SameMux s t) : s.SameTransmission t := ⟨h.txbuf, h.sent, h.txLen⟩

theorem State.SameTransmission.raiseFatal (s : State) (c : FatalCode) (info : Nat) :
    s.SameTransmission (s.raiseFatal c info) := by
  unfold State.raiseFatal
  split <;> exact ⟨rfl, rfl, rfl⟩

/-- A transmission is in flight, or its event has not been taken. -/
def State.Transmitting (s : State) : Prop := s.txFlight = true ∨ s.txDone = true

/-- No event of the platform writes `TXBUF` or ends a transmission without its event (60 R212). -/
theorem EventDid.keeps_transmission {s t : State} (h : EventDid s t) (busy : s.Transmitting) :
    s.SameTransmission t ∧ t.Transmitting := by
  cases h with
  | quiet => exact ⟨.refl s, busy⟩
  | stored => exact ⟨⟨rfl, rfl, rfl⟩, busy⟩
  | sent => exact ⟨⟨rfl, rfl, rfl⟩, .inr rfl⟩
  | drawn => exact ⟨⟨rfl, rfl, rfl⟩, busy⟩
  | failed info =>
    refine ⟨.raiseFatal s _ info, ?_⟩
    unfold State.raiseFatal
    split <;> exact busy

theorem PlatformDid.keeps_transmission {s t : State} (h : PlatformDid s t) (busy : s.Transmitting) :
    s.SameTransmission t ∧ t.Transmitting := by
  refine h.keeps (P := fun u => s.SameTransmission u ∧ u.Transmitting) ?_ ⟨.refl s, busy⟩
  rintro u v ⟨same, busy⟩ did
  obtain ⟨same', busy'⟩ := did.keeps_transmission busy
  exact ⟨same.trans same', busy'⟩

/-- How a program ends a step writes no byte and hands nothing to the UART. -/
theorem Ended.sameTransmission {p : Part} {c : Ctx} {s t : State} (h : Ended p c s t) : s.SameTransmission t := by
  cases h with
  | returns r => exact ⟨rfl, rfl, rfl⟩
  | fatal code info => exact (State.SameTransmission.raiseFatal s code info).trans ⟨rfl, rfl, rfl⟩
  | stays call seen => exact ⟨rfl, rfl, rfl⟩

/-- A program of another unit leaves the transmission alone (00_scope R11). -/
theorem Prog.Within.runFor_sameTransmission {p : Part} {q : Prog} {n : Nat} {a : Activation} {s t : State}
    (hq : q.Within p) (ha : Call.part a.call = p) (other : p ≠ .mux) (h : Prog.runFor n a q s = .next t) :
    s.SameTransmission t := by
  obtain ⟨u, made, ended⟩ := Prog.runFor_eq_next hq ha h
  have elsewhere (m : Micro) (hm : m.part = .pools ∨ m.part = p) : m.part ≠ .mux := by
    rcases hm with hm | hm <;> rw [hm]
    · decide
    · exact other
  exact (made.muxSeen elsewhere).1.sameTransmission.trans ended.sameTransmission

/-- `TX.COMPLETE`, wherever it is cut, writes `tx_idle` and the platform's bits only (43 R186). -/
theorem runFor_txComplete_sameTransmission {n : Nat} {a : Activation} {x : Around} {s t : State}
    (h : Prog.runFor (n + 1) a (progTxComplete x) s = .next t) : s.SameTransmission t := by
  rw [progTxComplete, Prog.runFor_succ n a _ rfl] at h
  split at h
  · cases n with
    | zero => cases h; exact ⟨rfl, rfl, rfl⟩
    | succ n =>
      rw [Prog.runFor_succ n _ _ rfl, Prog.runFor_done] at h
      cases h
      exact ⟨rfl, rfl, rfl⟩
  · rw [Prog.runFor_refuse] at h; cases h

/-- `TX.POLL` returns after its first micro-step when that finds the path busy (43 R181 step 1). -/
theorem runFor_txPoll_of_busy {n : Nat} {a : Activation} {x : Around} {s : State} (busy : s.txIdle = false) :
    Prog.runFor (n + 1) a (progTxPoll x) s = .next (s.returns .nothing) := by
  rw [progTxPoll, Prog.runFor_succ n a _ rfl, busy]
  exact Prog.runFor_done n _ _ s

/-- An operation that starts on a busy path leaves the transmission alone: a poll finds the path busy, and no other
operation of the multiplexer writes `TXBUF`. -/
theorem Instr.runFor_sameTransmission {i : Instr} {n : Nat} {a : Activation} {x : Around} {s t : State}
    (ha : a.call = .op i) (busy : s.txIdle = false) (h : Prog.runFor (n + 1) a (Instr.prog i x) s = .next t) :
    s.SameTransmission t := by
  have other (hp : Instr.part i ≠ .mux) : s.SameTransmission t :=
    (Prog.Within.instr i x).runFor_sameTransmission (by rw [ha]; rfl) hp h
  cases i with
  | txPoll =>
    have returned := (runFor_txPoll_of_busy busy).symm.trans h
    cases returned
    exact ⟨rfl, rfl, rfl⟩
  | txComplete => exact runFor_txComplete_sameTransmission (x := x) h
  | _ => exact other nofun

/-- While a transmission is in flight or its event waits, the path is busy (10_state R34). -/
theorem State.Inv.txIdle_of_transmitting {s : State} (h : s.Inv) (running : s.halted = false) (busy : s.Transmitting) :
    s.txIdle = false :=
  (h.mux running (h.none_of_transmission running busy)).busy.2 busy

/-- What a step does after the platform's part leaves a transmission alone: nothing of the multiplexer is in progress, and
what starts finds the path busy. -/
theorem StepDid.sameTransmission {u t : State} (hi : u.Inv) (busy : u.Transmitting) (h : StepDid u t) :
    u.SameTransmission t := by
  cases h with
  | idle => exact .refl u
  | rx n _ running _ _ eq =>
    exact Instr.runFor_sameTransmission (i := .rxComplete []) rfl (hi.txIdle_of_transmitting running busy) eq
  | tx n _ running _ _ eq =>
    exact runFor_txComplete_sameTransmission (x := u.around .irqTx) eq
  | rng n _ running _ _ _ eq =>
    have same := Instr.runFor_sameTransmission (s := u.takeRngByte) (i := .rsProduce u.rngData) rfl
      (hi.txIdle_of_transmitting running busy) eq
    exact ⟨same.txbuf, same.sent, same.txLen⟩
  | resume n a below _ running top eq =>
    have other : Call.part a.call ≠ .mux :=
      hi.none_of_transmission running busy a (by rw [top]; exact List.mem_cons_self)
    have same := (Prog.Within.rest a u.cfg below).runFor_sameTransmission rfl other eq
    exact ⟨same.txbuf, same.sent, same.txLen⟩
  | call n i rest _ running _ _ eq =>
    have same := Instr.runFor_sameTransmission (s := { u with script := rest }) rfl
      (hi.txIdle_of_transmitting running busy) eq
    exact ⟨same.txbuf, same.sent, same.txLen⟩

/-- Settles O40: the platform keeps the transmission with its event, and what then runs finds the path busy. -/
theorem busyPathKeepsTxbuf : Obligations.BusyPathKeepsTxbuf := by
  intro s t hi running busy h
  obtain ⟨u, platform, did⟩ := step_eq_next h
  obtain ⟨same, busy'⟩ := platform.keeps_transmission busy
  have all := same.trans (did.sameTransmission (hi.platform platform) busy')
  exact ⟨all.txbuf, all.sent, all.txLen⟩

/-! ## One poll of an idle path (43 R181 to R187) -/

/-- A pull writes at the offsets from 1 on that the controller's bytes and the buffer have (43 R183, log 13). -/
theorem State.read_pulled {s : State} (wf : Memory.Wf s.txbuf) (k : TxKind) (rest : List PullAnswer) {bs : List Byte}
    {a : Nat} (outside : a = 0 ∨ bs.length < a ∨ s.cfg.txbufSize ≤ a) :
    Memory.read (s.pulled k rest bs).txbuf a = Memory.read s.txbuf a := by
  have size := Config.txbufSize_ge s.cfg
  rw [State.pulled_txbuf, Memory.read_writeN wf, if_neg]
  rw [List.length_take]
  omega

/-- The kind that is pulled after this one (43 R182). -/
def TxKind.other : TxKind → TxKind
  | .event => .data
  | .data => .event

/-- A poll has taken an answer of kind `k`, which left `m` in `TXBUF`, and has written the flag (43 R181, R185). -/
def State.polled (s : State) (k : TxKind) (rest : List PullAnswer) (m : Memory) : State :=
  match k with
  | .event => { s with ctlEvents := rest, txbuf := m, txLastEvt := true }
  | .data => { s with ctlDatas := rest, txbuf := m, txLastEvt := false }

theorem State.noteKind_pulled (s : State) (k : TxKind) (rest : List PullAnswer) (bs : List Byte) :
    (s.pulled k rest bs).noteKind k = s.polled k rest (s.pulled k rest bs).txbuf := by cases k <;> rfl

@[simp] theorem State.polled_cfg (s : State) (k : TxKind) (rest : List PullAnswer) (m : Memory) :
    (s.polled k rest m).cfg = s.cfg := by cases k <;> rfl
@[simp] theorem State.polled_halted (s : State) (k : TxKind) (rest : List PullAnswer) (m : Memory) :
    (s.polled k rest m).halted = s.halted := by cases k <;> rfl
@[simp] theorem State.polled_txbuf (s : State) (k : TxKind) (rest : List PullAnswer) (m : Memory) :
    (s.polled k rest m).txbuf = m := by cases k <;> rfl

theorem State.polled_pullKind (s : State) (k : TxKind) (rest : List PullAnswer) (m : Memory) :
    (s.polled k rest m).pullKind = k.other := by cases k <;> rfl

theorem State.polled_answers (s : State) (k k' : TxKind) (rest : List PullAnswer) (m : Memory) :
    (s.polled k rest m).answers k' = Function.update s.answers k rest k' := by
  cases k <;> cases k' <;> rfl

/-- The poll of an idle path whose controller answers with `x`. -/
theorem exec_txPoll_of_idle {s : State} (running : s.halted = false) (idle : s.txIdle = true) {k : TxKind}
    (kind : s.pullKind = k) {x : PullAnswer} {rest : List PullAnswer} (answer : nextAnswer (s.answers k) = (x, rest))
    {t : State} (polled : t = s.polled k rest (s.pulled k rest x.written).txbuf) :
    exec .txPoll s = .next (State.returns
      (if x.len = 0 then t
       else if s.cfg.txbufSize < 1 + x.len then t.raiseFatal .txOverlength x.len
       else (((t.setByte .txbuf 0 k.typeByte).setTxIdle false).setTxLen (1 + x.len)).uartTx (1 + x.len)) .nothing) := by
  rw [polled, ← State.noteKind_pulled]
  exact (exec_of_running .txPoll running).trans (run_txPoll_of_idle rfl idle kind answer)

/-- An empty pull: the flag is written, and nothing is sent (43 R185). -/
theorem exec_txPoll_of_nothing {s : State} (running : s.halted = false) (idle : s.txIdle = true) {k : TxKind}
    (kind : s.pullKind = k) {scratch : List Byte} {rest : List PullAnswer}
    (answer : nextAnswer (s.answers k) = (.nothing scratch, rest)) :
    exec .txPoll s = .next ((s.polled k rest (s.pulled k rest scratch).txbuf).returns .nothing) :=
  exec_txPoll_of_idle running idle kind answer rfl

theorem PullAnswer.len_frame_ne (b : Byte) (bs : List Byte) : (PullAnswer.frame b bs).len ≠ 0 := Nat.succ_ne_zero _

/-- A pulled frame that does not fit: the flag is written, and the fault is raised (43 R187). -/
theorem exec_txPoll_of_overlong {s : State} (running : s.halted = false) (idle : s.txIdle = true) {k : TxKind}
    (kind : s.pullKind = k) {b : Byte} {bs : List Byte} {rest : List PullAnswer}
    (answer : s.answers k = .frame b bs :: rest) (exceeds : s.cfg.txbufSize < 2 + bs.length) :
    exec .txPoll s = .next
      (((s.polled k rest (s.pulled k rest (b :: bs)).txbuf).latch .txOverlength (bs.length + 1)).returns .nothing) := by
  rw [exec_txPoll_of_idle running idle kind (x := .frame b bs) (rest := rest) (by rw [answer]; rfl) rfl,
    if_neg (PullAnswer.len_frame_ne b bs), if_pos (by rw [PullAnswer.len]; omega),
    State.raiseFatal_of_running ((State.polled_halted s _ _ _).trans running)]
  rfl

/-- `TXBUF` with a frame of kind `k` placed for sending: its type byte, and its bytes after it (43 R184). -/
def Memory.placeFrame (m : Memory) (k : TxKind) (f : List Byte) : Memory :=
  Memory.write (Memory.writeN m 1 f) 0 k.typeByte

theorem Memory.placeFrame_wf {m : Memory} (wf : Memory.Wf m) (k : TxKind) (f : List Byte) :
    Memory.Wf (m.placeFrame k f) := Memory.write_wf (Memory.writeN_wf wf 1 f) 0 _

theorem Memory.readN_placeFrame {m : Memory} (wf : Memory.Wf m) (k : TxKind) (f : List Byte) :
    Memory.readN (m.placeFrame k f) 0 (f.length + 1) = k.typeByte :: f := by
  have wf' := Memory.writeN_wf wf 1 f
  have after : Memory.readN (m.placeFrame k f) 1 f.length = f :=
    (Memory.readN_congr fun x _ _ => Memory.read_write_ne wf' (by omega) _).trans (Memory.readN_writeN wf 1 f)
  rw [Memory.readN, after, Memory.placeFrame, Memory.read_write_same wf']

theorem Memory.read_placeFrame_of_lt {m : Memory} (wf : Memory.Wf m) (k : TxKind) {f : List Byte} {a : Nat}
    (beyond : f.length < a) : Memory.read (m.placeFrame k f) a = Memory.read m a := by
  rw [Memory.placeFrame, Memory.read_write_ne (Memory.writeN_wf wf 1 f) (by omega), Memory.read_writeN wf, if_neg (by omega)]

/-- The frame `f` of kind `k` has been pulled and handed to the UART. -/
def State.sentFrame (s : State) (k : TxKind) (rest : List PullAnswer) (f : List Byte) : State :=
  { s.polled k rest (s.txbuf.placeFrame k f) with
    txIdle := false, txLen := f.length + 1, txFlight := true, sent := s.sent ++ [k.typeByte :: f], result := .nothing }

/-- The type byte, `tx_idle`, `tx_len` and the issue make of a frame pulled in `TXBUF` one that is sent (43 R184). -/
theorem State.sentFrame_eq {s : State} (wf : Memory.Wf s.txbuf) (k : TxKind) (rest : List PullAnswer) (f : List Byte) :
    ((((((s.polled k rest (Memory.writeN s.txbuf 1 f)).setByte .txbuf 0 k.typeByte).setTxIdle false).setTxLen
      (f.length + 1)).uartTx (f.length + 1)).returns .nothing) = s.sentFrame k rest f := by
  rw [State.sentFrame, ← Memory.readN_placeFrame wf k f]
  cases k <;> rfl

/-- A pulled frame that fits is sent (43 R184). -/
theorem exec_txPoll_of_fits {s : State} (running : s.halted = false) (idle : s.txIdle = true) {k : TxKind}
    (kind : s.pullKind = k) {b : Byte} {bs : List Byte} {rest : List PullAnswer}
    (answer : s.answers k = .frame b bs :: rest) (wf : Memory.Wf s.txbuf) (fits : bs.length + 2 ≤ s.cfg.txbufSize) :
    exec .txPoll s = .next (s.sentFrame k rest (b :: bs)) := by
  have whole : (s.pulled k rest (b :: bs)).txbuf = Memory.writeN s.txbuf 1 (b :: bs) := by
    rw [State.pulled_txbuf, List.take_of_length_le (by rw [List.length_cons]; omega)]
  rw [exec_txPoll_of_idle running idle kind (x := .frame b bs) (rest := rest) (by rw [answer]; rfl) rfl,
    if_neg (PullAnswer.len_frame_ne b bs), if_neg (by rw [PullAnswer.len]; omega), Nat.add_comm 1,
    PullAnswer.written, whole]
  exact congrArg Host.Outcome.next (State.sentFrame_eq wf k rest (b :: bs))

/-- Settles O35, by the kind that the flag selects. -/
theorem txPollSendsOneFrame : Obligations.TxPollSendsOneFrame := by
  intro b bs rest s running idle wf fits
  rw [Nat.add_comm 2] at fits ⊢
  have poll (k : TxKind) (kind : s.pullKind = k) (answer : s.answers k = .frame b bs :: rest) :=
    exec_txPoll_of_fits running idle kind answer wf fits
  exact ⟨fun flag answer => ⟨_, poll .event (congrArg txKind flag) answer, Memory.readN_placeFrame wf .event (b :: bs),
      fun _ => Memory.read_placeFrame_of_lt wf .event (f := b :: bs)⟩,
    fun flag answer => ⟨_, poll .data (congrArg txKind flag) answer, Memory.readN_placeFrame wf .data (b :: bs),
      fun _ => Memory.read_placeFrame_of_lt wf .data (f := b :: bs)⟩⟩

/-- A pull that finds no answer to come writes the flag only (log 12). -/
theorem State.polled_of_nil {s : State} {k : TxKind} (empty : s.answers k = []) :
    s.polled k [] (s.pulled k [] []).txbuf = s.noteKind k := by
  rw [State.pulled_txbuf, List.take_nil]
  cases s
  cases k <;> cases empty <;> rfl

/-- Settles O36, by the kind that the flag selects. -/
theorem txPollEmptyPullFlipsTheFlag : Obligations.TxPollEmptyPullFlipsTheFlag := by
  intro scratch rest s running idle wf
  have poll (k : TxKind) (kind : s.pullKind = k) (answer : s.answers k = .nothing scratch :: rest) :=
    exec_txPoll_of_nothing running idle kind (scratch := scratch) (rest := rest) (by rw [answer]; rfl)
  have empty (k : TxKind) (kind : s.pullKind = k) (answer : s.answers k = []) :
      exec .txPoll s = .next ((s.noteKind k).returns .nothing) := by
    have polled := exec_txPoll_of_nothing running idle kind (scratch := []) (rest := []) (by rw [answer]; rfl)
    rwa [State.polled_of_nil answer] at polled
  exact ⟨fun flag answer => ⟨_, poll .event (congrArg txKind flag) answer, fun _ => State.read_pulled wf .event rest⟩,
    fun flag answer => ⟨_, poll .data (congrArg txKind flag) answer, fun _ => State.read_pulled wf .data rest⟩,
    fun flag => empty .event (congrArg txKind flag), fun flag => empty .data (congrArg txKind flag)⟩

/-- Settles O37, by the kind that the flag selects. -/
theorem txPollOverlengthLatchesFault : Obligations.TxPollOverlengthLatchesFault := by
  intro b bs rest s running idle wf exceeds
  have poll (k : TxKind) (kind : s.pullKind = k) (answer : s.answers k = .frame b bs :: rest) :=
    exec_txPoll_of_overlong running idle kind answer exceeds
  have unwritten (k : TxKind) (a : Nat) (ha : a = 0 ∨ s.cfg.txbufSize ≤ a) :
      Memory.read (s.pulled k rest (b :: bs)).txbuf a = Memory.read s.txbuf a :=
    State.read_pulled wf k rest (ha.imp_right .inr)
  exact ⟨fun flag answer => ⟨_, poll .event (congrArg txKind flag) answer, unwritten .event⟩,
    fun flag answer => ⟨_, poll .data (congrArg txKind flag) answer, unwritten .data⟩⟩

/-! ## Polls one after another (43 R188) -/

/-- The first frame sent is the first of the kind at hand; the others are sent as if it were gone. -/
theorem alternating_succ {frames : TxKind → List (List Byte)} {k : TxKind} {f : List Byte} {fs : List (List Byte)}
    (h : frames k = f :: fs) (n : Nat) :
    alternating k (frames .event) (frames .data) (n + 1) =
      (k.typeByte :: f) ::
        alternating k.other (Function.update frames k fs .event) (Function.update frames k fs .data) n := by
  cases k <;> simp [h, alternating, TxKind.other, TxKind.typeByte]

/-- One frame is sent for each poll, as long as both kinds have one pending. -/
theorem length_alternating (k : TxKind) {es ds : List (List Byte)} {n : Nat} (he : n ≤ es.length) (hd : n ≤ ds.length) :
    (alternating k es ds n).length = n := by
  induction n generalizing k es ds with
  | zero => cases k <;> simp [alternating]
  | succ n ih =>
    obtain ⟨e, es, rfl⟩ := List.exists_cons_of_length_pos (Nat.zero_lt_of_lt he)
    obtain ⟨d, ds, rfl⟩ := List.exists_cons_of_length_pos (Nat.zero_lt_of_lt hd)
    rw [List.length_cons] at he hd
    cases k with
    | event => exact congrArg (· + 1) (ih .data (by omega) (by rw [List.length_cons]; omega))
    | data => exact congrArg (· + 1) (ih .event (by rw [List.length_cons]; omega) (by omega))

/-- The path is idle, and the controller offers these frames of each kind, none of them empty and all of them fitting. -/
structure State.Offering (s : State) (frames : TxKind → List (List Byte)) : Prop where
  running : s.halted = false
  idle : s.txIdle = true
  wf : Memory.Wf s.txbuf
  answers : ∀ k, s.answers k = offers (frames k)
  fits : ∀ k, ∀ f ∈ frames k, f ≠ [] ∧ 1 + f.length ≤ s.cfg.txbufSize

/-- The state after a poll that sent `f` and the completion of its transmission. -/
def State.sentAndDone (s : State) (k : TxKind) (rest : List PullAnswer) (f : List Byte) : State :=
  { s.sentFrame k rest f with txIdle := true, txFlight := false, txDone := false }

/-- A poll sends the first frame of the kind at hand, and once its transmission is complete the other kind is next. -/
theorem State.Offering.round {s : State} {frames : TxKind → List (List Byte)} (h : s.Offering frames) {f : List Byte}
    {fs : List (List Byte)} (next : frames s.pullKind = f :: fs) :
    ∃ t, runOps [.txPoll, .txComplete] s = .next t ∧ t.Offering (Function.update frames s.pullKind fs) ∧
      t.sent = s.sent ++ [s.pullKind.typeByte :: f] ∧ t.pullKind = s.pullKind.other := by
  obtain ⟨nonempty, fits⟩ := h.fits s.pullKind f (by rw [next]; exact List.mem_cons_self)
  obtain ⟨b, bs, rfl⟩ := List.exists_cons_of_ne_nil nonempty
  rw [List.length_cons] at fits
  have polled := exec_txPoll_of_fits h.running h.idle rfl ((h.answers s.pullKind).trans (by rw [next]; rfl)) h.wf
    (rest := offers fs) (by omega)
  have running : (s.sentFrame s.pullKind (offers fs) (b :: bs)).halted = false :=
    (State.polled_halted s _ _ _).trans h.running
  have answers (k : TxKind) : (s.sentAndDone s.pullKind (offers fs) (b :: bs)).answers k =
      offers (Function.update frames s.pullKind fs k) := by
    rw [Function.apply_update (fun _ => offers), ← funext h.answers]
    exact State.polled_answers s s.pullKind k (offers fs) _
  have fitting : ∀ k, ∀ f ∈ Function.update frames s.pullKind fs k, f ≠ [] ∧ 1 + f.length ≤ s.cfg.txbufSize :=
    (Function.forall_update_iff frames fun _ fs => ∀ f ∈ fs, f ≠ [] ∧ 1 + f.length ≤ s.cfg.txbufSize).2
      ⟨fun f hf => h.fits _ f (by rw [next]; exact List.mem_cons_of_mem _ hf), fun k _ => h.fits k⟩
  have completed : (s.sentAndDone s.pullKind (offers fs) (b :: bs)).Offering (Function.update frames s.pullKind fs) :=
    { running, answers
      idle := rfl
      wf := (State.polled_txbuf s _ _ _).symm ▸ Memory.placeFrame_wf h.wf _ _
      fits := (State.polled_cfg s _ _ _).symm ▸ fitting }
  refine ⟨s.sentAndDone s.pullKind (offers fs) (b :: bs), ?_, completed, rfl, State.polled_pullKind s _ _ _⟩
  simp only [runOps, polled, txCompleteSetsIdle _ running (.inl rfl)]
  rfl

/-- As many rounds as both kinds have frames for send them in turn. -/
theorem State.Offering.rounds (n : Nat) {s : State} {frames : TxKind → List (List Byte)} (h : s.Offering frames)
    (enough : ∀ k, n ≤ (frames k).length) :
    ∃ t, runOps (List.replicate n [Instr.txPoll, Instr.txComplete]).flatten s = .next t ∧
      t.sent = s.sent ++ alternating s.pullKind (frames .event) (frames .data) n ∧ t.txIdle = true := by
  induction n generalizing s frames with
  | zero => exact ⟨s, rfl, by cases s.pullKind <;> simp [alternating], h.idle⟩
  | succ n ih =>
    obtain ⟨f, fs, next⟩ := List.exists_cons_of_length_pos (Nat.zero_lt_of_lt (enough s.pullKind))
    obtain ⟨u, first, offering, sent, kind⟩ := h.round next
    have left : ∀ k, n ≤ (Function.update frames s.pullKind fs k).length := by
      refine (Function.forall_update_iff frames fun _ fs => n ≤ fs.length).2 ⟨?_, fun k _ => Nat.le_of_succ_le (enough k)⟩
      have here := enough s.pullKind
      rw [next] at here
      exact Nat.le_of_succ_le_succ here
    obtain ⟨t, others, sent', idle⟩ := ih offering left
    refine ⟨t, ?_, ?_, idle⟩
    · rw [List.replicate_succ, List.flatten_cons, runOps_append _ _ first, others]
    · rw [sent', sent, kind, alternating_succ next, List.append_assoc]
      rfl

/-- The frames of each kind. -/
def framesOf (es ds : List (List Byte)) : TxKind → List (List Byte)
  | .event => es
  | .data => ds

/-- Settles O39, by induction on the number of polls. -/
theorem pollsAlternateKinds : Obligations.PollsAlternateKinds := by
  intro n es ds s running idle wf events datas enoughE enoughD fits
  have offering : s.Offering (framesOf es ds) :=
    { running, idle, wf
      answers := fun k => by cases k <;> assumption
      fits := fun k f hf => fits f (List.mem_append.2 (by cases k; exacts [.inl hf, .inr hf])) }
  obtain ⟨t, ran, sent, idle⟩ := offering.rounds n (fun k => by cases k <;> assumption)
  exact ⟨t, ran, sent, length_alternating _ enoughE enoughD, idle⟩

end Sys2Proof.Machine
end

section
/-! The statements of 60_exceptions.md: the fault latch, the interrupts and their handlers, what the units share, and the
controller's ingest code. -/

namespace Sys2Proof.Machine

/-! ## The fault latch (60 R201, R203) -/

theorem State.raiseFatal_halted (s : State) (c : FatalCode) (info : Nat) : (s.raiseFatal c info).halted = true := by
  cases halted : s.halted with
  | false => rw [State.raiseFatal_of_running halted]; rfl
  | true => rw [State.raiseFatal_of_halted halted, halted]

theorem SameFramer.raiseFatal (s : State) (c : FatalCode) (info : Nat) : SameFramer s (s.raiseFatal c info) := by
  unfold State.raiseFatal
  split <;> exact ⟨rfl, rfl, rfl, rfl, rfl, rfl, rfl⟩

theorem SameMux.raiseFatal (s : State) (c : FatalCode) (info : Nat) : SameMux s (s.raiseFatal c info) := by
  unfold State.raiseFatal
  split <;> exact ⟨rfl, rfl, rfl, rfl, rfl⟩

/-- Settles O41: raised or found, the fault leaves the block halted. -/
theorem fatalConditionLatchesOnceAndStopsEveryOperation :
    Obligations.FatalConditionLatchesOnceAndStopsEveryOperation := fun c info s =>
  ⟨fun running => State.raiseFatal_of_running running c info, fun halted => State.raiseFatal_of_halted halted c info,
    fun i => exec_of_halted i (s.raiseFatal_halted c info), rfl⟩

/-- Settles O22: the frame is passed, and the answer to it is the fatal condition. -/
theorem rejectedFrameLatchesFault : Obligations.RejectedFrameLatchesFault := by
  intro i ty d status rest s delivers running held rejected answer
  have running' : (s.passes d).halted = false := running
  have answer' : (s.passes d).ctlIngest = ⟨[], status⟩ :: rest := answer
  rw [exec_of_delivers delivers running held, Prog.run_awaitAnswer_rejected running' answer' rejected]
  simp only [State.passes, State.setAnswers, State.latch, State.returns, FatalCode.code]

/-! ## What an operation that answers has done (00_scope R11) -/

/-- An operation makes micro-steps of its own unit and of the pools, and then ends. -/
theorem exec_eq_next {i : Instr} {s t : State} (h : exec i s = .next t) :
    ∃ u, Made (fun m => m.part = .pools ∨ m.part = Instr.part i) s u ∧
      Ended (Instr.part i) (Instr.context i s.runningCtx) u t := by
  cases running : s.halted with
  | true =>
    rw [exec_of_halted i running] at h
    cases h
    exact ⟨s, .refl s, .returns .nothing⟩
  | false =>
    obtain ⟨n, ran⟩ := State.launch_eq running i none
    exact Prog.runFor_eq_next (Prog.Within.instr i _) rfl (ran.symm.trans h)

/-- An operation makes only micro-steps its program may make; how it ends does not change RandomSource. -/
theorem exec_obeys {x : Allowed} {i : Instr} {s t : State} (hx : ∀ a, (Instr.prog i a).Obeys x)
    (h : exec i s = .next t) : ∃ u, Made x.micro s u ∧ SameRandom u t := by
  cases running : s.halted with
  | true =>
    rw [exec_of_halted i running] at h
    cases h
    exact ⟨s, .refl s, rfl, rfl, rfl⟩
  | false =>
    obtain ⟨n, ran⟩ := State.launch_eq running i none
    obtain ⟨u, made, random, -⟩ := Prog.runFor_obeys (hx _) (ran.symm.trans h)
    exact ⟨u, made, random⟩

theorem Ended.sameFramer {p : Part} {c : Ctx} {s t : State} (h : Ended p c s t) : SameFramer s t := by
  cases h with
  | returns r => exact ⟨rfl, rfl, rfl, rfl, rfl, rfl, rfl⟩
  | fatal code info => exact (SameFramer.raiseFatal s code info).trans ⟨rfl, rfl, rfl, rfl, rfl, rfl, rfl⟩
  | stays call seen => exact ⟨rfl, rfl, rfl, rfl, rfl, rfl, rfl⟩

theorem Ended.sameMux {p : Part} {c : Ctx} {s t : State} (h : Ended p c s t) : SameMux s t := by
  cases h with
  | returns r => exact ⟨rfl, rfl, rfl, rfl, rfl⟩
  | fatal code info => exact (SameMux.raiseFatal s code info).trans ⟨rfl, rfl, rfl, rfl, rfl⟩
  | stays call seen => exact ⟨rfl, rfl, rfl, rfl, rfl⟩

/-- No operation of the pools raises a fatal condition (60 R201). -/
theorem Ended.sameLatch {c : Ctx} {s t : State} (h : Ended .pools c s t) : SameLatch s t := by
  cases h with
  | returns r => exact ⟨rfl, rfl, rfl⟩
  | fatal code info unit => exact absurd rfl unit
  | stays call seen => exact ⟨rfl, rfl, rfl⟩

theorem exec_sameFramer {i : Instr} {s t : State} (other : Instr.part i ≠ .framer) (h : exec i s = .next t) :
    SameFramer s t := by
  obtain ⟨u, made, ended⟩ := exec_eq_next h
  have elsewhere (m : Micro) (hm : m.part = .pools ∨ m.part = Instr.part i) : m.part ≠ .framer := by
    rcases hm with hm | hm <;> rw [hm]
    · decide
    · exact other
  exact (made.framerSeen elsewhere).1.trans ended.sameFramer

theorem exec_sameMux {i : Instr} {s t : State} (other : Instr.part i ≠ .mux) (h : exec i s = .next t) : SameMux s t := by
  obtain ⟨u, made, ended⟩ := exec_eq_next h
  have elsewhere (m : Micro) (hm : m.part = .pools ∨ m.part = Instr.part i) : m.part ≠ .mux := by
    rcases hm with hm | hm <;> rw [hm]
    · decide
    · exact other
  exact (made.muxSeen elsewhere).1.trans ended.sameMux

theorem exec_sameLatch {i : Instr} {s t : State} (pools : Instr.part i = .pools) (h : exec i s = .next t) :
    SameLatch s t := by
  obtain ⟨u, made, ended⟩ := exec_eq_next h
  rw [pools] at ended
  have unmoved := made.unmoved
  exact SameLatch.trans ⟨unmoved.halted, unmoved.faultCode, unmoved.faultInfo⟩ ended.sameLatch

/-- Everything is allowed but the micro-steps of the pools. -/
abbrev Allowed.noPools : Allowed := ⟨fun m => m.part ≠ .pools, fun _ => True, True⟩

/-- A program that neither reads nor writes anything of RandomSource. -/
abbrev Prog.AvoidsPools (q : Prog) : Prop := q.Obeys .noPools

theorem Prog.AvoidsPools.request (off n : Nat) : (Prog.request off n).AvoidsPools :=
  ⟨nofun, fun _ => ⟨nofun, fun _ => ⟨nofun, fun _ => ⟨nofun, fun _ => trivial⟩⟩⟩⟩

theorem Prog.AvoidsPools.await (x : RxState) (off n : Nat) : (Prog.await x off n).AvoidsPools :=
  ⟨nofun, fun _ => Prog.AvoidsPools.request off n⟩

theorem Prog.AvoidsPools.requestPayload (a : Around) (off len : Nat) : (Prog.requestPayload a off len).AvoidsPools := by
  unfold Prog.requestPayload
  split
  · trivial
  · exact Prog.AvoidsPools.await _ _ _

theorem Prog.AvoidsPools.rxStart (a : Around) : (progRxStart a).AvoidsPools := by
  refine ⟨nofun, fun again => ?_⟩
  beta_reduce
  split
  · trivial
  · exact Prog.AvoidsPools.request 0 1

theorem Prog.AvoidsPools.mux {i : Instr} (h : Instr.part i = .mux) (a : Around) : (Instr.prog i a).AvoidsPools := by
  have own (m : Micro) (hm : m.part = .mux) : m.part ≠ .pools := by rw [hm]; nofun
  cases i with
  | txPoll => exact Prog.Obeys.poll own trivial a
  | txComplete =>
    refine ⟨nofun, fun event => ?_⟩
    beta_reduce
    split
    · exact ⟨nofun, fun _ => trivial⟩
    · trivial
  | _ => cases h

theorem exec_sameRandom {i : Instr} {s t : State} (avoids : ∀ a, (Instr.prog i a).AvoidsPools)
    (h : exec i s = .next t) : SameRandom s t := by
  obtain ⟨u, made, random⟩ := exec_obeys avoids h
  exact (made.sameRandom fun _ => id).trans random

/-- Everything is allowed but the start of the generator. -/
abbrev Allowed.noStart : Allowed := ⟨fun m => m ≠ .startRng, fun _ => True, True⟩

theorem Micro.ne_startRng_of_part {m : Micro} (h : m.part ≠ .pools) : m ≠ .startRng := by
  rintro rfl
  exact h rfl

theorem Allowed.noStart_framer : Allowed.noStart.Framer :=
  ⟨fun _ _ _ other => other, fun _ hm _ => Micro.ne_startRng_of_part (by rw [hm]; nofun), fun _ _ => trivial, trivial⟩

theorem Made.rsStarted {s t : State} (h : Made (fun m => m ≠ .startRng) s t) : t.rsStarted = s.rsStarted := by
  induction h with
  | refl s => rfl
  | step allowed made _ ih => exact ih.trans (State.perform_rsStarted allowed made)

/-- Only `RS.INIT` starts the generator (41 R131). -/
theorem exec_rsStarted {i : Instr} {s t : State} (other : i ≠ .rsInit) (h : exec i s = .next t) :
    t.rsStarted = s.rsStarted := by
  have mux (m : Micro) (hm : m.part = .mux) : m ≠ .startRng := Micro.ne_startRng_of_part (by rw [hm]; nofun)
  have obeys (a : Around) : (Instr.prog i a).Obeys .noStart :=
    .instr i a (fun _ => Allowed.noStart_framer.pools) (fun _ => Allowed.noStart_framer) (fun _ => ⟨mux, trivial⟩)
      (fun _ _ => trivial) (fun init => absurd init other) (fun _ _ => nofun) (fun _ _ => nofun)
  obtain ⟨u, made, random⟩ := exec_obeys obeys h
  exact random.rsStarted.trans made.rsStarted

/-- Settles O44: by the unit of the operation, and for the framer by whether the transition can deliver. -/
theorem unitsShareNoState : Obligations.UnitsShareNoState := by
  intro i s t h
  have pools (unit : Instr.part i = .pools) : SameFramer s t ∧ SameMux s t ∧ SameLatch s t :=
    ⟨exec_sameFramer (by rw [unit]; nofun) h, exec_sameMux (by rw [unit]; nofun) h, exec_sameLatch unit h⟩
  have mux (unit : Instr.part i = .mux) : SameRandom s t ∧ SameFramer s t :=
    ⟨exec_sameRandom (Prog.AvoidsPools.mux unit) h, exec_sameFramer (by rw [unit]; nofun) h⟩
  have requests (unit : Instr.part i = .framer) (avoids : ∀ a, (Instr.prog i a).AvoidsPools) :
      SameRandom s t ∧ SameMux s t := ⟨exec_sameRandom avoids h, exec_sameMux (by rw [unit]; nofun) h⟩
  have delivers (unit : Instr.part i = .framer) : SameMux s t ∧ t.rsStarted = s.rsStarted :=
    ⟨exec_sameMux (by rw [unit]; nofun) h, exec_rsStarted (by rintro rfl; cases unit) h⟩
  cases i with
  | txPoll | txComplete => exact mux rfl
  | rxTypeCmd | rxTypeAcl => exact requests rfl fun _ => Prog.AvoidsPools.await _ _ _
  | rxTypeBad => exact requests rfl fun _ => trivial
  | rxCmdhdrNz | rxAclhdrNz => exact requests rfl fun a => Prog.AvoidsPools.requestPayload a _ _
  | rxStart => exact requests rfl Prog.AvoidsPools.rxStart
  | rxCmdhdrZ | rxAclhdrZ | rxPayload | rxComplete | rxByte => exact delivers rfl
  | _ => exact pools rfl

/-! ## The interrupt taken (60 R214) -/

/-- What is pending and can preempt the running context is one of the interrupts asked for. -/
theorem State.mem_irqs {s : State} {z : Ctx} (pending : s.pending z = true)
    (preempts : Config.canPreempt s.cfg z s.runningCtx = true) :
    z ∈ [Ctx.irqRx, Ctx.irqTx, Ctx.irqRng].filter
      fun y => s.pending y && Config.canPreempt s.cfg y s.runningCtx := by
  refine List.mem_filter.2 ⟨?_, Bool.and_eq_true_iff.2 ⟨pending, preempts⟩⟩
  cases z with
  | main => cases pending
  | irqRx | irqTx | irqRng => decide

/-- If no interrupt is taken, none that is pending can preempt. -/
theorem State.canPreempt_of_nextIrq_none {s : State} (none : s.nextIrq = none) {z : Ctx} (pending : s.pending z = true) :
    Config.canPreempt s.cfg z s.runningCtx = false := by
  rw [← Bool.not_eq_true]
  intro preempts
  have asked := State.mem_irqs pending preempts
  rw [(Config.mostUrgent_spec _ _).1 none] at asked
  cases asked

/-- Settles O45: the interrupt taken is the most urgent of those asked for. -/
theorem mostUrgentInterruptIsTaken : Obligations.MostUrgentInterruptIsTaken := by
  refine fun s => ⟨fun y taken => ?_, fun none z => State.canPreempt_of_nextIrq_none none,
    fun y x interrupt => Config.canPreempt_iff s.cfg interrupt⟩
  obtain ⟨pending, preempts⟩ := State.nextIrq_eq_some taken
  exact ⟨pending, preempts, fun z pending' preempts' =>
    (Config.mostUrgent_spec _ _).2 y taken z (State.mem_irqs pending' preempts')⟩

/-- In the main loop the only pending interrupt is taken. -/
theorem State.nextIrq_of_alone {s : State} {y : Ctx} (main : s.runningCtx = .main) (pending : s.pending y = true)
    (alone : ∀ z, z ≠ y → s.pending z = false) : s.nextIrq = some y := by
  cases taken : s.nextIrq with
  | none =>
    have refused := State.canPreempt_of_nextIrq_none taken pending
    rw [main] at refused
    cases refused
  | some z =>
    obtain ⟨pending', -⟩ := State.nextIrq_eq_some taken
    by_cases same : z = y
    · rw [same]
    · rw [alone z same] at pending'
      cases pending'

/-! ## Its handler (60 R211 to R213) -/

/-- What starts leaves everything in progress where it is. -/
theorem State.launch_stack {s t : State} {i : Instr} {cut : Option Nat} (running : s.halted = false)
    (h : s.launch i cut = .next t) : s.stack <:+ t.stack := by
  obtain ⟨n, ran⟩ := State.launch_eq running i cut
  obtain same | ⟨x, top, -, -⟩ := Prog.runFor_stack (Prog.Within.instr i _) rfl (ran.symm.trans h)
  · exact same ▸ List.suffix_refl _
  · exact top ▸ List.suffix_cons x _

theorem State.handle_stack {s t : State} {y : Ctx} {cut : Option Nat} (running : s.halted = false)
    (h : s.handle y cut = .next t) : s.stack <:+ t.stack := by
  cases y with
  | main => cases h; exact List.suffix_refl _
  | irqRx => exact State.launch_stack running h
  | irqTx => exact State.launch_stack running h
  | irqRng => exact State.launch_stack (s := s.takeRngByte) running h

/-- Settles O46: the step is the handler of the interrupt taken. -/
theorem interruptRunsItsHandler : Obligations.InterruptRunsItsHandler := by
  intro s u tick running
  refine ⟨fun taken => ?_, fun taken => ?_, fun taken => ?_, fun some t h => ?_⟩
  · have starts : step s = u.launch (.rxComplete []) s.slot.cut := step_of_irq tick running taken
    refine ⟨starts, fun uncut fits => ?_⟩
    obtain ⟨pending, -⟩ := State.nextIrq_eq_some taken
    obtain ⟨valid, filled⟩ := Bool.and_eq_true_iff.1 pending
    obtain ⟨i, rest, decoded, ran⟩ := exec_rxComplete_selects (bs := []) running valid (beq_iff_eq.1 filled) fits
    exact ⟨i, rest, decoded, by rw [starts, uncut]; exact ran⟩
  · have starts : step s = u.launch .txComplete s.slot.cut := step_of_irq tick running taken
    exact ⟨starts, fun uncut => by rw [starts, uncut]; rfl⟩
  · have starts : step s = u.takeRngByte.launch (.rsProduce u.rngData) s.slot.cut := step_of_irq tick running taken
    exact ⟨starts, fun uncut => by rw [starts, uncut]; rfl⟩
  · obtain ⟨y, taken⟩ := Option.ne_none_iff_exists'.1 some
    rw [step_of_irq tick running taken] at h
    exact State.handle_stack running h

/-! ## The platform's flags (60 R212, R213, R218) -/

/-- A schedule entry of one event that does not fail. -/
theorem State.platformTick_of_event {s u : State} {e : PlatEvent} {cut : Option Nat} {later : List Slot}
    (entry : s.sched = ⟨[e], cut⟩ :: later) (did : State.platform { s with sched := later } e = .next u) :
    s.platformTick = .next u := by
  simp only [State.platformTick, State.slot, entry, List.headD_cons, List.tail_cons, platformAll, did]

/-- Its cut is that of the step. -/
theorem State.slot_cut_of_event {s : State} {e : PlatEvent} {cut : Option Nat} {later : List Slot}
    (entry : s.sched = ⟨[e], cut⟩ :: later) : s.slot.cut = cut := by
  rw [State.slot, entry]; rfl

theorem State.platform_uartTx_of_flight {s : State} (flight : s.txFlight = true) :
    s.platform .uartTx = .next { s with txFlight := false, txDone := true } := congrArg _ (if_pos flight)

theorem State.platform_uartTx_of_none {s : State} (idle : s.txFlight = false) : s.platform .uartTx = .next s := by
  rw [State.platform, State.uartTxTick, idle, if_neg Bool.false_ne_true]

theorem State.platform_rngByte_of_next {s : State} {b : Byte} {line : List Byte} (started : s.rsStarted = true)
    (ready : s.rngReady = false) (next : s.rngLine = b :: line) :
    s.platform .rngByte = .next { s with rngReady := true, rngData := b, rngLine := line } := by
  rw [State.platform, State.rngTick, started, ready, next]; rfl

theorem State.platform_rngByte_of_none {s : State} (h : s.rsStarted = false ∨ s.rngReady = true ∨ s.rngLine = []) :
    s.platform .rngByte = .next s := by
  rw [State.platform, State.rngTick]
  obtain stopped | waits | dry := h
  · rw [stopped]; rfl
  · rw [waits, Bool.not_true, Bool.and_false, if_neg Bool.false_ne_true]
  · rw [dry]; split <;> rfl

/-- Settles O47: what the event sets makes the one interrupt that is pending. -/
theorem platformSetsItsFlags : Obligations.PlatformSetsItsFlags := by
  intro cut later s
  refine ⟨fun entry => ⟨fun flight => ?_, fun idle => ?_⟩,
    fun entry => ⟨fun b line next started ready => ?_, fun quiet => ?_⟩⟩
  · let u : State := { s with sched := later, txFlight := false, txDone := true }
    have tick : s.platformTick = .next u :=
      State.platformTick_of_event entry (State.platform_uartTx_of_flight (s := { s with sched := later }) flight)
    refine ⟨u, rfl, tick, rfl, fun uncut running main noRx noRng => ?_⟩
    have alone (z : Ctx) (other : z ≠ .irqTx) : u.pending z = false := by
      cases z with
      | main => rfl
      | irqRx => exact noRx
      | irqTx => exact absurd rfl other
      | irqRng => exact noRng
    have taken : u.nextIrq = some .irqTx := State.nextIrq_of_alone main rfl alone
    rw [step_of_irq tick running taken, State.slot_cut_of_event entry, uncut]
    rfl
  · exact State.platformTick_of_event entry (State.platform_uartTx_of_none (s := { s with sched := later }) idle)
  · let u : State := { s with sched := later, rngReady := true, rngData := b, rngLine := line }
    have tick : s.platformTick = .next u :=
      State.platformTick_of_event entry
        (State.platform_rngByte_of_next (s := { s with sched := later }) started ready next)
    have pending : u.pending .irqRng = true := started
    refine ⟨u, rfl, tick, pending, fun uncut running main noRx noTx => ?_⟩
    have alone (z : Ctx) (other : z ≠ .irqRng) : u.pending z = false := by
      cases z with
      | main => rfl
      | irqRx => exact noRx
      | irqTx => exact noTx
      | irqRng => exact absurd rfl other
    have taken : u.nextIrq = some .irqRng := State.nextIrq_of_alone main pending alone
    rw [step_of_irq tick running taken, State.slot_cut_of_event entry, uncut]
    rfl
  · exact State.platformTick_of_event entry (State.platform_rngByte_of_none (s := { s with sched := later }) quiet)

/-! ## Random bytes for the ingest code (60 R210, 41 R134, R135, R138, R139) -/

/-- A pool with the oldest `n` bytes taken from it: only the read index has moved (40 R118). -/
structure RingPool.TakenFrom (p : RingPool) (n : Nat) (q : RingPool) : Prop where
  unread : q.unread = p.unread.drop n
  w : q.w = p.w
  slots : q.slots = p.slots

theorem Prog.ifSoleConsumer_of_sole {a : Around} {p : PoolId} (sole : a.consuming p = false) (k : Prog) :
    Prog.ifSoleConsumer a p k = k := by
  rw [Prog.ifSoleConsumer, sole, if_neg Bool.false_ne_true]

section
variable {a : Around} {g : GetCall} {ty : Byte} {status : Nat} {calls : List GetCall} {c : Ctx} {s : State}
  (sole : a.consuming g.pool = false)
include sole

/-- A getter that does not block is one vector take of its pool. -/
theorem Prog.ingestCode_of_returning (returns : g ≠ .lowBlocking g.amount) :
    Prog.ingestCode a ty status (g :: calls) =
      .takev g.pool g.amount fun r => .act (.gave r) fun _ => .ingestCode a ty status calls := by
  cases g with
  | high n | low n => exact Prog.ifSoleConsumer_of_sole sole _
  | lowBlocking n => exact absurd rfl returns

/-- A getter that blocks is one pass of the loop, and stays in progress until one succeeds. -/
theorem Prog.ingestCode_of_blocking (blocks : g = .lowBlocking g.amount) :
    Prog.ingestCode a ty status (g :: calls) =
      .getlobPass a g.amount (fun r => .act (.gave r) fun _ => .ingestCode a ty status calls)
        (.stay (.ingest ty status (g :: calls))) := by
  cases g with
  | high n | low n => cases blocks
  | lowBlocking n => exact Prog.ifSoleConsumer_of_sole sole _

/-- A getter that finds enough bytes gets the oldest, and the ingest code goes on. -/
theorem Prog.run_ingestCode_of_le (enough : g.amount ≤ (s.pool g.pool).count) :
    ∃ q, (Prog.ingestCode a ty status (g :: calls)).run c s =
        (Prog.ingestCode a ty status calls).run c
          ((s.setPool g.pool q).gave (.taken ((s.pool g.pool).unread.take g.amount))) ∧
      (s.pool g.pool).TakenFrom g.amount q := by
  obtain ⟨q, took, w, slots, -, unread, -⟩ := State.take_of_le enough
  refine ⟨q, ?_, unread, w, slots⟩
  by_cases blocks : g = .lowBlocking g.amount
  · have low : g.pool = .low := by rw [blocks]; rfl
    have enough' : g.amount ≤ s.low.count := by rw [low] at enough; exact enough
    rw [Prog.ingestCode_of_blocking sole blocks, Prog.run_getlobPass_of_le c a _ _ enough', ← low, took,
      Prog.run_act rfl]
  · rw [Prog.ingestCode_of_returning sole blocks, Prog.run_takev, took, Prog.run_act rfl]

/-- A getter that does not block and finds too few bytes gets `false`, and the ingest code goes on. -/
theorem Prog.run_ingestCode_of_gt (short : (s.pool g.pool).count < g.amount) (returns : g ≠ .lowBlocking g.amount) :
    (Prog.ingestCode a ty status (g :: calls)).run c s =
      (Prog.ingestCode a ty status calls).run c (s.gave .notTaken) := by
  rw [Prog.ingestCode_of_returning sole returns, Prog.run_takev, State.take_of_gt short, Prog.run_act rfl]

end

section
variable {a : Around} {n : Nat} {ty : Byte} {status : Nat} {calls : List GetCall} {c : Ctx} {s : State}
  (sole : a.consuming .low = false) (short : s.low.count < n)
include sole short

/-- The blocking getter that finds too few bytes makes one pass of its loop: the pump where the RNG interrupt cannot
preempt, or nothing; and the call stays in progress (41 R138, R139; log 25). -/
theorem Prog.run_ingestCode_blocking :
    (Prog.ingestCode a ty status (.lowBlocking n :: calls)).run c s =
      if a.pumps then (Prog.pump a (.stay (.ingest ty status (.lowBlocking n :: calls)))).run c s
      else .next (s.suspend ⟨c, .ingest ty status (.lowBlocking n :: calls), []⟩) := by
  rw [Prog.ingestCode_of_blocking (g := .lowBlocking n) sole rfl]
  exact Prog.run_getlobPass_of_gt c a _ _ short

/-- It pumps where a byte waits and no producer is suspended. -/
theorem Prog.run_ingestCode_pumps (urgent : Config.prio a.cfg a.ctx ≤ a.cfg.prioRng) (ready : s.rngReady = true)
    (producer : a.producing = false) :
    (Prog.ingestCode a ty status (.lowBlocking n :: calls)).run c s =
      .next (s.pump.suspend ⟨c, .ingest ty status (.lowBlocking n :: calls), []⟩) := by
  have pumps : a.pumps = true := decide_eq_true urgent
  rw [Prog.run_ingestCode_blocking sole short, if_pos pumps, Prog.run_pump, ready, producer,
    if_neg (by decide), if_neg Bool.false_ne_true, Prog.run_stay]

/-- It spins where the RNG interrupt can preempt or no byte waits. -/
theorem Prog.run_ingestCode_spins (quiet : a.cfg.prioRng < Config.prio a.cfg a.ctx ∨ s.rngReady = false) :
    (Prog.ingestCode a ty status (.lowBlocking n :: calls)).run c s =
      .next (s.suspend ⟨c, .ingest ty status (.lowBlocking n :: calls), []⟩) := by
  rw [Prog.run_ingestCode_blocking sole short]
  obtain lower | idle := quiet
  · have pumps : a.pumps = false := decide_eq_false (Nat.not_le.2 lower)
    rw [pumps, if_neg Bool.false_ne_true]
  · rw [Prog.run_pump, if_pos idle, Prog.run_stay, ite_self]

end

/-- A transition that delivers runs the ingest code of the controller's answer. -/
theorem exec_of_delivers_answered {i : Instr} {s : State} {ty : Byte} {d : Delivery} {x : IngestAnswer}
    {rest : List IngestAnswer} (delivers : Instr.delivers i = true) (running : s.halted = false) (held : s.Holds ty d)
    (answer : s.ctlIngest = x :: rest) :
    exec i s = (Prog.ingestCode (s.around .irqRx) ty x.status x.calls).run .irqRx ((s.passes d).setAnswers rest) := by
  have answer' : (s.passes d).ctlIngest = x :: rest := answer
  rw [exec_of_delivers delivers running held, Prog.run_awaitAnswer_of_cons answer']

/-- The ingest code that has called its getters returns success, and the next type byte is requested. -/
theorem Prog.run_ingestCode_nil (a : Around) (ty : Byte) (c : Ctx) (s : State) :
    (Prog.ingestCode a ty 0 []).run c s = .next (((s.enter .awaitingType).request 0 1).returns .nothing) := by
  rw [Prog.ingestCode, Prog.run_ingested, if_pos rfl]

/-- A step of ingest code on top of the stack, with no interrupt to take and nothing cut, goes on with its next getter
(log 25). -/
theorem step_of_ingest {s u : State} {ty : Byte} {status : Nat} {calls : List GetCall} {below : List Activation}
    (tick : s.platformTick = .next u) (uncut : s.slot.cut = none) (running : u.halted = false)
    (noIrq : u.nextIrq = none) (top : u.stack = ⟨.irqRx, .ingest ty status calls, []⟩ :: below) :
    step s = (Prog.ingestCode ⟨u.cfg, .irqRx, below⟩ ty status calls).run .irqRx { u with stack := below } := by
  rw [(step_of_none tick running noIrq).1 _ _ top, uncut, State.proceed_none, Activation.rest, Prog.after_nil]
  rfl

/-- The pump and what it is part of staying in progress: the routing of the waiting byte, with the activation on top. -/
theorem State.pump_suspend (s : State) (a : Activation) :
    s.pump.suspend a = { (s.takeRngByte.produce s.rngData).returns .nothing with
      stack := a :: s.stack, result := .unfinished } := by
  rw [State.suspend, s.pump_stack]; rfl

/-- The state in which a transition ends whose ingest code has received `r`. -/
theorem State.ingested_eq (s : State) (r : Result) :
    (((s.gave r).enter .awaitingType).request 0 1).returns .nothing = { s with
      ctlGot := s.ctlGot ++ [r], rxState := .awaitingType, rxReqValid := true, rxReqOff := 0, rxReqLen := 1, rxGot := 0,
      result := .nothing } := by
  simp only [State.gave, State.enter, State.request, State.returns]

section
variable {i : Instr} {ty : Byte} {d : Delivery} {rest : List IngestAnswer} {s : State}
  (delivers : Instr.delivers i = true) (running : s.halted = false) (held : s.Holds ty d)
include delivers running held

section
variable {g : GetCall} (answer : s.ctlIngest = ⟨[g], 0⟩ :: rest) (sole : (s.around .irqRx).consuming g.pool = false)
include answer sole

/-- A transition whose ingest code takes bytes of a pool that holds enough. -/
theorem exec_delivers_getter_of_le (enough : g.amount ≤ (s.pool g.pool).count) :
    ∃ q, exec i s = .next { s.setPool g.pool q with
        delivered := s.delivered ++ [d], ctlIngest := rest,
        ctlGot := s.ctlGot ++ [.taken ((s.pool g.pool).unread.take g.amount)], rxState := .awaitingType,
        rxReqValid := true, rxReqOff := 0, rxReqLen := 1, rxGot := 0, result := .nothing } ∧
      (s.pool g.pool).TakenFrom g.amount q := by
  have pool : ((s.passes d).setAnswers rest).pool g.pool = s.pool g.pool := by cases g <;> rfl
  obtain ⟨q, got, taken⟩ := Prog.run_ingestCode_of_le (ty := ty) (status := 0) (calls := []) (c := .irqRx)
    (s := (s.passes d).setAnswers rest) sole (by rw [pool]; exact enough)
  rw [pool, Prog.run_ingestCode_nil, State.ingested_eq] at got
  refine ⟨q, (exec_of_delivers_answered delivers running held answer).trans (got.trans ?_), pool ▸ taken⟩
  cases g <;> simp only [State.setPool, State.passes, State.setAnswers, GetCall.pool]

/-- A transition whose ingest code asks for more bytes than the pool holds, by a getter that does not block. -/
theorem exec_delivers_getter_of_gt (short : (s.pool g.pool).count < g.amount) (returns : g ≠ .lowBlocking g.amount) :
    exec i s = .next { s with
      delivered := s.delivered ++ [d], ctlIngest := rest, ctlGot := s.ctlGot ++ [.notTaken],
      rxState := .awaitingType, rxReqValid := true, rxReqOff := 0, rxReqLen := 1, rxGot := 0, result := .nothing } := by
  have pool : ((s.passes d).setAnswers rest).pool g.pool = s.pool g.pool := by cases g <;> rfl
  have missed := Prog.run_ingestCode_of_gt (ty := ty) (status := 0) (calls := []) (c := .irqRx)
    (s := (s.passes d).setAnswers rest) sole (by rw [pool]; exact short) returns
  rw [Prog.run_ingestCode_nil, State.ingested_eq] at missed
  exact (exec_of_delivers_answered delivers running held answer).trans missed

end

section
variable {n : Nat} (answer : s.ctlIngest = ⟨[.lowBlocking n], 0⟩ :: rest)
  (sole : (s.around .irqRx).consuming .low = false) (short : s.low.count < n)
include answer sole short

/-- A transition whose ingest code blocks, and pumps. -/
theorem exec_delivers_getlob_pumps (urgent : s.cfg.prioRx ≤ s.cfg.prioRng) (ready : s.rngReady = true)
    (producer : (s.around .irqRx).producing = false) :
    exec i s =
      .next (((s.passes d).setAnswers rest).pump.suspend ⟨.irqRx, .ingest ty 0 [.lowBlocking n], []⟩) :=
  (exec_of_delivers_answered delivers running held answer).trans
    (Prog.run_ingestCode_pumps (s := (s.passes d).setAnswers rest) sole short urgent ready producer)

/-- A transition whose ingest code blocks, and spins. -/
theorem exec_delivers_getlob_spins (quiet : s.cfg.prioRng < s.cfg.prioRx ∨ s.rngReady = false) :
    exec i s = .next (((s.passes d).setAnswers rest).suspend ⟨.irqRx, .ingest ty 0 [.lowBlocking n], []⟩) :=
  (exec_of_delivers_answered delivers running held answer).trans
    (Prog.run_ingestCode_spins (s := (s.passes d).setAnswers rest) sole short quiet)

end

end

/-- Settles O24: by whether the pool holds enough bytes, and if not by whether the getter blocks. -/
theorem ingestCodeTakesRandomBytes : Obligations.IngestCodeTakesRandomBytes := by
  constructor
  · intro i g ty d rest s delivers running held answer sole
    refine ⟨fun enough => ?_, exec_delivers_getter_of_gt delivers running held answer sole, fun short blocks => ?_⟩
    · obtain ⟨q, got, unread, w, slots⟩ := exec_delivers_getter_of_le delivers running held answer sole enough
      exact ⟨q, got, unread, w, slots⟩
    · obtain ⟨n, rfl⟩ : ∃ n, g = .lowBlocking n := ⟨_, blocks⟩
      refine ⟨fun urgent ready producer => ?_, exec_delivers_getlob_spins delivers running held answer sole short⟩
      refine ⟨_, exec_rsProduce (s := ((s.passes d).setAnswers rest).takeRngByte) running producer s.rngData, ?_⟩
      rw [exec_delivers_getlob_pumps delivers running held answer sole short urgent ready producer, State.pump_suspend]
      rfl
  · intro ty n below s u tick uncut running noIrq top sole
    rw [step_of_ingest tick uncut running noIrq top]
    refine ⟨fun enough => ?_, fun short quiet => ?_⟩
    · obtain ⟨q, got, unread, w, slots⟩ := Prog.run_ingestCode_of_le (g := .lowBlocking n) (ty := ty) (status := 0)
        (calls := []) (c := .irqRx) (s := { u with stack := below }) sole enough
      rw [Prog.run_ingestCode_nil, State.ingested_eq] at got
      exact ⟨q, got, unread, w, slots⟩
    · rw [Prog.run_ingestCode_spins (s := { u with stack := below }) sole short quiet, State.suspend, ← top]

end Sys2Proof.Machine
end

section
/-! The statements of 70_reset_and_hazards.md: the second consumer or producer that is refused, and the block that nothing
has started. -/

namespace Sys2Proof.Machine

/-! ## A second consumer or producer (70 R240, 93 U6) -/

section
variable {s : State} {j : Instr} {a : Activation} (suspended : a ∈ s.stack) (performs : a.call = .op j)
include suspended performs

/-- An operation in progress is among those that whatever starts finds suspended below it. -/
theorem State.any_performs_of_mem {f : Instr → Bool} (holds : f j = true) :
    (s.stack.any fun x => x.performs f) = true :=
  List.any_eq_true.2 ⟨a, suspended, by rw [Activation.performs, performs]; exact holds⟩

theorem State.around_consuming_of_mem {p : PoolId} (consumes : Instr.consumes p j = true) (c : Ctx) :
    (s.around c).consuming p = true := State.any_performs_of_mem suspended performs consumes

theorem State.around_producing_of_mem (produces : Instr.produces j = true) (c : Ctx) :
    (s.around c).producing = true := State.any_performs_of_mem suspended performs produces

end

theorem Prog.ifSoleConsumer_of_second {a : Around} {p : PoolId} (second : a.consuming p = true) (k : Prog) :
    Prog.ifSoleConsumer a p k = .refuse .secondConsumer := if_pos second

/-- Ingest code whose next getter would be a second consumer of its pool is refused before it reads anything. -/
theorem Prog.ingestCode_of_second {a : Around} {g : GetCall} (second : a.consuming g.pool = true) (ty : Byte)
    (status : Nat) (calls : List GetCall) :
    Prog.ingestCode a ty status (g :: calls) = .refuse .secondConsumer := by
  cases g with
  | high n | low n | lowBlocking n => exact Prog.ifSoleConsumer_of_second second _

/-- The pump that finds a waiting byte would be a second producer (log 24). -/
theorem Prog.run_pump_of_second {a : Around} {s : State} (second : a.producing = true) (ready : s.rngReady = true)
    (c : Ctx) (k : Prog) : (Prog.pump a k).run c s = .refused .secondProducer := by
  rw [Prog.run_pump, ready, if_neg (by decide), if_pos second]

section
variable {s : State} (running : s.halted = false)
include running

theorem exec_rsProduce_of_second (second : (s.around .irqRng).producing = true) (b : Byte) :
    exec (.rsProduce b) s = .refused .secondProducer :=
  calc exec (.rsProduce b) s
      = (progRsProduce b (s.around .irqRng)).run .irqRng s := exec_of_running _ running
    _ = .refused .secondProducer := by rw [progRsProduce, if_pos second, Prog.run_refuse]

theorem exec_rsGetlob_of_second {n : Nat} (second : (s.around s.runningCtx).producing = true) (short : s.low.count < n)
    (urgent : Config.prio s.cfg s.runningCtx ≤ s.cfg.prioRng) (ready : s.rngReady = true) :
    exec (.rsGetlob n) s = .refused .secondProducer := by
  rw [exec_rsGetlob_of_gt running short, if_pos ⟨urgent, ready⟩, if_pos second]

variable {i : Instr} {ty : Byte} {d : Delivery} (delivers : Instr.delivers i = true) (held : s.Holds ty d)
include delivers held

theorem exec_delivers_of_second_consumer {g : GetCall} {calls : List GetCall} {status : Nat} {rest : List IngestAnswer}
    (answer : s.ctlIngest = ⟨g :: calls, status⟩ :: rest) (second : (s.around .irqRx).consuming g.pool = true) :
    exec i s = .refused .secondConsumer := by
  rw [exec_of_delivers_answered delivers running held answer, Prog.ingestCode_of_second second, Prog.run_refuse]

theorem exec_delivers_of_second_producer {n : Nat} {calls : List GetCall} {status : Nat} {rest : List IngestAnswer}
    (answer : s.ctlIngest = ⟨.lowBlocking n :: calls, status⟩ :: rest)
    (sole : (s.around .irqRx).consuming .low = false) (short : s.low.count < n)
    (urgent : s.cfg.prioRx ≤ s.cfg.prioRng) (ready : s.rngReady = true)
    (second : (s.around .irqRx).producing = true) : exec i s = .refused .secondProducer := by
  have pumps : (s.around .irqRx).pumps = true := decide_eq_true urgent
  have short' : ((s.passes d).setAnswers rest).low.count < n := short
  have ready' : ((s.passes d).setAnswers rest).rngReady = true := ready
  rw [exec_of_delivers_answered delivers running held answer, Prog.run_ingestCode_blocking sole short', if_pos pumps,
    Prog.run_pump_of_second second ready']

end

/-- Settles O25: the suspended operation is what each check before a second consumer or producer looks for. -/
theorem secondConsumerOrProducerIsRefused : Obligations.SecondConsumerOrProducerIsRefused := by
  refine fun s running => ⟨?_, ?_⟩
  · intro i j g calls status ty d rest a delivers held answer suspended performs consumes
    exact exec_delivers_of_second_consumer running delivers held answer
      (State.around_consuming_of_mem suspended performs consumes .irqRx)
  · intro b j a suspended performs produces
    have second := State.around_producing_of_mem suspended performs produces
    refine ⟨exec_rsProduce_of_second running (second _) b, fun n => exec_rsGetlob_of_second running (second _), ?_⟩
    intro i n calls status ty d rest delivers held answer sole short urgent ready
    exact exec_delivers_of_second_producer running delivers held answer sole short urgent ready (second _)

/-! ## Before start-up (70 R231) -/

/-- Nothing has been started and no operation is called: nothing is in progress, no byte is awaited, the generator is off,
no transmission is in flight and no event of one is pending (10_state R26, R31). -/
structure State.Dormant (s : State) : Prop where
  running : s.halted = false
  stack : s.stack = []
  script : s.script = []
  noRequest : s.rxReqValid = false
  notStarted : s.rsStarted = false
  noFlight : s.txFlight = false
  noTxDone : s.txDone = false

/-- Platform initialisation does not fail at this entry of the schedule (60 R208). -/
def Slot.NoFailure (x : Slot) : Prop := ∀ e ∈ x.events, ∀ info, e ≠ .initFailure info

/-- Past the end of the schedule the platform is quiet. -/
theorem State.slot_noFailure {s : State} (fine : ∀ x ∈ s.sched, x.NoFailure) : s.slot.NoFailure := by
  cases slots : s.sched with
  | nil => rw [State.slot_of_nil slots]; exact nofun
  | cons x later => rw [State.slot, slots]; exact fine x (slots ▸ List.mem_cons_self)

theorem State.platform_uartRx_of_no_request {s : State} (noRequest : s.rxReqValid = false) :
    s.platform .uartRx = .next s := by
  rw [State.platform, State.uartRxTick, noRequest, Bool.and_false, Bool.false_and, if_neg Bool.false_ne_true]

namespace State.Dormant

variable {s : State} (dormant : s.Dormant)
include dormant

/-- The schedule is no part of it. -/
theorem withSched (slots : List Slot) : State.Dormant { s with sched := slots } :=
  ⟨dormant.running, dormant.stack, dormant.script, dormant.noRequest, dormant.notStarted, dormant.noFlight,
    dormant.noTxDone⟩

/-- Each event of the platform but a failure waits for something that was started. -/
theorem platform_eq {e : PlatEvent} (fine : ∀ info, e ≠ .initFailure info) : s.platform e = .next s := by
  cases e with
  | quiet => rfl
  | uartRx => exact State.platform_uartRx_of_no_request dormant.noRequest
  | uartTx => exact State.platform_uartTx_of_none dormant.noFlight
  | rngByte => exact State.platform_rngByte_of_none (.inl dormant.notStarted)
  | initFailure info => exact absurd rfl (fine info)

theorem platformAll_eq {es : List PlatEvent} (fine : ∀ e ∈ es, ∀ info, e ≠ .initFailure info) :
    platformAll es s = .next s := by
  induction es with
  | nil => rfl
  | cons e es ih =>
    obtain ⟨first, later⟩ := List.forall_mem_cons.1 fine
    simp only [platformAll, dormant.platform_eq first, ih later]

theorem pending_eq (y : Ctx) : s.pending y = false := by
  cases y with
  | main => rfl
  | irqRx => exact Bool.and_eq_false_iff.2 (.inl dormant.noRequest)
  | irqTx => exact dormant.noTxDone
  | irqRng => exact Bool.and_eq_false_iff.2 (.inr dormant.notStarted)

theorem nextIrq_eq : s.nextIrq = none := by
  refine Option.eq_none_iff_forall_ne_some.2 fun y taken => ?_
  obtain ⟨pending, -⟩ := State.nextIrq_eq_some taken
  rw [dormant.pending_eq] at pending
  cases pending

/-- A step uses up its entry of the schedule and does nothing else. -/
theorem step_eq (fine : s.slot.NoFailure) : step s = .next { s with sched := s.sched.tail } := by
  have still : State.Dormant { s with sched := s.sched.tail } := dormant.withSched _
  have tick : s.platformTick = .next { s with sched := s.sched.tail } := still.platformAll_eq fine
  rw [(step_of_none tick still.running still.nextIrq_eq).2 still.stack, State.fetchScript_of_nil still.script]

end State.Dormant

/-- However many steps pass, a block that nothing has started only uses up its schedule. -/
theorem State.Dormant.runSteps_eq {s : State} (dormant : s.Dormant) (k : Nat) (fine : ∀ x ∈ s.sched, x.NoFailure) :
    runSteps k s = .next { s with sched := s.sched.drop k } := by
  induction k generalizing s with
  | zero => rfl
  | succ k ih =>
    have first : step s = .next { s with sched := s.sched.tail } := dormant.step_eq (State.slot_noFailure fine)
    have rest := ih (dormant.withSched s.sched.tail) fun x mem => fine x (List.mem_of_mem_tail mem)
    rw [List.drop_tail] at rest
    simp only [runSteps, first, rest]

/-- Reset starts nothing, whatever the platform is going to do and to offer. -/
theorem State.reset_dormant (slots : List Slot) (line rng : List Byte) :
    State.Dormant { State.reset with sched := slots, rxLine := line, rngLine := rng } :=
  ⟨rfl, rfl, rfl, rfl, rfl, rfl, rfl⟩

/-- Settles O52: what is left of the schedule is all that changes. -/
theorem blockIsInertAfterReset : Obligations.BlockIsInertAfterReset := fun k slots line rng fine =>
  ⟨slots.drop k, (State.reset_dormant slots line rng).runSteps_eq k fine⟩

end Sys2Proof.Machine
end
